-- ==== Sys2Proof/Word.lean ====
section
/-! DEFINITION. The core's word types (00_scope.md R9, R11; 30_encoding.md R73): widths only. -/

namespace Sys2Proof

/-- A 32-bit word: register, latch value field, immediate, data cell, address and `pc` (R11, XLEN = 32).
`+`, `-`, `*` on it are modulo `2^32`; `BitVec.toInt` is the spec's `s32`. -/
abbrev Word := BitVec 32

/-- The contents of a record's `rd`, `rs1` or `rs2` field: 0 to 255 (10_state.md R34; 30_encoding.md R73). -/
abbrev RegIndex := BitVec 8

/-- An opcode number, legal or not (30_encoding.md R73, R74, R75). -/
abbrev OpNumber := BitVec 8

/-- The packed instruction word of 30_encoding.md R73. -/
abbrev Packed := BitVec 64

end Sys2Proof
end

