-- ==== Sys2Proof/Config.lean ====
section
/-! DEFINITION. The implementation parameters of 00_scope.md R9: constants of the machine, not state
(10_state.md R38). -/

namespace Sys2Proof.Config

/-- Number of general registers. OPEN parameter of R9 (D2, I2) at the spec's default.
DESIGN CHOICE (unsafe): log 1. -/
def nregs : Nat := 16

/-- Number of data-memory cells. OPEN parameter of R9 (D3, I3) at the spec's default.
DESIGN CHOICE (unsafe): log 2. -/
def dmemSize : Nat := 4096

/-- `CODE_BASE`: `pc` of the first instruction (R9, D4). -/
def codeBase : Nat := 4000

/-- `INSN_WIDTH`: `pc` increment per instruction (R9, D4). -/
def insnWidth : Nat := 4

/-- `POSTINC`: increment of the base register by LOADP and STOREP (R9). -/
def postInc : Nat := 4

end Sys2Proof.Config
end

