-- ==== Sys2Proof/Syntax.lean ====
section
/-! DEFINITION. The instruction set as syntax: the 25 opcodes (00_scope.md R2), their record formats
(30_encoding.md R71), the Instruction Record (R70), and `Instr`, one constructor per opcode. -/

namespace Sys2Proof

/-- The closed opcode set of 00_scope.md R2, in the order of 30_encoding.md R74. -/
inductive Opcode where
  | add | sub | mul | addl | subl | and | or | xor | cmp | cml | movc | nop
  | load | store | loadp | storep
  | jump | jalr | bz | bnz | bp | bnp | bn | bnn | halt
  deriving DecidableEq, Repr

/-- A register field of a record (30_encoding.md R70); the `field` of `InvalidRegisterIndex` (60_exceptions.md R243). -/
inductive Field where
  | rd | rs1 | rs2
  deriving DecidableEq, Repr

/-- The record formats of 30_encoding.md R71. -/
inductive Format where
  | rrr | rri | rr | ri | di | ssi | i | n
  deriving DecidableEq, Repr

/-- The Instruction Record of 30_encoding.md R70, less the mnemonic text that no rule reads (R8). The opcode is held
by its number (R74), so that a record with an illegal opcode exists (R75, R81): log 11. -/
structure Record where
  opcode : OpNumber
  rd     : RegIndex
  rs1    : RegIndex
  rs2    : RegIndex
  imm    : Word
  deriving DecidableEq, Repr

/-- An instruction: an opcode with exactly the fields its format uses (30_encoding.md R71, R74). STORE and STOREP name
the value register `rs1` first and the base register `rs2` second. -/
inductive Instr where
  | add (rd rs1 rs2 : RegIndex)
  | sub (rd rs1 rs2 : RegIndex)
  | mul (rd rs1 rs2 : RegIndex)
  | addl (rd rs1 : RegIndex) (imm : Word)
  | subl (rd rs1 : RegIndex) (imm : Word)
  | and (rd rs1 rs2 : RegIndex)
  | or (rd rs1 rs2 : RegIndex)
  | xor (rd rs1 rs2 : RegIndex)
  | cmp (rs1 rs2 : RegIndex)
  | cml (rs1 : RegIndex) (imm : Word)
  | movc (rd : RegIndex) (imm : Word)
  | nop
  | load (rd rs1 : RegIndex) (imm : Word)
  | store (rs1 rs2 : RegIndex) (imm : Word)
  | loadp (rd rs1 : RegIndex) (imm : Word)
  | storep (rs1 rs2 : RegIndex) (imm : Word)
  | jump (rs1 : RegIndex) (imm : Word)
  | jalr (rd rs1 : RegIndex) (imm : Word)
  | bz (imm : Word)
  | bnz (imm : Word)
  | bp (imm : Word)
  | bnp (imm : Word)
  | bn (imm : Word)
  | bnn (imm : Word)
  | halt
  deriving DecidableEq, Repr

end Sys2Proof
end

