-- ==== Sys2Proof/WellFormed.lean ====
section
/-! DEFINITION. Well-formed instructions: every register field the format uses names a register
(30_encoding.md R71, R76). -/

namespace Sys2Proof

/-- A register field names one of the `NREGS` registers (10_state.md R20). -/
def RegIndex.inRange (r : RegIndex) : Bool := decide (r.toNat < Config.nregs)

/-- Every used register field is `< NREGS` (30_encoding.md R76); a field the opcode does not use is not there to check. -/
def Instr.wellFormed : Instr → Bool
  | .add rd rs1 rs2 => RegIndex.inRange rd && RegIndex.inRange rs1 && RegIndex.inRange rs2
  | .sub rd rs1 rs2 => RegIndex.inRange rd && RegIndex.inRange rs1 && RegIndex.inRange rs2
  | .mul rd rs1 rs2 => RegIndex.inRange rd && RegIndex.inRange rs1 && RegIndex.inRange rs2
  | .addl rd rs1 _ => RegIndex.inRange rd && RegIndex.inRange rs1
  | .subl rd rs1 _ => RegIndex.inRange rd && RegIndex.inRange rs1
  | .and rd rs1 rs2 => RegIndex.inRange rd && RegIndex.inRange rs1 && RegIndex.inRange rs2
  | .or rd rs1 rs2 => RegIndex.inRange rd && RegIndex.inRange rs1 && RegIndex.inRange rs2
  | .xor rd rs1 rs2 => RegIndex.inRange rd && RegIndex.inRange rs1 && RegIndex.inRange rs2
  | .cmp rs1 rs2 => RegIndex.inRange rs1 && RegIndex.inRange rs2
  | .cml rs1 _ => RegIndex.inRange rs1
  | .movc rd _ => RegIndex.inRange rd
  | .nop => true
  | .load rd rs1 _ => RegIndex.inRange rd && RegIndex.inRange rs1
  | .store rs1 rs2 _ => RegIndex.inRange rs1 && RegIndex.inRange rs2
  | .loadp rd rs1 _ => RegIndex.inRange rd && RegIndex.inRange rs1
  | .storep rs1 rs2 _ => RegIndex.inRange rs1 && RegIndex.inRange rs2
  | .jump rs1 _ => RegIndex.inRange rs1
  | .jalr rd rs1 _ => RegIndex.inRange rd && RegIndex.inRange rs1
  | .bz _ => true
  | .bnz _ => true
  | .bp _ => true
  | .bnp _ => true
  | .bn _ => true
  | .bnn _ => true
  | .halt => true

end Sys2Proof
end

