-- ==== Sys2Proof/Decode.lean ====
section
/-! DEFINITION. Formats, opcode numbers, the packed word, the decoder and then the encoder (30_encoding.md R71 to R79).
The record is the normative format (R70); the packed word is the spec's own interchange form of it (R73, D25). -/

namespace Sys2Proof

/-- The opcode of an instruction. -/
def Instr.opcode : Instr → Opcode
  | .add _ _ _ => .add
  | .sub _ _ _ => .sub
  | .mul _ _ _ => .mul
  | .addl _ _ _ => .addl
  | .subl _ _ _ => .subl
  | .and _ _ _ => .and
  | .or _ _ _ => .or
  | .xor _ _ _ => .xor
  | .cmp _ _ => .cmp
  | .cml _ _ => .cml
  | .movc _ _ => .movc
  | .nop => .nop
  | .load _ _ _ => .load
  | .store _ _ _ => .store
  | .loadp _ _ _ => .loadp
  | .storep _ _ _ => .storep
  | .jump _ _ => .jump
  | .jalr _ _ _ => .jalr
  | .bz _ => .bz
  | .bnz _ => .bnz
  | .bp _ => .bp
  | .bnp _ => .bnp
  | .bn _ => .bn
  | .bnn _ => .bnn
  | .halt => .halt

/-- The format column of 30_encoding.md R71. -/
def Opcode.format : Opcode → Format
  | .add | .sub | .mul | .and | .or | .xor => .rrr
  | .addl | .subl | .load | .loadp | .jalr => .rri
  | .cmp => .rr
  | .cml | .jump => .ri
  | .movc => .di
  | .store | .storep => .ssi
  | .bz | .bnz | .bp | .bnp | .bn | .bnn => .i
  | .halt | .nop => .n

/-- The register fields a format uses, in the order `rd`, `rs1`, `rs2` in which Decode checks them
(30_encoding.md R71; 40_pipeline.md R142). -/
def Format.fields : Format → List Field
  | .rrr => [.rd, .rs1, .rs2]
  | .rri => [.rd, .rs1]
  | .rr => [.rs1, .rs2]
  | .ri => [.rs1]
  | .di => [.rd]
  | .ssi => [.rs1, .rs2]
  | .i => []
  | .n => []

/-- Opcode numbers (30_encoding.md R74). -/
def Opcode.number : Opcode → OpNumber
  | .add => 0x01#8
  | .sub => 0x02#8
  | .mul => 0x03#8
  | .addl => 0x04#8
  | .subl => 0x05#8
  | .and => 0x06#8
  | .or => 0x07#8
  | .xor => 0x08#8
  | .cmp => 0x09#8
  | .cml => 0x0A#8
  | .movc => 0x0B#8
  | .nop => 0x0C#8
  | .load => 0x0D#8
  | .store => 0x0E#8
  | .loadp => 0x0F#8
  | .storep => 0x10#8
  | .jump => 0x11#8
  | .jalr => 0x12#8
  | .bz => 0x13#8
  | .bnz => 0x14#8
  | .bp => 0x15#8
  | .bnp => 0x16#8
  | .bn => 0x17#8
  | .bnn => 0x18#8
  | .halt => 0x19#8

/-- The opcode with a given number; numbers 0x00 and 0x1A to 0xFF name none (30_encoding.md R74, R75). -/
def Opcode.ofNumber (n : OpNumber) : Option Opcode :=
  match n.toNat with
  | 0x01 => some .add
  | 0x02 => some .sub
  | 0x03 => some .mul
  | 0x04 => some .addl
  | 0x05 => some .subl
  | 0x06 => some .and
  | 0x07 => some .or
  | 0x08 => some .xor
  | 0x09 => some .cmp
  | 0x0A => some .cml
  | 0x0B => some .movc
  | 0x0C => some .nop
  | 0x0D => some .load
  | 0x0E => some .store
  | 0x0F => some .loadp
  | 0x10 => some .storep
  | 0x11 => some .jump
  | 0x12 => some .jalr
  | 0x13 => some .bz
  | 0x14 => some .bnz
  | 0x15 => some .bp
  | 0x16 => some .bnp
  | 0x17 => some .bn
  | 0x18 => some .bnn
  | 0x19 => some .halt
  | _ => none

/-- The instruction of an opcode and the record fields; a field the opcode does not use is dropped
(30_encoding.md R71, R73). -/
def Opcode.instr (op : Opcode) (rd rs1 rs2 : RegIndex) (imm : Word) : Instr :=
  match op with
  | .add => .add rd rs1 rs2
  | .sub => .sub rd rs1 rs2
  | .mul => .mul rd rs1 rs2
  | .addl => .addl rd rs1 imm
  | .subl => .subl rd rs1 imm
  | .and => .and rd rs1 rs2
  | .or => .or rd rs1 rs2
  | .xor => .xor rd rs1 rs2
  | .cmp => .cmp rs1 rs2
  | .cml => .cml rs1 imm
  | .movc => .movc rd imm
  | .nop => .nop
  | .load => .load rd rs1 imm
  | .store => .store rs1 rs2 imm
  | .loadp => .loadp rd rs1 imm
  | .storep => .storep rs1 rs2 imm
  | .jump => .jump rs1 imm
  | .jalr => .jalr rd rs1 imm
  | .bz => .bz imm
  | .bnz => .bnz imm
  | .bp => .bp imm
  | .bnp => .bnp imm
  | .bn => .bn imm
  | .bnn => .bnn imm
  | .halt => .halt

/-- Why a record or packed word is no instruction. -/
inductive DecodeError where
  /-- An opcode number outside 30_encoding.md R74; the machine's own outcome for it is `Fault.illegalOpcode` (R75). -/
  | illegalOpcode (number : OpNumber)
  deriving DecidableEq, Repr

/-- The instruction a record stands for (30_encoding.md R70, R71, R75). -/
def Record.instr (r : Record) : Except DecodeError Instr :=
  match Opcode.ofNumber r.opcode with
  | some op => .ok (op.instr r.rd r.rs1 r.rs2 r.imm)
  | none => .error (.illegalOpcode r.opcode)

/-- Unpacking: `opcode = w[63:56]`, `rd = w[55:48]`, `rs1 = w[47:40]`, `rs2 = w[39:32]`, `imm = w[31:0]`
(30_encoding.md R73). -/
def Record.ofPacked (w : Packed) : Record where
  opcode := w.extractLsb' 56 8
  rd := w.extractLsb' 48 8
  rs1 := w.extractLsb' 40 8
  rs2 := w.extractLsb' 32 8
  imm := w.extractLsb' 0 32

/-- The decoder: total on every 64-bit word, refusing an illegal opcode by name (30_encoding.md R73, R75). Fields the
opcode does not use are ignored. -/
def decode (w : Packed) : Except DecodeError Instr := (Record.ofPacked w).instr

/-- The decoder on a word of the opcode table: the packed word is one 64-bit number and has no byte order
(30_encoding.md R73), so its bits are numbered as the table numbers them. -/
def decodeTableWord (nbits w : Nat) : Option Instr :=
  match decode (BitVec.ofNat 64 (w % 2 ^ nbits)) with
  | .ok i => some i
  | .error _ => none

/-- The record of an instruction, 0 in every field the opcode does not use (30_encoding.md R73). -/
def Instr.toRecord : Instr → Record
  | .add rd rs1 rs2 => ⟨Opcode.add.number, rd, rs1, rs2, 0#32⟩
  | .sub rd rs1 rs2 => ⟨Opcode.sub.number, rd, rs1, rs2, 0#32⟩
  | .mul rd rs1 rs2 => ⟨Opcode.mul.number, rd, rs1, rs2, 0#32⟩
  | .addl rd rs1 imm => ⟨Opcode.addl.number, rd, rs1, 0#8, imm⟩
  | .subl rd rs1 imm => ⟨Opcode.subl.number, rd, rs1, 0#8, imm⟩
  | .and rd rs1 rs2 => ⟨Opcode.and.number, rd, rs1, rs2, 0#32⟩
  | .or rd rs1 rs2 => ⟨Opcode.or.number, rd, rs1, rs2, 0#32⟩
  | .xor rd rs1 rs2 => ⟨Opcode.xor.number, rd, rs1, rs2, 0#32⟩
  | .cmp rs1 rs2 => ⟨Opcode.cmp.number, 0#8, rs1, rs2, 0#32⟩
  | .cml rs1 imm => ⟨Opcode.cml.number, 0#8, rs1, 0#8, imm⟩
  | .movc rd imm => ⟨Opcode.movc.number, rd, 0#8, 0#8, imm⟩
  | .nop => ⟨Opcode.nop.number, 0#8, 0#8, 0#8, 0#32⟩
  | .load rd rs1 imm => ⟨Opcode.load.number, rd, rs1, 0#8, imm⟩
  | .store rs1 rs2 imm => ⟨Opcode.store.number, 0#8, rs1, rs2, imm⟩
  | .loadp rd rs1 imm => ⟨Opcode.loadp.number, rd, rs1, 0#8, imm⟩
  | .storep rs1 rs2 imm => ⟨Opcode.storep.number, 0#8, rs1, rs2, imm⟩
  | .jump rs1 imm => ⟨Opcode.jump.number, 0#8, rs1, 0#8, imm⟩
  | .jalr rd rs1 imm => ⟨Opcode.jalr.number, rd, rs1, 0#8, imm⟩
  | .bz imm => ⟨Opcode.bz.number, 0#8, 0#8, 0#8, imm⟩
  | .bnz imm => ⟨Opcode.bnz.number, 0#8, 0#8, 0#8, imm⟩
  | .bp imm => ⟨Opcode.bp.number, 0#8, 0#8, 0#8, imm⟩
  | .bnp imm => ⟨Opcode.bnp.number, 0#8, 0#8, 0#8, imm⟩
  | .bn imm => ⟨Opcode.bn.number, 0#8, 0#8, 0#8, imm⟩
  | .bnn imm => ⟨Opcode.bnn.number, 0#8, 0#8, 0#8, imm⟩
  | .halt => ⟨Opcode.halt.number, 0#8, 0#8, 0#8, 0#32⟩

/-- Packing: `{opcode, rd, rs1, rs2, imm}` with `opcode` in the high bits (30_encoding.md R73). -/
def Record.toPacked (r : Record) : Packed := r.opcode ++ r.rd ++ r.rs1 ++ r.rs2 ++ r.imm

/-- The encoder (30_encoding.md R73, R74). -/
def encode (i : Instr) : Packed := i.toRecord.toPacked

/-- The bits of the packed word a format uses: the opcode and the fields of 30_encoding.md R71 at the places of R73. -/
def Format.usedBits : Format → Packed
  | .rrr => 0xFFFFFFFF00000000#64
  | .rri => 0xFFFFFF00FFFFFFFF#64
  | .rr => 0xFF00FFFF00000000#64
  | .ri => 0xFF00FF00FFFFFFFF#64
  | .di => 0xFFFF0000FFFFFFFF#64
  | .ssi => 0xFF00FFFFFFFFFFFF#64
  | .i => 0xFF000000FFFFFFFF#64
  | .n => 0xFF00000000000000#64

/-- `R<n>` in decimal (30_encoding.md R79). -/
def asmReg (r : RegIndex) : String := "R" ++ toString r.toNat

/-- `#<integer>`, signed decimal (30_encoding.md R79). -/
def asmImm (v : Word) : String := "#" ++ toString v.toInt

/-- Assembly text of an instruction (30_encoding.md R79, D27): the inverse direction of the loader, which is outside the
core (R81). No rule of the core reads it. -/
def Instr.toAsm : Instr → String
  | .add rd rs1 rs2 => "ADD " ++ asmReg rd ++ "," ++ asmReg rs1 ++ "," ++ asmReg rs2
  | .sub rd rs1 rs2 => "SUB " ++ asmReg rd ++ "," ++ asmReg rs1 ++ "," ++ asmReg rs2
  | .mul rd rs1 rs2 => "MUL " ++ asmReg rd ++ "," ++ asmReg rs1 ++ "," ++ asmReg rs2
  | .addl rd rs1 imm => "ADDL " ++ asmReg rd ++ "," ++ asmReg rs1 ++ "," ++ asmImm imm
  | .subl rd rs1 imm => "SUBL " ++ asmReg rd ++ "," ++ asmReg rs1 ++ "," ++ asmImm imm
  | .and rd rs1 rs2 => "AND " ++ asmReg rd ++ "," ++ asmReg rs1 ++ "," ++ asmReg rs2
  | .or rd rs1 rs2 => "OR " ++ asmReg rd ++ "," ++ asmReg rs1 ++ "," ++ asmReg rs2
  | .xor rd rs1 rs2 => "XOR " ++ asmReg rd ++ "," ++ asmReg rs1 ++ "," ++ asmReg rs2
  | .cmp rs1 rs2 => "CMP " ++ asmReg rs1 ++ "," ++ asmReg rs2
  | .cml rs1 imm => "CML " ++ asmReg rs1 ++ "," ++ asmImm imm
  | .movc rd imm => "MOVC " ++ asmReg rd ++ "," ++ asmImm imm
  | .nop => "NOP"
  | .load rd rs1 imm => "LOAD " ++ asmReg rd ++ "," ++ asmReg rs1 ++ "," ++ asmImm imm
  | .store rs1 rs2 imm => "STORE " ++ asmReg rs1 ++ "," ++ asmReg rs2 ++ "," ++ asmImm imm
  | .loadp rd rs1 imm => "LOADP " ++ asmReg rd ++ "," ++ asmReg rs1 ++ "," ++ asmImm imm
  | .storep rs1 rs2 imm => "STOREP " ++ asmReg rs1 ++ "," ++ asmReg rs2 ++ "," ++ asmImm imm
  | .jump rs1 imm => "JUMP " ++ asmReg rs1 ++ "," ++ asmImm imm
  | .jalr rd rs1 imm => "JALR " ++ asmReg rd ++ "," ++ asmReg rs1 ++ "," ++ asmImm imm
  | .bz imm => "BZ " ++ asmImm imm
  | .bnz imm => "BNZ " ++ asmImm imm
  | .bp imm => "BP " ++ asmImm imm
  | .bnp imm => "BNP " ++ asmImm imm
  | .bn imm => "BN " ++ asmImm imm
  | .bnn imm => "BNN " ++ asmImm imm
  | .halt => "HALT"

end Sys2Proof
end

