-- ==== Sys2Proof/Machine/State.lean ====
section
/-! DEFINITION. The core's whole state as plain data (10_state.md R20 to R38), the reasons a step can stop, and the state
after reset (70_reset_and_hazards.md R270). -/

namespace Sys2Proof.Machine

/-- The stages that dispatch on a latched instruction after Decode has issued it. -/
inductive Stage where
  | execute | memory | writeback
  deriving DecidableEq, Repr

/-- The faults that end a run (60_exceptions.md R240 to R244), each with the information it reports. A fault is final
and the faulting cycle does not commit (R247, 40_pipeline.md R102). -/
inductive Fault where
  /-- Raised by Decode on an opcode outside 30_encoding.md R74 (60_exceptions.md R241). Safe: the spec's own outcome. -/
  | illegalOpcode (pc : Word) (opcode : OpNumber)
  /-- Raised by Decode on the marker BADFETCH (60_exceptions.md R242). Safe: the spec's own outcome. -/
  | invalidFetchAddress (pc : Word)
  /-- Raised by Decode on a used register field `>= NREGS` (60_exceptions.md R243). Safe: the spec's own outcome. -/
  | invalidRegisterIndex (pc : Word) (field : Field) (index : RegIndex)
  /-- Raised by Memory on a data address outside `[0, DMEM_SIZE)` (60_exceptions.md R244). Safe: the spec's own outcome. -/
  | invalidMemoryAddress (pc : Word) (address : Word)
  deriving DecidableEq, Repr

/-- The reasons a step has no meaning in the model. -/
inductive Refusal where
  /-- Answered by an arm of `exec` whose instruction has no meaning yet. Safe. No arm answers it. -/
  | notModelled (mnemonic : String)
  /-- Raised by Execute, Memory or Writeback when its valid latch holds no legal instruction. No run reaches such a
  state (Decode checks every instruction it issues, 40_pipeline.md R142), and the spec says nothing of it. Safe: log 8. -/
  | strayLatch (stage : Stage)
  deriving DecidableEq, Repr

/-- The `op` field of a latch: an opcode number or the marker BADFETCH, which is no opcode and has no encoding
(10_state.md R34; 40_pipeline.md R146). -/
inductive LatchOp where
  | number (n : OpNumber)
  | badFetch
  deriving DecidableEq, Repr

/-- A pipeline latch with the fields of 10_state.md R34. -/
structure Latch where
  valid         : Bool
  pc            : Word
  op            : LatchOp
  rd            : RegIndex
  rs1           : RegIndex
  rs2           : RegIndex
  imm           : Word
  rs1Value      : Word
  rs2Value      : Word
  resultBuffer  : Word
  memoryAddress : Word
  deriving DecidableEq, Repr

/-- A latch with every field 0 (10_state.md R36). -/
def Latch.empty : Latch where
  valid := false
  pc := 0#32
  op := .number 0#8
  rd := 0#8
  rs1 := 0#8
  rs2 := 0#8
  imm := 0#32
  rs1Value := 0#32
  rs2Value := 0#32
  resultBuffer := 0#32
  memoryAddress := 0#32

/-- The condition flags `Z`, `P`, `N` (10_state.md R29). -/
structure Flags where
  z : Bool
  p : Bool
  n : Bool
  deriving DecidableEq, Repr

/-- One data-memory cell: its address and the 32-bit word it holds (20_memory.md R52: an address names a whole word;
log 10). -/
abbrev DataCell := Nat × Word

/-- The state of the core, item by item as 10_state.md lists it. The fetch enable is `F.valid` (R35). -/
structure State where
  /-- General registers (R20). -/
  regs               : Vector Word Config.nregs
  /-- Busy bits (R23). -/
  busy               : Vector Bool Config.nregs
  /-- Next fetch address (R26). -/
  pc                 : Word
  /-- Condition flags (R29). -/
  flags              : Flags
  /-- `stall_pipeline` (R32). -/
  stallPipeline      : Bool
  /-- `fetch_from_next_cycle` (R32). -/
  fetchFromNextCycle : Bool
  /-- HALT has been written back (R32). -/
  halted             : Bool
  /-- Cycles completed since reset (R32). -/
  clock              : Nat
  /-- Instructions written back since reset (R32). -/
  completed          : Nat
  /-- Data memory (R33): the cells that do not hold 0, by strictly rising address. -/
  dmem               : List DataCell
  /-- Code memory (R33): record `i` sits at `CODE_BASE + 4*i`. No step writes it (20_memory.md R50). -/
  code               : List Record
  /-- Fetch latch (R34); its `valid` is the fetch enable. -/
  F                  : Latch
  /-- Decode latch (R34). -/
  D                  : Latch
  /-- Execute latch (R34). -/
  E                  : Latch
  /-- Memory latch (R34). -/
  M                  : Latch
  /-- Writeback latch (R34). -/
  W                  : Latch
  /-- Run control's mark that this handle has faulted, with the fault it returns again (60_exceptions.md R247;
  70_reset_and_hazards.md R273; log 5). Only `runCore` writes it. -/
  faulted            : Option Fault
  deriving DecidableEq, Repr

/-- The outcome of one step, one stage or one meaning. -/
abbrev Result := Host.Outcome State Fault Refusal

/-- The state right after reset (70_reset_and_hazards.md R270), before a program is given: `init` puts the program into
the code memory (R271; log 7). Every value is the spec's. -/
def State.reset : State where
  regs := Vector.replicate Config.nregs 0#32
  busy := Vector.replicate Config.nregs false
  pc := BitVec.ofNat 32 Config.codeBase
  flags := ⟨true, false, false⟩
  stallPipeline := false
  fetchFromNextCycle := false
  halted := false
  clock := 0
  completed := 0
  dmem := []
  code := []
  F := { Latch.empty with valid := true }
  D := Latch.empty
  E := Latch.empty
  M := Latch.empty
  W := Latch.empty
  faulted := none

end Sys2Proof.Machine
end

