-- ==== Sys2Proof/Machine/Ops.lean ====
section
/-! DEFINITION. The shared operations over registers, busy bits, memories, latches and control flow, each once.
The core has no exception entry and no return (60_exceptions.md R250, R251): what happens on an error is `raise`,
and control transfers share `redirect`. -/

namespace Sys2Proof.Machine

/-! ### Outcomes -/

/-- Sequencing of stages: a fault or refusal of the first ends the cycle, whose writes are then lost
(40_pipeline.md R101, R102). -/
def andThen (r : Result) (f : State → Result) : Result :=
  match r with
  | .next s => f s
  | .fault e => .fault e
  | .refused e => .refused e

/-- `raise Fault(kind, info)` (00_scope.md R14): the whole of what happens on an error. No handler runs and no state is
saved (60_exceptions.md R247, R250); the cycle does not commit because the outcome carries no state. -/
def raise (f : Fault) : Result := .fault f

/-! ### Registers and busy bits -/

/-- `R[i]` (00_scope.md R12; 10_state.md R20, R21). An index of 16 or more never gets here: log 9. -/
def State.readReg (s : State) (i : RegIndex) : Word := s.regs[i.toNat]?.getD 0#32

/-- `R[i] <- v` (00_scope.md R12): no register is hardwired (10_state.md R20). -/
def State.writeReg (s : State) (i : RegIndex) (v : Word) : State :=
  { s with regs := s.regs.setIfInBounds i.toNat v }

/-- `busy[i]` (10_state.md R23, R24). -/
def State.readBusy (s : State) (i : RegIndex) : Bool := s.busy[i.toNat]?.getD false

/-- `busy[i] <- b` (10_state.md R24). -/
def State.setBusy (s : State) (i : RegIndex) (b : Bool) : State :=
  { s with busy := s.busy.setIfInBounds i.toNat b }

/-- What Writeback does to one destination: the register and its busy bit (40_pipeline.md R110). -/
def State.commitReg (s : State) (i : RegIndex) (v : Word) : State :=
  (s.writeReg i v).setBusy i false

/-! ### Data memory -/

/-- The word in a cell; an unlisted cell holds the reset value 0 (10_state.md R33). -/
def cellRead : List DataCell → Nat → Word
  | [], _ => 0#32
  | (b, v) :: rest, a => if a = b then v else cellRead rest a

/-- `v` put into cell `a` of a list in canonical form, kept canonical: a cell that holds 0 is not listed. -/
def cellWrite : List DataCell → Nat → Word → List DataCell
  | [], a, v => if v = 0#32 then [] else [(a, v)]
  | (b, w) :: rest, a, v =>
    if a < b then (if v = 0#32 then (b, w) :: rest else (a, v) :: (b, w) :: rest)
    else if a = b then (if v = 0#32 then rest else (a, v) :: rest)
    else (b, w) :: cellWrite rest a v

/-- `a` is below every listed address. -/
def cellsAbove (a : Nat) : List DataCell → Bool
  | [] => true
  | (b, _) :: _ => decide (a < b)

/-- The canonical form of the data memory: addresses strictly rising, and no listed cell holds 0. -/
def Memory.wf : List DataCell → Bool
  | [] => true
  | (b, v) :: rest => decide (v ≠ 0#32) && cellsAbove b rest && Memory.wf rest

/-- The address test of `CheckDataAddress`: `0 <= s32(a) < DMEM_SIZE`, with no alignment test (40_pipeline.md R117;
20_memory.md R54). -/
def dataAddressOk (a : Word) : Bool := decide (0 ≤ a.toInt ∧ a.toInt < (Config.dmemSize : Int))

/-- `MemRead(a, 1)` (00_scope.md R13; 20_memory.md R51, R52). -/
def State.memRead (s : State) (a : Word) : Word := cellRead s.dmem a.toNat

/-- `MemWrite(a, 1, v)` (00_scope.md R13; 20_memory.md R51, R52). -/
def State.memWrite (s : State) (a : Word) (v : Word) : State :=
  { s with dmem := cellWrite s.dmem a.toNat v }

/-! ### Code memory -/

/-- The index of the program slot that `pc` names among `len` records, if it names one (20_memory.md R50, R55;
40_pipeline.md R146: computed on naturals, a misaligned `pc` is never rounded). -/
def slotIndex (pc : Word) (len : Nat) : Option Nat :=
  if Config.codeBase ≤ pc.toNat then
    if (pc.toNat - Config.codeBase) % Config.insnWidth = 0 then
      if (pc.toNat - Config.codeBase) / Config.insnWidth < len then
        some ((pc.toNat - Config.codeBase) / Config.insnWidth)
      else none
    else none
  else none

/-- `CodeRead(pc)`; `none` is the marker BADFETCH (40_pipeline.md R146). -/
def State.codeRead (s : State) (pc : Word) : Option Record :=
  match slotIndex pc s.code.length with
  | some k => s.code[k]?
  | none => none

/-! ### Latches -/

/-- The opcode a latch holds, if its `op` is one of the 25 (40_pipeline.md R142). -/
def Latch.opcode (l : Latch) : Option Opcode :=
  match l.op with
  | .number n => Opcode.ofNumber n
  | .badFetch => none

/-- A register field of a latch by its name (10_state.md R34). -/
def Latch.field (l : Latch) : Field → RegIndex
  | .rd => l.rd
  | .rs1 => l.rs1
  | .rs2 => l.rs2

/-- The legal instruction a latch holds: one of the 25 opcodes with every used register field `< NREGS`, that is, what
passes `CheckDecode` (40_pipeline.md R142). -/
def Latch.instr (l : Latch) : Option Instr :=
  match l.opcode with
  | some op =>
    if (op.instr l.rd l.rs1 l.rs2 l.imm).wellFormed then some (op.instr l.rd l.rs1 l.rs2 l.imm) else none
  | none => none

/-- The latch Fetch fills for the instruction at `pc`: the record's fields or BADFETCH with zero fields, and zero value
fields (40_pipeline.md R145, R146, R147; R108). -/
def fetchedLatch (valid : Bool) (pc : Word) (r : Option Record) : Latch :=
  match r with
  | some r =>
    { Latch.empty with
      valid := valid, pc := pc, op := .number r.opcode, rd := r.rd, rs1 := r.rs1, rs2 := r.rs2, imm := r.imm }
  | none => { Latch.empty with valid := valid, pc := pc, op := .badFetch }

/-! ### Writes to the Execute latch, which every `Exec[op]` goes through -/

/-- `E.result_buffer <- v`. -/
def State.setResult (s : State) (v : Word) : State := { s with E := { s.E with resultBuffer := v } }

/-- `E.memory_address <- v`. -/
def State.setAddress (s : State) (v : Word) : State := { s with E := { s.E with memoryAddress := v } }

/-- `E.rs1_value <- v` (LOADP). -/
def State.setRs1Value (s : State) (v : Word) : State := { s with E := { s.E with rs1Value := v } }

/-- `E.rs2_value <- v` (STOREP). -/
def State.setRs2Value (s : State) (v : Word) : State := { s with E := { s.E with rs2Value := v } }

/-! ### Control flow -/

/-- `Redirect(target)`: the flush protocol of every taken transfer (40_pipeline.md R122). The target is not checked here
(43_control.md R219). -/
def State.redirect (s : State) (target : Word) : State :=
  { s with
    pc := target
    fetchFromNextCycle := true
    D := { s.D with valid := false }
    F := { s.F with valid := true } }

/-- The conditional branches' common shape: redirect to `E.pc + offset` when the condition holds, else nothing
(43_control.md R210, R213 to R218). -/
def State.branchIf (s : State) (taken : Bool) (offset : Word) : State :=
  if taken then s.redirect (s.E.pc + offset) else s

/-- `pc + INSN_WIDTH` modulo `2^32` (10_state.md R26, R27). -/
def nextPc (pc : Word) : Word := pc + BitVec.ofNat 32 Config.insnWidth

/-- A base register's value after a post-increment by `POSTINC` (42_loadstore.md R190). -/
def postIncremented (base : Word) : Word := base + BitVec.ofNat 32 Config.postInc

/-- `clock <- clock + 1` (40_pipeline.md R101, R102). -/
def State.tick (s : State) : State := { s with clock := s.clock + 1 }

end Sys2Proof.Machine
end

