-- ==== Sys2Proof/Machine/Operands.lean ====
section
/-! DEFINITION. Operands: the opcode sets of 00_scope.md R15, the source and destination sets (40_pipeline.md R136, R139),
the forwarding unit (R130 to R135), operand resolution (R137) and the effective address (42_loadstore.md R190). -/

namespace Sys2Proof.Machine

/-! ### Opcode sets -/

/-- `DestRd`: opcodes that write register `rd` (00_scope.md R15). -/
def destRd : Opcode → Bool
  | .add | .sub | .mul | .addl | .subl | .and | .or | .xor | .load | .movc | .jalr | .loadp => true
  | .cmp | .cml | .nop | .store | .storep | .jump | .bz | .bnz | .bp | .bnp | .bn | .bnn | .halt => false

/-- `Loads` (00_scope.md R15). -/
def isLoad : Opcode → Bool
  | .load | .loadp => true
  | .add | .sub | .mul | .addl | .subl | .and | .or | .xor | .cmp | .cml | .movc | .nop | .store | .storep
  | .jump | .jalr | .bz | .bnz | .bp | .bnp | .bn | .bnn | .halt => false

/-- STORE and STOREP: opcodes that write data memory (20_memory.md R51). -/
def isStore : Opcode → Bool
  | .store | .storep => true
  | .add | .sub | .mul | .addl | .subl | .and | .or | .xor | .cmp | .cml | .movc | .nop | .load | .loadp
  | .jump | .jalr | .bz | .bnz | .bp | .bnp | .bn | .bnn | .halt => false

/-- `FlagOps`: opcodes that write the flags (00_scope.md R15). -/
def isFlagOp : Opcode → Bool
  | .add | .sub | .mul | .addl | .subl | .and | .or | .xor | .cmp | .cml => true
  | .movc | .nop | .load | .store | .loadp | .storep
  | .jump | .jalr | .bz | .bnz | .bp | .bnp | .bn | .bnn | .halt => false

/-- `Branches` (00_scope.md R15). -/
def isBranch : Opcode → Bool
  | .bz | .bnz | .bp | .bnp | .bn | .bnn => true
  | .add | .sub | .mul | .addl | .subl | .and | .or | .xor | .cmp | .cml | .movc | .nop
  | .load | .store | .loadp | .storep | .jump | .jalr | .halt => false

/-- `Src(op)`, in order: the registers Decode reads and tests (40_pipeline.md R136). -/
def srcFields : Opcode → List Field
  | .add | .sub | .mul | .and | .or | .xor | .cmp | .store | .storep => [.rs1, .rs2]
  | .addl | .subl | .cml | .load | .loadp | .jalr | .jump => [.rs1]
  | .movc | .bz | .bnz | .bp | .bnp | .bn | .bnn | .halt | .nop => []

/-- `Dst(op)`: the registers Decode marks busy and Writeback writes (40_pipeline.md R139). -/
def dstFields : Opcode → List Field
  | .add | .sub | .mul | .addl | .subl | .and | .or | .xor | .load | .movc | .jalr => [.rd]
  | .loadp => [.rd, .rs1]
  | .storep => [.rs2]
  | .store | .cmp | .cml | .nop | .jump | .bz | .bnz | .bp | .bnp | .bn | .bnn | .halt => []

/-- Register `r` is in the destination set of the instruction a latch holds; false for an invalid latch
(40_pipeline.md R139). -/
def Latch.writes (l : Latch) (r : RegIndex) : Bool :=
  l.valid &&
    match l.opcode with
    | some op => (dstFields op).any fun f => decide (l.field f = r)
    | none => false

/-! ### Forwarding unit -/

/-- The three answers of the forwarding unit (40_pipeline.md R130). -/
inductive Forwarded where
  | hit (v : Word)
  | block
  | miss
  deriving DecidableEq, Repr

/-- The tests of the `M` latch, in order; `none` when no test holds (40_pipeline.md R130, R131). -/
def forwardFromM (l : Latch) (r : RegIndex) : Option Forwarded :=
  match l.valid, l.opcode with
  | true, some op =>
    if destRd op && !isLoad op && decide (l.rd = r) then some (.hit l.resultBuffer)
    else if isLoad op && decide (l.rd = r) then some .block
    else if decide (op = .storep) && decide (l.rs2 = r) then some (.hit l.rs2Value)
    else if decide (op = .loadp) && decide (l.rs1 = r) then some (.hit l.rs1Value)
    else none
  | _, _ => none

/-- The tests of the `W` latch, in order; `none` when no test holds (40_pipeline.md R130, R132). -/
def forwardFromW (l : Latch) (r : RegIndex) : Option Forwarded :=
  match l.valid, l.opcode with
  | true, some op =>
    if destRd op && decide (l.rd = r) then some (.hit l.resultBuffer)
    else if decide (op = .storep) && decide (l.rs2 = r) then some (.hit l.rs2Value)
    else if decide (op = .loadp) && decide (l.rs1 = r) then some (.hit l.rs1Value)
    else none
  | _, _ => none

/-- `Forward(r)`: `M` before `W`, the first test that holds decides (40_pipeline.md R130, R133). -/
def State.forward (s : State) (r : RegIndex) : Forwarded :=
  match forwardFromM s.M r with
  | some a => a
  | none =>
    match forwardFromW s.W r with
    | some a => a
    | none => .miss

/-! ### Operand resolution in Decode -/

/-- `D.<s>_value <- v`; the source sets never hold `rd` (40_pipeline.md R136, R137). -/
def Latch.setValue (l : Latch) (f : Field) (v : Word) : Latch :=
  match f with
  | .rd => l
  | .rs1 => { l with rs1Value := v }
  | .rs2 => { l with rs2Value := v }

/-- One turn of the operand loop: the state after it, and whether this operand is ready (40_pipeline.md R137, R135). -/
def State.resolveOperand (s : State) (f : Field) : State × Bool :=
  match s.forward (s.D.field f) with
  | .hit v => ({ s with D := s.D.setValue f v }.setBusy (s.D.field f) false, true)
  | .block => (s, false)
  | .miss => ({ s with D := s.D.setValue f (s.readReg (s.D.field f)) }, !s.readBusy (s.D.field f))

/-- The operand loop over a source set, in order (40_pipeline.md R137). -/
def State.resolveOperands (s : State) : List Field → State × Bool
  | [] => (s, true)
  | f :: fs =>
    (((s.resolveOperand f).1.resolveOperands fs).1,
      (s.resolveOperand f).2 && ((s.resolveOperand f).1.resolveOperands fs).2)

/-! ### Effective address -/

/-- Base plus immediate, the only address computation (42_loadstore.md R190). -/
def effectiveAddress (base imm : Word) : Word := base + imm

end Sys2Proof.Machine
end

