-- ==== Sys2Proof/Machine/DecodeStage.lean ====
section
/-! DEFINITION. The Decode stage: checks, operand read, issue or stall (40_pipeline.md R136 to R144). -/

namespace Sys2Proof.Machine

/-- The first used register field of an opcode that names no register (40_pipeline.md R142 check 3). -/
def badField (op : Opcode) (l : Latch) : Option Field :=
  op.format.fields.find? fun f => !RegIndex.inRange (l.field f)

/-- `CheckDecode(D)`: BADFETCH, then the opcode, then each used register field; the first that fails is the fault
(40_pipeline.md R142; 60_exceptions.md R248). -/
def checkDecode (l : Latch) : Except Fault Opcode :=
  match l.op with
  | .badFetch => .error (.invalidFetchAddress l.pc)
  | .number n =>
    match Opcode.ofNumber n with
    | none => .error (.illegalOpcode l.pc n)
    | some op =>
      match badField op l with
      | some f => .error (.invalidRegisterIndex l.pc f (l.field f))
      | none => .ok op

/-- Mark every register of a destination set busy (40_pipeline.md R138). -/
def State.markBusy (s : State) : List Field → State
  | [] => s
  | f :: fs => (s.setBusy (s.D.field f) true).markBusy fs

/-- `Issue()` (40_pipeline.md R138). -/
def issue (op : Opcode) (s : State) : State :=
  { s.markBusy (dstFields op) with
    E := s.D
    D := { s.D with valid := false }
    stallPipeline := false }

/-- `DecodeStage()` (40_pipeline.md R137, R140, R141). -/
def decodeStage (s : State) : Result :=
  if s.D.valid then
    match checkDecode s.D with
    | .error f => raise f
    | .ok op =>
      if (s.resolveOperands (srcFields op)).2 then .next (issue op (s.resolveOperands (srcFields op)).1)
      else .next { (s.resolveOperands (srcFields op)).1 with stallPipeline := true }
  else .next { s with stallPipeline := false }

end Sys2Proof.Machine
end

