-- ==== Sys2Proof/Machine/Flags.lean ====
section
/-! DEFINITION. The flag computation: the core has one (40_pipeline.md R121; 10_state.md R29; 41_alu.md R173). -/

namespace Sys2Proof.Machine

/-- The flags of a word read as signed (40_pipeline.md R121). -/
def flagsOf (v : Word) : Flags where
  z := decide (v = 0#32)
  p := decide (0 < v.toInt)
  n := decide (v.toInt < 0)

/-- `SetFlags(v)` (40_pipeline.md R121). -/
def State.setFlags (s : State) (v : Word) : State := { s with flags := flagsOf v }

/-- Exactly one of `Z`, `P`, `N` is 1 (10_state.md R29). -/
def Flags.oneHot (f : Flags) : Bool :=
  (f.z && !f.p && !f.n) || (!f.z && f.p && !f.n) || (!f.z && !f.p && f.n)

end Sys2Proof.Machine
end

