-- ==== Sys2Proof/Machine/Alu.lean ====
section
/-! DEFINITION. `Exec[op]` of 41_alu.md: arithmetic, logic, compare, move and NOP. Each meaning is what the Execute
stage does with the instruction in `E` (40_pipeline.md R120): it reads `E` only. The register write and the busy bit
are Writeback's (R110), the operands are Decode's (R137). -/

namespace Sys2Proof.Machine

/-- The common shape of the flag-writing opcodes with a result: `E.result_buffer <- v; SetFlags(v)` (41_alu.md R160). -/
def aluResult (v : Word) (s : State) : Result := .next ((s.setResult v).setFlags v)

/-- The common shape of the compares: `SetFlags(v)`, `result_buffer` not written (41_alu.md R169, R170). -/
def compareResult (v : Word) (s : State) : Result := .next (s.setFlags v)

/-- ADD (41_alu.md R161). -/
def execAdd (s : State) : Result := aluResult (s.E.rs1Value + s.E.rs2Value) s

/-- SUB (41_alu.md R162). -/
def execSub (s : State) : Result := aluResult (s.E.rs1Value - s.E.rs2Value) s

/-- MUL: the low 32 bits of the product (41_alu.md R163, D28). -/
def execMul (s : State) : Result := aluResult (s.E.rs1Value * s.E.rs2Value) s

/-- ADDL (41_alu.md R164). -/
def execAddl (imm : Word) (s : State) : Result := aluResult (s.E.rs1Value + imm) s

/-- SUBL (41_alu.md R165). -/
def execSubl (imm : Word) (s : State) : Result := aluResult (s.E.rs1Value - imm) s

/-- AND (41_alu.md R166). -/
def execAnd (s : State) : Result := aluResult (s.E.rs1Value &&& s.E.rs2Value) s

/-- OR (41_alu.md R167). -/
def execOr (s : State) : Result := aluResult (s.E.rs1Value ||| s.E.rs2Value) s

/-- XOR (41_alu.md R168). -/
def execXor (s : State) : Result := aluResult (s.E.rs1Value ^^^ s.E.rs2Value) s

/-- CMP (41_alu.md R169). -/
def execCmp (s : State) : Result := compareResult (s.E.rs1Value - s.E.rs2Value) s

/-- CML (41_alu.md R170). -/
def execCml (imm : Word) (s : State) : Result := compareResult (s.E.rs1Value - imm) s

/-- MOVC: flags unchanged (41_alu.md R171). -/
def execMovc (imm : Word) (s : State) : Result := .next (s.setResult imm)

/-- NOP: Execute does nothing; it is counted at Writeback (41_alu.md R172). -/
def execNop (s : State) : Result := .next s

end Sys2Proof.Machine
end

