-- ==== Sys2Proof/Machine/Control.lean ====
section
/-! DEFINITION. `Exec[op]` of 43_control.md: jumps, conditional branches and HALT. Every transfer resolves in Execute
through `redirect` (R210); a branch reads one flag and writes none (R213 to R218). -/

namespace Sys2Proof.Machine

/-- JUMP (43_control.md R211). -/
def execJump (imm : Word) (s : State) : Result := .next (s.redirect (s.E.rs1Value + imm))

/-- JALR: the link is the address after this JALR, `E.pc + 4` (43_control.md R212, D18). -/
def execJalr (imm : Word) (s : State) : Result :=
  .next ((s.setResult (nextPc s.E.pc)).redirect (s.E.rs1Value + imm))

/-- BZ: taken when `Z = 1` (43_control.md R213). -/
def execBz (imm : Word) (s : State) : Result := .next (s.branchIf s.flags.z imm)

/-- BNZ: taken when `Z = 0` (43_control.md R214). -/
def execBnz (imm : Word) (s : State) : Result := .next (s.branchIf (!s.flags.z) imm)

/-- BP: taken when `P = 1` (43_control.md R215). -/
def execBp (imm : Word) (s : State) : Result := .next (s.branchIf s.flags.p imm)

/-- BNP: taken when `P = 0` (43_control.md R216). -/
def execBnp (imm : Word) (s : State) : Result := .next (s.branchIf (!s.flags.p) imm)

/-- BN: taken when `N = 1` (43_control.md R217). -/
def execBn (imm : Word) (s : State) : Result := .next (s.branchIf s.flags.n imm)

/-- BNN: taken when `N = 0` (43_control.md R218). -/
def execBnn (imm : Word) (s : State) : Result := .next (s.branchIf (!s.flags.n) imm)

/-- HALT: Execute does nothing; Fetch has disabled itself (40_pipeline.md R150) and Writeback sets `halted`
(43_control.md R222). -/
def execHalt (s : State) : Result := .next s

end Sys2Proof.Machine
end

