-- ==== Sys2Proof/Machine/LoadStore.lean ====
section
/-! DEFINITION. 42_loadstore.md: `Exec[op]` of the four memory opcodes (the effective-address calculator), and what they do
in the Memory stage (40_pipeline.md R115 to R118). -/

namespace Sys2Proof.Machine

/-! ### Execute -/

/-- LOAD: `E.memory_address <- E.rs1_value + E.imm` (42_loadstore.md R190, R191). -/
def execLoad (imm : Word) (s : State) : Result := .next (s.setAddress (effectiveAddress s.E.rs1Value imm))

/-- STORE: `E.memory_address <- E.rs2_value + E.imm` (42_loadstore.md R190, R192). -/
def execStore (imm : Word) (s : State) : Result := .next (s.setAddress (effectiveAddress s.E.rs2Value imm))

/-- LOADP: the address from the base before the increment, then `E.rs1_value` incremented (42_loadstore.md R190, R193). -/
def execLoadp (imm : Word) (s : State) : Result :=
  .next ((s.setAddress (effectiveAddress s.E.rs1Value imm)).setRs1Value (postIncremented s.E.rs1Value))

/-- STOREP: the address from the base before the increment, then `E.rs2_value` incremented (42_loadstore.md R190, R194). -/
def execStorep (imm : Word) (s : State) : Result :=
  .next ((s.setAddress (effectiveAddress s.E.rs2Value imm)).setRs2Value (postIncremented s.E.rs2Value))

/-! ### Memory -/

/-- `CheckDataAddress`, then the continuation (40_pipeline.md R117). -/
def checkDataAddress (a pc : Word) (s : State) : Result :=
  if dataAddressOk a then .next s else raise (.invalidMemoryAddress pc a)

/-- LOAD and LOADP in Memory: check, then `M.result_buffer <- MemRead(M.memory_address, 1)` (40_pipeline.md R115). -/
def loadAccess (s : State) : Result :=
  andThen (checkDataAddress s.M.memoryAddress s.M.pc s) fun s =>
    .next { s with M := { s.M with resultBuffer := s.memRead s.M.memoryAddress } }

/-- STORE and STOREP in Memory: check, then `MemWrite(M.memory_address, 1, M.rs1_value)`; STOREP stores `rs1_value` exactly as
STORE does (40_pipeline.md R115, R116). -/
def storeAccess (s : State) : Result :=
  andThen (checkDataAddress s.M.memoryAddress s.M.pc s) fun s =>
    .next (s.memWrite s.M.memoryAddress s.M.rs1Value)

/-- The data access of each opcode in the Memory stage; every opcode but the four does nothing (40_pipeline.md R115). -/
def memoryAccess (i : Instr) (s : State) : Result :=
  match i with
  | .load _ _ _ | .loadp _ _ _ => loadAccess s
  | .store _ _ _ | .storep _ _ _ => storeAccess s
  | .add _ _ _ | .sub _ _ _ | .mul _ _ _ | .addl _ _ _ | .subl _ _ _ | .and _ _ _ | .or _ _ _ | .xor _ _ _
  | .cmp _ _ | .cml _ _ | .movc _ _ | .nop | .jump _ _ | .jalr _ _ _
  | .bz _ | .bnz _ | .bp _ | .bnp _ | .bn _ | .bnn _ | .halt => .next s

end Sys2Proof.Machine
end

