-- ==== Sys2Proof/Machine/Dispatch.lean ====
section
/-! DEFINITION. `Exec[op]` of 40_pipeline.md R120: what the Execute stage does for the instruction in the `E` latch, one
direct call of its meaning per opcode. The operand values stand in `E` (Decode resolved them); what Memory and Writeback
do for an opcode is in LoadStore.lean (`memoryAccess`) and Writeback.lean (`commit`): log 6. -/

namespace Sys2Proof.Machine

def exec (i : Instr) (s : State) : Host.Outcome State Fault Refusal :=
  match i with
  -- 41_alu.md
  | .add _ _ _ => Sys2Proof.Machine.execAdd s
  | .sub _ _ _ => Sys2Proof.Machine.execSub s
  | .mul _ _ _ => Sys2Proof.Machine.execMul s
  | .addl _ _ imm => Sys2Proof.Machine.execAddl imm s
  | .subl _ _ imm => Sys2Proof.Machine.execSubl imm s
  | .and _ _ _ => Sys2Proof.Machine.execAnd s
  | .or _ _ _ => Sys2Proof.Machine.execOr s
  | .xor _ _ _ => Sys2Proof.Machine.execXor s
  | .cmp _ _ => Sys2Proof.Machine.execCmp s
  | .cml _ imm => Sys2Proof.Machine.execCml imm s
  | .movc _ imm => Sys2Proof.Machine.execMovc imm s
  | .nop => Sys2Proof.Machine.execNop s
  -- 42_loadstore.md
  | .load _ _ imm => Sys2Proof.Machine.execLoad imm s
  | .store _ _ imm => Sys2Proof.Machine.execStore imm s
  | .loadp _ _ imm => Sys2Proof.Machine.execLoadp imm s
  | .storep _ _ imm => Sys2Proof.Machine.execStorep imm s
  -- 43_control.md
  | .jump _ imm => Sys2Proof.Machine.execJump imm s
  | .jalr _ _ imm => Sys2Proof.Machine.execJalr imm s
  | .bz imm => Sys2Proof.Machine.execBz imm s
  | .bnz imm => Sys2Proof.Machine.execBnz imm s
  | .bp imm => Sys2Proof.Machine.execBp imm s
  | .bnp imm => Sys2Proof.Machine.execBnp imm s
  | .bn imm => Sys2Proof.Machine.execBn imm s
  | .bnn imm => Sys2Proof.Machine.execBnn imm s
  | .halt => Sys2Proof.Machine.execHalt s

end Sys2Proof.Machine
end

