-- ==== Sys2Proof/Machine/ExecuteStage.lean ====
section
/-! DEFINITION. The Execute stage (40_pipeline.md R120, R123): the one place where the machine calls `exec`. -/

namespace Sys2Proof.Machine

/-- `M <- E; E.valid <- 0` (40_pipeline.md R120, R123). -/
def passToM (s : State) : State := { s with M := s.E, E := { s.E with valid := false } }

/-- `ExecuteStage()` (40_pipeline.md R120). -/
def executeStage (s : State) : Result :=
  if s.E.valid then
    match s.E.instr with
    | some i => andThen (exec i s) fun s => .next (passToM s)
    | none => .refused (.strayLatch .execute)
  else .next { s with M := { s.M with valid := false } }

end Sys2Proof.Machine
end

