-- ==== Sys2Proof/Machine/FetchStage.lean ====
section
/-! DEFINITION. The Fetch stage (40_pipeline.md R145 to R151). -/

namespace Sys2Proof.Machine

/-- `F` filled from the code memory at `pc`, whether or not it is then handed on (40_pipeline.md R145, R147). -/
def fillF (s : State) : State := { s with F := fetchedLatch s.F.valid s.pc (s.codeRead s.pc) }

/-- The handoff: `D <- F`, `pc` advanced, and fetch disabled after a HALT (40_pipeline.md R148, R150). BADFETCH never
equals HALT (R146). -/
def handOff (s : State) : State :=
  { s with
    D := s.F
    pc := nextPc s.pc
    F := { s.F with valid := s.F.valid && !decide (s.F.opcode = some .halt) } }

/-- `FetchStage()` (40_pipeline.md R145, R149, R151). -/
def fetchStage (s : State) : State :=
  if s.fetchFromNextCycle then { s with fetchFromNextCycle := false }
  else if s.F.valid then
    if s.stallPipeline then fillF s else handOff (fillF s)
  else s

end Sys2Proof.Machine
end

