-- ==== Sys2Proof/Machine/MemoryStage.lean ====
section
/-! DEFINITION. The Memory stage (40_pipeline.md R115). -/

namespace Sys2Proof.Machine

/-- `W <- M; M.valid <- 0` (40_pipeline.md R106, R115). -/
def passToW (s : State) : State := { s with W := s.M, M := { s.M with valid := false } }

/-- `MemoryStage()` (40_pipeline.md R115). -/
def memoryStage (s : State) : Result :=
  if s.M.valid then
    match s.M.instr with
    | some i => andThen (memoryAccess i s) fun s => .next (passToW s)
    | none => .refused (.strayLatch .memory)
  else .next { s with W := { s.W with valid := false } }

end Sys2Proof.Machine
end

