-- ==== Sys2Proof/Machine/Writeback.lean ====
section
/-! DEFINITION. The Writeback stage (40_pipeline.md R110 to R113). -/

namespace Sys2Proof.Machine

/-- What Writeback commits for each opcode: registers and busy bits (40_pipeline.md R110). LOADP writes the incremented
base first and the loaded value last (R111). -/
def commit (i : Instr) (s : State) : State :=
  match i with
  | .add _ _ _ | .sub _ _ _ | .mul _ _ _ | .addl _ _ _ | .subl _ _ _ | .and _ _ _ | .or _ _ _ | .xor _ _ _
  | .load _ _ _ | .movc _ _ | .jalr _ _ _ => s.commitReg s.W.rd s.W.resultBuffer
  | .loadp _ _ _ => (s.commitReg s.W.rs1 s.W.rs1Value).commitReg s.W.rd s.W.resultBuffer
  | .storep _ _ _ => s.commitReg s.W.rs2 s.W.rs2Value
  | .store _ _ _ | .cmp _ _ | .cml _ _ | .nop | .jump _ _
  | .bz _ | .bnz _ | .bp _ | .bnp _ | .bn _ | .bnn _ | .halt => s

/-- What Writeback does to the control state: every instruction is counted (40_pipeline.md R112), HALT sets `halted`
(R113), and `W` is emptied. -/
def retire (i : Instr) (s : State) : State :=
  { s with
    completed := s.completed + 1
    halted := s.halted || decide (i = .halt)
    W := { s.W with valid := false } }

/-- `WritebackStage()` (40_pipeline.md R110). -/
def writebackStage (s : State) : Result :=
  if s.W.valid then
    match s.W.instr with
    | some i => .next (retire i (commit i s))
    | none => .refused (.strayLatch .writeback)
  else .next s

end Sys2Proof.Machine
end

