-- ==== Sys2Proof/Machine/Cycle.lean ====
section
/-! DEFINITION. One cycle (40_pipeline.md R101 to R104), and the front end's part in loading one instruction. -/

namespace Sys2Proof.Machine

/-- The stages after Writeback, in order, and the clock (40_pipeline.md R101). -/
def laterStages (s : State) : Result :=
  andThen (memoryStage s) fun s =>
    andThen (executeStage s) fun s =>
      andThen (decodeStage s) fun s => .next (fetchStage s).tick

/-- `Cycle()`: Writeback, Memory, Execute, Decode, Fetch, then the clock; a cycle that writes HALT back ends after
Writeback (40_pipeline.md R101, R103). A fault or refusal carries no state: the cycle is atomic (R102). -/
def cycle (s : State) : Result :=
  andThen (writebackStage s) fun s => if s.halted then .next s.tick else laterStages s

/-- One cycle of run control (70_reset_and_hazards.md R273 with `max_cycles = 1`): a faulted handle answers its fault again
and a halted one performs no cycle (60_exceptions.md R247, R258; log 4, log 5). -/
def runCycle (s : State) : Result :=
  match s.faulted with
  | some f => raise f
  | none => if s.halted then .next s else cycle s

/-- The code memory with `r` in the slot that `pc` names: an existing slot is overwritten and the slot just past the end
is appended; a `pc` that names neither leaves the code memory as it is (log 7). -/
def State.withRecordAt (s : State) (pc : Word) (r : Record) : State :=
  match slotIndex pc (s.code.length + 1) with
  | some k => { s with code := s.code.set k r ++ (if k = s.code.length then [r] else []) }
  | none => s

/-- The pipeline with nothing in flight, so no busy bit set (R157), and `r`, fetched from `pc`, handed to Decode: what Fetch
does in R145, R148 and R150 for that record (log 7). -/
def State.withFetched (s : State) (r : Record) : State :=
  handOff
    { s with
      busy := Vector.replicate Config.nregs false
      F := fetchedLatch true s.pc (some r)
      E := { s.E with valid := false }
      M := { s.M with valid := false }
      W := { s.W with valid := false }
      stallPipeline := false
      fetchFromNextCycle := false
      halted := false
      faulted := none }

/-- `r` fetched and, if Decode lets it through, issued to Execute; an instruction that Decode refuses stays in `D`, where
the next cycle raises its fault (log 7). -/
def State.withIssued (s : State) (r : Record) : State :=
  match decodeStage (s.withFetched r) with
  | .next t => t
  | .fault _ => s.withFetched r
  | .refused _ => s.withFetched r

end Sys2Proof.Machine
end

