-- ==== Sys2Proof/Machine/Step.lean ====
section
/-! DEFINITION. One step of the machine is one cycle (40_pipeline.md R101; 70_reset_and_hazards.md R273; log 4). -/

namespace Sys2Proof.Machine

/-- One step: `run(handle, 1)` (70_reset_and_hazards.md R273). -/
def step (s : State) : Host.Outcome State Fault Refusal := runCycle s

/-- `s` with the instruction of a table word brought to where the next step executes it: put into the code memory at
`pc`, fetched and issued, with nothing else in flight (log 7). -/
def State.withFetchWord (s : State) (nbits w : Nat) : State :=
  (s.withRecordAt s.pc (Record.ofPacked (BitVec.ofNat 64 (w % 2 ^ nbits)))).withIssued
    (Record.ofPacked (BitVec.ofNat 64 (w % 2 ^ nbits)))

end Sys2Proof.Machine
end

