-- ==== Sys2Proof/Machine/RunControl.lean ====
section
/-! DEFINITION. Run control: `init`, `run`, `inspect` and the run outcomes (70_reset_and_hazards.md R270 to R275;
60_exceptions.md R240, R245 to R248). -/

namespace Sys2Proof.Machine

/-- What the loader hands over when it found malformed text: the offending line (60_exceptions.md R245; log 3). -/
structure LoadError where
  line : String
  deriving DecidableEq, Repr

/-- Why `init` constructs no core. -/
inductive InitError where
  /-- The loader's own outcome, forwarded (60_exceptions.md R245; 70_reset_and_hazards.md R271). -/
  | loadError (e : LoadError)
  /-- The program breaks `CODE_BASE + 4*L <= 2^32` of R271. DESIGN CHOICE (safe): log 12. -/
  | programTooLong (length : Nat)
  deriving DecidableEq, Repr

/-- The program fits below `2^32` (70_reset_and_hazards.md R271, D31). -/
def programFits (length : Nat) : Bool := decide (Config.codeBase + Config.insnWidth * length ≤ 2 ^ 32)

/-- `init(program)`: the reset of R270 with the program in the code memory; records are not checked, and there is no data
image (70_reset_and_hazards.md R271). -/
def init (loaded : Except LoadError (List Record)) : Except InitError State :=
  match loaded with
  | .error e => .error (.loadError e)
  | .ok program =>
    if programFits program.length then .ok { State.reset with code := program }
    else .error (.programTooLong program.length)

/-- How one `run` call ends (70_reset_and_hazards.md R273; 60_exceptions.md R240). -/
inductive RunOutcome where
  /-- No fault: the cycles of this call, `instructions_completed` since reset, and `halted`; `halted = false` is
  `CycleBudgetExhausted` (60_exceptions.md R246). -/
  | ended (cyclesExecuted instructionsCompleted : Nat) (halted : Bool)
  /-- A fault and the cycles this call had committed (60_exceptions.md R247). -/
  | faulted (f : Fault) (cyclesExecuted : Nat)
  /-- The model refused a cycle; no run from `init` does (log 8). -/
  | refused (r : Refusal) (cyclesExecuted : Nat)
  deriving DecidableEq, Repr

/-- The loop of `run`: at most `fuel` more cycles after `n` (70_reset_and_hazards.md R273). -/
def runLoop : Nat → Nat → State → RunOutcome × State
  | 0, n, s => (.ended n s.completed s.halted, s)
  | fuel + 1, n, s =>
    if s.halted then (.ended n s.completed s.halted, s)
    else
      match cycle s with
      | .next t => runLoop fuel (n + 1) t
      | .fault f => (.faulted f n, { s with faulted := some f })
      | .refused r => (.refused r n, s)

/-- `run(handle, max_cycles)`: the result and the handle after it (70_reset_and_hazards.md R273, D23, D32). -/
def runCore (s : State) (maxCycles : Nat) : RunOutcome × State :=
  match s.faulted with
  | some f => (.faulted f 0, s)
  | none => runLoop maxCycles 0 s

/-- What `inspect` returns (70_reset_and_hazards.md R274): no latch contents. -/
structure Snapshot where
  regs      : Vector Word Config.nregs
  busy      : Vector Bool Config.nregs
  flags     : Flags
  dmem      : List DataCell
  pc        : Word
  clock     : Nat
  completed : Nat
  halted    : Bool
  deriving DecidableEq, Repr

/-- `inspect(handle)` (70_reset_and_hazards.md R274). -/
def inspect (s : State) : Snapshot where
  regs := s.regs
  busy := s.busy
  flags := s.flags
  dmem := s.dmem
  pc := s.pc
  clock := s.clock
  completed := s.completed
  halted := s.halted

/-- The outcome codes of 60_exceptions.md R248 for a fault: 2 to 5. -/
def Fault.code : Fault → Nat
  | .illegalOpcode _ _ => 2
  | .invalidFetchAddress _ => 3
  | .invalidRegisterIndex _ _ _ => 4
  | .invalidMemoryAddress _ _ => 5

/-- The outcome codes of 60_exceptions.md R248 for a `run`; a refusal is no outcome of the spec and has none. -/
def RunOutcome.code : RunOutcome → Option Nat
  | .ended _ _ true => some 0
  | .ended _ _ false => some 1
  | .faulted f _ => some f.code
  | .refused _ _ => none

/-- The outcome code of 60_exceptions.md R248 for an `init` that constructs no core; a program that breaks the bound of R271
has none in the spec. -/
def InitError.code : InitError → Option Nat
  | .loadError _ => some 6
  | .programTooLong _ => none

end Sys2Proof.Machine
end

