-- ==== Sys2Proof/Machine/Sequential.lean ====
section
/-! DEFINITION. The reference of 40_pipeline.md R156: the same instructions executed one at a time in program order, with
taken branches and jumps followed. It is built from the machine's own checks, `exec`, `memoryAccess` and `commit`, with
nothing else in flight, so every operand is the register file's value. -/

namespace Sys2Proof.Machine

/-- The register file's value for a source operand, 0 for an operand outside the source set (40_pipeline.md R108, R136). -/
def State.sourceValue (s : State) (op : Opcode) (l : Latch) (f : Field) : Word :=
  if f ∈ srcFields op then s.readReg (l.field f) else 0#32

/-- The `E` latch of the instruction in `l` when it issues with nothing in flight (40_pipeline.md R137, R138). -/
def State.issuedAlone (s : State) (op : Opcode) (l : Latch) : Latch :=
  { l with
    rs1Value := s.sourceValue op l .rs1
    rs2Value := s.sourceValue op l .rs2 }

/-- One instruction executed alone: fetched at `pc`, checked, executed, its access performed and its registers written.
A taken transfer has moved `pc` to its target; the fetch control it touches returns to its resting values. -/
def seqStep (s : State) : Result :=
  if s.halted then .next s
  else
    match checkDecode (fetchedLatch true s.pc (s.codeRead s.pc)) with
    | .error f => raise f
    | .ok op =>
      andThen (executeStage
        { s with
          pc := nextPc s.pc
          E := s.issuedAlone op (fetchedLatch true s.pc (s.codeRead s.pc)) }) fun s =>
        andThen (memoryStage s) fun s =>
          andThen (writebackStage s) fun s =>
            .next { s with fetchFromNextCycle := false, D := { s.D with valid := false } }

/-- `k` instructions, one at a time. -/
def seqRun : Nat → State → Result
  | 0, s => .next s
  | k + 1, s => andThen (seqStep s) (seqRun k)

end Sys2Proof.Machine
end

