-- ==== Sys2Proof/Safety.lean ====
section
/-! DEFINITION. What counts as a safe state and the terms the claims use: the pipeline invariant, an instruction alone in
the pipeline, frames, and the targets of control transfers. -/

namespace Sys2Proof.Machine

/-! ### The pipeline invariant -/

/-- The latch holds a valid HALT. -/
def Latch.holdsHalt (l : Latch) : Prop := l.valid = true ∧ l.opcode = some .halt

/-- A valid latch holds one of the 25 opcodes with every used register field in range (40_pipeline.md R142). -/
def Latch.legal (l : Latch) : Prop := l.valid = true → l.instr.isSome = true

/-- The number of issued instructions not yet written back. -/
def State.inFlight (s : State) : Nat :=
  s.E.valid.toNat + s.M.valid.toNat + s.W.valid.toNat

/-- The invariant of the pipeline between cycles. -/
structure State.Inv (s : State) : Prop where
  /-- The data memory keeps its canonical form (log 10). -/
  memoryCanonical : Memory.wf s.dmem = true
  /-- Only cells `0` to `DMEM_SIZE - 1` exist (20_memory.md R51). -/
  memoryInRange : ∀ c ∈ s.dmem, c.1 < Config.dmemSize
  /-- Exactly one of `Z`, `P`, `N` is 1 (10_state.md R29, R31). -/
  flagsOneHot : s.flags.oneHot = true
  /-- Only checked instructions are issued (40_pipeline.md R138, R142). -/
  executeLegal : s.E.legal
  memoryLegal : s.M.legal
  writebackLegal : s.W.legal
  /-- A redirect is consumed by Fetch in the cycle that makes it (40_pipeline.md R122, R145, R155). -/
  noPendingRedirect : s.fetchFromNextCycle = false
  /-- A stalled instruction waits in `D`, has passed its checks, and `E` holds the bubble (40_pipeline.md R107, R140). -/
  stalled : s.stallPipeline = true →
    s.D.valid = true ∧ (∃ op, checkDecode s.D = .ok op) ∧ s.E.valid = false
  /-- Behind a HALT fetch is off and nothing younger is in flight (40_pipeline.md R150; 43_control.md R222). -/
  haltInDecode : s.D.holdsHalt → s.F.valid = false
  haltInExecute : s.E.holdsHalt → s.F.valid = false ∧ s.D.valid = false
  haltInMemory : s.M.holdsHalt → s.F.valid = false ∧ s.D.valid = false ∧ s.E.valid = false
  haltInWriteback : s.W.holdsHalt →
    s.F.valid = false ∧ s.D.valid = false ∧ s.E.valid = false ∧ s.M.valid = false
  /-- A halted machine is empty (40_pipeline.md R103). -/
  haltedEmpty : s.halted = true →
    s.F.valid = false ∧ s.D.valid = false ∧ s.E.valid = false ∧ s.M.valid = false ∧ s.W.valid = false
  /-- A busy register has a live producer (40_pipeline.md R157). -/
  busyHasProducer : ∀ r, s.readBusy r = true →
    s.E.writes r = true ∨ s.M.writes r = true ∨ s.W.writes r = true
  /-- At most one instruction issues a cycle (40_pipeline.md R112, R138; 60_exceptions.md R254). -/
  issuedAtMostOncePerCycle : s.completed + s.inFlight ≤ s.clock

/-- The front end's state machine (40_pipeline.md R155). -/
inductive FrontState where
  | normal | stalled | redirectPending
  deriving DecidableEq, Repr

/-- The state of `stall_pipeline` and `fetch_from_next_cycle`; `none` when both are set (40_pipeline.md R155). -/
def State.frontState (s : State) : Option FrontState :=
  match s.stallPipeline, s.fetchFromNextCycle with
  | false, false => some .normal
  | true, false => some .stalled
  | false, true => some .redirectPending
  | true, true => none

/-! ### One instruction alone in the pipeline -/

/-- `i` has been issued, nothing else is in flight (so only its own destinations are busy, 40_pipeline.md R157) and fetch is
off: the next three cycles execute it, perform its access and write it back (70_reset_and_hazards.md R279). -/
structure InExecuteAlone (i : Instr) (s : State) : Prop where
  valid : s.E.valid = true
  holds : s.E.instr = some i
  decodeEmpty : s.D.valid = false
  memoryEmpty : s.M.valid = false
  writebackEmpty : s.W.valid = false
  fetchOff : s.F.valid = false
  noRedirect : s.fetchFromNextCycle = false
  running : s.halted = false
  notFaulted : s.faulted = none
  onlyOwnBusy : ∀ r, s.readBusy r = true → s.E.writes r = true

/-- Nothing is in flight, fetch is on and nothing is pending: the state after reset, and after the last instruction of
a drained pipeline. -/
structure Quiescent (s : State) : Prop where
  decodeEmpty : s.D.valid = false
  executeEmpty : s.E.valid = false
  memoryEmpty : s.M.valid = false
  writebackEmpty : s.W.valid = false
  fetchOn : s.F.valid = true
  notStalled : s.stallPipeline = false
  noRedirect : s.fetchFromNextCycle = false
  running : s.halted = false
  notFaulted : s.faulted = none
  notBusy : ∀ r, s.readBusy r = false

/-- The back end lets the cycle reach Decode: `u` is the state Decode sees (40_pipeline.md R101). -/
structure ReachesDecode (s u : State) : Prop where
  notFaulted : s.faulted = none
  running : s.halted = false
  reached : ∃ s1 s2, writebackStage s = .next s1 ∧ s1.halted = false ∧ memoryStage s1 = .next s2 ∧
    executeStage s2 = .next u

/-! ### Frames -/

/-- Every register outside `rs` reads as before. -/
def RegsUnchangedExcept (rs : List RegIndex) (s t : State) : Prop :=
  ∀ r, r ∉ rs → t.readReg r = s.readReg r

/-- Every busy bit outside `rs` reads as before. -/
def BusyUnchangedExcept (rs : List RegIndex) (s t : State) : Prop :=
  ∀ r, r ∉ rs → t.readBusy r = s.readBusy r

/-- Every data cell reads as before. -/
def DataUnchanged (s t : State) : Prop := ∀ a, t.memRead a = s.memRead a

/-- Every data cell but the one named reads as before, and that one reads `v`. -/
def DataStored (a v : Word) (s t : State) : Prop :=
  t.memRead a = v ∧ ∀ b, b ≠ a → t.memRead b = s.memRead b

/-- The flags describe `v` as 40_pipeline.md R121 says. -/
def FlagsDescribe (v : Word) (f : Flags) : Prop :=
  (f.z = true ↔ v = 0#32) ∧ (f.p = true ↔ 0 < v.toInt) ∧ (f.n = true ↔ v.toInt < 0)

/-- What one retired instruction does to the counters and to everything no instruction touches: three cycles pass, one
instruction completes, the program and the run control are as they were. -/
structure RetiredInThree (s t : State) : Prop where
  clock : t.clock = s.clock + 3
  completed : t.completed = s.completed + 1
  code : t.code = s.code
  notFaulted : t.faulted = none

/-- `rd` holds `v` and is no longer busy. -/
structure RegisterWritten (rd : RegIndex) (v : Word) (t : State) : Prop where
  value : t.readReg rd = v
  notBusy : t.readBusy rd = false

/-- The frame of a retired instruction that writes the registers `rs`: every other register and busy bit, `pc` and the
run are as they were, and the counters moved as for one instruction. -/
structure RetiredWriting (rs : List RegIndex) (s t : State) : Prop where
  regs : RegsUnchangedExcept rs s t
  busy : BusyUnchangedExcept rs s t
  pc : t.pc = s.pc
  running : t.halted = false
  retired : RetiredInThree s t

/-- The opcode table's entries for an instruction: its number and format (30_encoding.md R71, R74), its source set and its
destination set (40_pipeline.md R136, R139), and its Decode checks: exactly the register fields of the format, and nothing
else can fail (40_pipeline.md R142; 41_alu.md R160). -/
structure ListedAs (i : Instr) (number : OpNumber) (format : Format) (src dst : List Field) : Prop where
  hasNumber : i.opcode.number = number
  hasFormat : i.opcode.format = format
  sources : srcFields i.opcode = src
  destinations : dstFields i.opcode = dst
  passes : ∀ l : Latch, l.op = .number number → (∀ g ∈ format.fields, (l.field g).toNat < Config.nregs) →
    checkDecode l = .ok i.opcode
  fails : ∀ l : Latch, l.op = .number number → (∃ g ∈ format.fields, Config.nregs ≤ (l.field g).toNat) →
    ∃ g ∈ format.fields, checkDecode l = .error (.invalidRegisterIndex l.pc g (l.field g))

/-- What the instruction forwards for a register, from `M` and from `W` (40_pipeline.md R131, R132); `none`: the tests go on
to the next latch. -/
structure Forwards (i : Instr) (fromM fromW : Latch → RegIndex → Option Forwarded) : Prop where
  inM : ∀ (l : Latch) (r : RegIndex), l.valid = true → l.instr = some i → forwardFromM l r = fromM l r
  inW : ∀ (l : Latch) (r : RegIndex), l.valid = true → l.instr = some i → forwardFromW l r = fromW l r

/-- No register is forwarded. -/
def nothing : Latch → RegIndex → Option Forwarded := fun _ _ => none

/-- `result_buffer` is forwarded for `rd`. -/
def resultFor (rd : RegIndex) : Latch → RegIndex → Option Forwarded :=
  fun l r => if r = rd then some (.hit l.resultBuffer) else none

/-- Writeback counts the instruction and writes no register (40_pipeline.md R110, R112). -/
def CountedOnly (i : Instr) : Prop :=
  ∀ s : State, s.W.valid = true → s.W.instr = some i →
    writebackStage s = .next { s with completed := s.completed + 1, W := { s.W with valid := false } }

/-- The Memory stage does nothing but pass the latch on (40_pipeline.md R115; 41_alu.md R160). -/
def NoDataAccess (i : Instr) : Prop := ∀ s, memoryAccess i s = .next s

/-- The state after an Execute that writes `result_buffer` and the flags from `v`, and nothing else. -/
def afterFlagResult (v : Word) (s : State) : State :=
  { s with
    E := { s.E with resultBuffer := v }
    flags := ⟨decide (v = 0#32), decide (0 < v.toInt), decide (v.toInt < 0)⟩ }

/-- The state after an Execute that writes only the flags, from `v`. -/
def afterFlags (v : Word) (s : State) : State :=
  { s with flags := ⟨decide (v = 0#32), decide (0 < v.toInt), decide (v.toInt < 0)⟩ }

/-- The state after a redirect to `target` (40_pipeline.md R122). -/
def afterRedirect (target : Word) (s : State) : State :=
  { s with
    pc := target
    fetchFromNextCycle := true
    D := { s.D with valid := false }
    F := { s.F with valid := true } }

/-- A flag-writing instruction with destination `rd` and value `v`: what Execute answers in every state, and what is left
when it is written back. -/
structure WritesResultAndFlags (i : Instr) (rd : RegIndex) (v : State → Word) : Prop where
  noAccess : NoDataAccess i
  forwards : Forwards i (resultFor rd) (resultFor rd)
  executes : ∀ s, exec i s = .next (afterFlagResult (v s) s)
  retires : ∀ s, InExecuteAlone i s → ∃ t : State, Host.Core.run core 3 s = .next t ∧
    RegisterWritten rd (v s) t ∧ RetiredWriting [rd] s t ∧ FlagsDescribe (v s) t.flags ∧ DataUnchanged s t

/-- A compare with value `v`: flags only. -/
structure WritesFlagsOnly (i : Instr) (v : State → Word) : Prop where
  noAccess : NoDataAccess i
  forwards : Forwards i nothing nothing
  executes : ∀ s, exec i s = .next (afterFlags (v s) s)
  retires : ∀ s, InExecuteAlone i s → ∃ t : State, Host.Core.run core 3 s = .next t ∧
    RetiredWriting [] s t ∧ FlagsDescribe (v s) t.flags ∧ DataUnchanged s t

/-- The state two cycles after a taken transfer left Execute alone: the instruction at the target waits in `D`, the
transfer in `W`, and nothing else is in flight (40_pipeline.md R154). -/
structure TargetFetched (i : Instr) (target : Word) (s t : State) : Prop where
  targetInDecode : t.D.valid = true ∧ t.D.pc = target
  targetRecord : ∀ r, s.codeRead target = some r → t.D.op = .number r.opcode ∧ t.D.imm = r.imm ∧
    t.D.rd = r.rd ∧ t.D.rs1 = r.rs1 ∧ t.D.rs2 = r.rs2
  nextPc : t.pc = target + 4#32
  transferInWriteback : t.W.valid = true ∧ t.W.instr = some i
  noneBetween : t.E.valid = false ∧ t.M.valid = false
  flags : t.flags = s.flags
  data : DataUnchanged s t
  regs : RegsUnchangedExcept [] s t
  busy : BusyUnchangedExcept [] s t
  clock : t.clock = s.clock + 2
  code : t.code = s.code

/-- A branch whose condition `taken` is read from the flags: Execute redirects to `E.pc + imm` or does nothing; a taken
one brings the target to Decode two cycles later, an untaken one retires with no effect at all. -/
structure Branches (i : Instr) (imm : Word) (taken : Flags → Bool) : Prop where
  noAccess : NoDataAccess i
  forwards : Forwards i nothing nothing
  counted : CountedOnly i
  executesTaken : ∀ s, taken s.flags = true → exec i s = .next (afterRedirect (s.E.pc + imm) s)
  executesUntaken : ∀ s, taken s.flags = false → exec i s = .next s
  takenReachesTarget : ∀ s, InExecuteAlone i s → taken s.flags = true → ∃ t : State, Host.Core.run core 2 s = .next t ∧
    TargetFetched i (s.E.pc + imm) s t
  untakenRetires : ∀ s, InExecuteAlone i s → taken s.flags = false → ∃ t : State, Host.Core.run core 3 s = .next t ∧
    RetiredWriting [] s t ∧ t.flags = s.flags ∧ DataUnchanged s t

/-! ### Control transfers -/

/-- Where the instruction `i` in the latch `l` transfers control, if it does, given the flags of its Execute cycle
(43_control.md R211 to R218). -/
def transferTarget (i : Instr) (l : Latch) (f : Flags) : Option Word :=
  match i with
  | .jump _ imm | .jalr _ _ imm => some (l.rs1Value + imm)
  | .bz imm => if f.z then some (l.pc + imm) else none
  | .bnz imm => if f.z then none else some (l.pc + imm)
  | .bp imm => if f.p then some (l.pc + imm) else none
  | .bnp imm => if f.p then none else some (l.pc + imm)
  | .bn imm => if f.n then some (l.pc + imm) else none
  | .bnn imm => if f.n then none else some (l.pc + imm)
  | .add _ _ _ | .sub _ _ _ | .mul _ _ _ | .addl _ _ _ | .subl _ _ _ | .and _ _ _ | .or _ _ _ | .xor _ _ _
  | .cmp _ _ | .cml _ _ | .movc _ _ | .nop | .load _ _ _ | .store _ _ _ | .loadp _ _ _ | .storep _ _ _ | .halt => none

/-! ### Writeback of what is in flight, in program order -/

/-- The state after the instructions in `W` and then `M` have committed their registers, each from its latch as Decode sees
it: what the register file becomes once both are written back (40_pipeline.md R110, R156). -/
def State.commitInFlight (s : State) : State :=
  let afterW := match s.W.valid, s.W.instr with
    | true, some i => commit i s
    | _, _ => s
  match s.M.valid, s.M.instr with
  | true, some i => commit i { afterW with W := s.M }
  | _, _ => afterW

end Sys2Proof.Machine
end

