-- ==== Sys2Proof/Certificates/Slice0/Obligations.lean ====
section
/-! DEFINITION. The statements for the provers. `R<n>` is a numbered rule of spec/. -/

open Sys2Proof Sys2Proof.Machine

/-! ### Encoding -/

/-- Decode and encode agree on every instruction with every operand at every value its field admits, through the packed
word and through the opcode table's numbering (30_encoding.md R73, R74). -/
def Obligations.DecodeReturnsTheEncodedInstruction : Prop :=
  ∀ i : Instr, decode (encode i) = .ok i ∧ decodeTableWord 64 (encode i).toNat = some i

/-- The packed word has the layout of R73, in both directions, and the encoder writes 0 into every unused field. -/
def Obligations.PackedWordHasTheTableLayout : Prop :=
  (∀ w : Packed,
    (Record.ofPacked w).opcode.toNat = w.toNat / 2 ^ 56 ∧
    (Record.ofPacked w).rd.toNat = w.toNat / 2 ^ 48 % 2 ^ 8 ∧
    (Record.ofPacked w).rs1.toNat = w.toNat / 2 ^ 40 % 2 ^ 8 ∧
    (Record.ofPacked w).rs2.toNat = w.toNat / 2 ^ 32 % 2 ^ 8 ∧
    (Record.ofPacked w).imm.toNat = w.toNat % 2 ^ 32) ∧
  (∀ r : Record,
    r.toPacked.toNat = r.opcode.toNat * 2 ^ 56 + r.rd.toNat * 2 ^ 48 + r.rs1.toNat * 2 ^ 40 + r.rs2.toNat * 2 ^ 32 +
      r.imm.toNat) ∧
  (∀ i : Instr, encode i &&& ~~~i.opcode.format.usedBits = 0#64)

/-- A packed word decodes exactly when its top byte is 0x01 to 0x19, to an instruction with that opcode number; any other
word is refused with its number (30_encoding.md R74, R75). -/
def Obligations.DecodeAcceptsExactlyTheListedOpcodes : Prop :=
  ∀ w : Packed,
    (1 ≤ w.toNat / 2 ^ 56 ∧ w.toNat / 2 ^ 56 ≤ 0x19 →
      ∃ i, decode w = .ok i ∧ i.opcode.number.toNat = w.toNat / 2 ^ 56) ∧
    (¬(1 ≤ w.toNat / 2 ^ 56 ∧ w.toNat / 2 ^ 56 ≤ 0x19) →
      decode w = .error (.illegalOpcode (BitVec.ofNat 8 (w.toNat / 2 ^ 56))))

/-- Encoding a decoded word gives the word with its unused fields cleared: no used bit is dropped and no unused bit is read
(30_encoding.md R71, R73). -/
def Obligations.EncodeClearsExactlyTheUnusedFields : Prop :=
  ∀ (w : Packed) (i : Instr), decode w = .ok i → encode i = w &&& i.opcode.format.usedBits

/-- Words the spec writes out decode to the instructions it names (95_test_vectors.md V30.1 to V30.8, P4 to P6). -/
def Obligations.ListedWordsDecodeAsWritten : Prop :=
  decode 0x0102000100000000#64 = .ok (.add 2#8 0#8 1#8) ∧
  decode 0x0501010000000001#64 = .ok (.subl 1#8 1#8 1#32) ∧
  decode 0x0B01C86300000001#64 = .ok (.movc 1#8 1#32) ∧
  decode 0x0E00020300000000#64 = .ok (.store 2#8 3#8 0#32) ∧
  decode 0x0F04010000000000#64 = .ok (.loadp 4#8 1#8 0#32) ∧
  decode 0x1000030100000000#64 = .ok (.storep 3#8 1#8 0#32) ∧
  decode 0x1207010000000000#64 = .ok (.jalr 7#8 1#8 0#32) ∧
  decode 0x14000000FFFFFFF8#64 = .ok (.bnz 0xFFFFFFF8#32) ∧
  decode 0x19FFFFFFFFFFFFFF#64 = .ok .halt ∧
  decode 0x0000000000000000#64 = .error (.illegalOpcode 0x00#8) ∧
  decode 0x1A00000000000000#64 = .error (.illegalOpcode 0x1A#8)

/-! ### Reset and the front end -/

/-- `init` establishes the reset state of R270 with the program in the code memory, whatever the records hold, and
constructs no core when the loader reported an error (70_reset_and_hazards.md R270, R271; 10_state.md R22, R25, R28, R31, R36). -/
def Obligations.InitEstablishesTheResetState : Prop :=
  (∀ program : List Record, 4000 + 4 * program.length ≤ 2 ^ 32 →
    ∃ s, init (.ok program) = .ok s ∧
      (∀ r : RegIndex, s.readReg r = 0#32) ∧ (∀ r : RegIndex, s.readBusy r = false) ∧
      s.pc = 4000#32 ∧ s.flags = ⟨true, false, false⟩ ∧
      s.stallPipeline = false ∧ s.fetchFromNextCycle = false ∧ s.halted = false ∧
      s.clock = 0 ∧ s.completed = 0 ∧
      (∀ a : Word, s.memRead a = 0#32) ∧ s.code = program ∧
      s.F = ⟨true, 0#32, .number 0#8, 0#8, 0#8, 0#8, 0#32, 0#32, 0#32, 0#32, 0#32⟩ ∧
      (∀ l ∈ [s.D, s.E, s.M, s.W],
        l = ⟨false, 0#32, .number 0#8, 0#8, 0#8, 0#8, 0#32, 0#32, 0#32, 0#32, 0#32⟩) ∧
      s.faulted = none ∧ s = { State.reset with code := program }) ∧
  (∀ e : LoadError, init (.error e) = .error (.loadError e))

/-- A step runs the instruction in the Execute latch: Writeback and Memory first, then `exec` of that instruction, then
the latch moves on, Decode and Fetch run, and the clock advances (40_pipeline.md R101, R120). A stage that faults ends the
cycle with its fault (R102). -/
def Obligations.StepRunsTheInstructionInExecute : Prop :=
  ∀ (s s1 : State), s.faulted = none → s.halted = false → writebackStage s = .next s1 → s1.halted = false →
    (∀ f, memoryStage s1 = .fault f → step s = .fault f) ∧
    (∀ s2 i, memoryStage s1 = .next s2 → s.E.valid = true → s.E.instr = some i →
      s2.E = s.E ∧
      (∀ s3, exec i s2 = .next s3 →
        (∀ f, decodeStage (passToM s3) = .fault f → step s = .fault f) ∧
        (∀ s4, decodeStage (passToM s3) = .next s4 → step s = .next (fetchStage s4).tick)))

/-- From a quiescent state the record at `pc` reaches Execute in two cycles as the instruction it encodes, with the
register file's values as operands, its destinations busy and its own address in the latch (40_pipeline.md R137, R138, R145,
R148; 70_reset_and_hazards.md R279). -/
def Obligations.FetchedInstructionReachesExecute : Prop :=
  ∀ (s : State) (i : Instr) (r : Record), Quiescent s → s.codeRead s.pc = some r → r.instr = .ok i →
    i.wellFormed = true →
    ∃ t u, step s = .next t ∧ step t = .next u ∧
      t.D.valid = true ∧ t.D.pc = s.pc ∧ t.pc = s.pc + 4#32 ∧
      u.E.valid = true ∧ u.E.instr = some i ∧ u.E.pc = s.pc ∧
      (.rs1 ∈ srcFields i.opcode → u.E.rs1Value = s.readReg r.rs1) ∧
      (.rs2 ∈ srcFields i.opcode → u.E.rs2Value = s.readReg r.rs2) ∧
      (∀ x : RegIndex, u.readBusy x = true ↔ ∃ f ∈ dstFields i.opcode, u.E.field f = x) ∧
      u.M.valid = false ∧ u.W.valid = false ∧
      u.regs = s.regs ∧ u.flags = s.flags ∧ u.dmem = s.dmem ∧ u.clock = s.clock + 2 ∧ u.completed = s.completed

/-- Fetch, in full: a redirect bubble, a disabled fetch, or the slot at `pc` read into `F` (BADFETCH where `pc` names none) and,
unless Decode stalls, handed to `D` with `pc` advanced and fetch disabled behind a HALT (40_pipeline.md R145, R146, R147,
R149). -/
def Obligations.FetchDeliversTheSlotAtPc : Prop :=
  ∀ s : State,
    (s.fetchFromNextCycle = true → fetchStage s = { s with fetchFromNextCycle := false }) ∧
    (s.fetchFromNextCycle = false → s.F.valid = false → fetchStage s = s) ∧
    (s.fetchFromNextCycle = false → s.F.valid = true → ∀ l : Latch, l.valid = true → l.pc = s.pc →
      l.rs1Value = 0#32 → l.rs2Value = 0#32 → l.resultBuffer = 0#32 → l.memoryAddress = 0#32 →
      ((∃ (k : Nat) (r : Record), s.code[k]? = some r ∧ s.pc.toNat = 4000 + 4 * k ∧
          l.op = .number r.opcode ∧ l.rd = r.rd ∧ l.rs1 = r.rs1 ∧ l.rs2 = r.rs2 ∧ l.imm = r.imm) ∨
        (¬(∃ k, k < s.code.length ∧ s.pc.toNat = 4000 + 4 * k) ∧
          l.op = .badFetch ∧ l.rd = 0#8 ∧ l.rs1 = 0#8 ∧ l.rs2 = 0#8 ∧ l.imm = 0#32)) →
      (s.stallPipeline = true → fetchStage s = { s with F := l }) ∧
      (s.stallPipeline = false → fetchStage s = { s with
        F := { l with valid := decide (l.op ≠ .number 0x19#8) }, D := l, pc := s.pc + 4#32 }))

/-- The model's own loading convention (log 7, a DESIGN CHOICE): after `withFetchWord` the decoded instruction stands in
Execute with the register file's values, alone, so that the very next step runs it. -/
def Obligations.LoadedWordIsTheNextInstructionRun : Prop :=
  ∀ (s : State) (nbits w : Nat) (i : Instr), decodeTableWord nbits w = some i → i.wellFormed = true →
    (s.withFetchWord nbits w).E.valid = true ∧ (s.withFetchWord nbits w).E.instr = some i ∧
    (s.withFetchWord nbits w).E.pc = s.pc ∧
    (.rs1 ∈ srcFields i.opcode →
      (s.withFetchWord nbits w).E.rs1Value = s.readReg (s.withFetchWord nbits w).E.rs1) ∧
    (.rs2 ∈ srcFields i.opcode →
      (s.withFetchWord nbits w).E.rs2Value = s.readReg (s.withFetchWord nbits w).E.rs2) ∧
    (s.withFetchWord nbits w).D.valid = false ∧ (s.withFetchWord nbits w).M.valid = false ∧
    (s.withFetchWord nbits w).W.valid = false ∧ (s.withFetchWord nbits w).faulted = none ∧
    (s.withFetchWord nbits w).halted = false ∧
    (s.withFetchWord nbits w).regs = s.regs ∧ (s.withFetchWord nbits w).flags = s.flags ∧
    (s.withFetchWord nbits w).dmem = s.dmem

/-! ### What each instruction does, from Execute to Writeback -/

/-- ADD, SUB, MUL, AND, OR, XOR (41_alu.md R161, R162, R163, R166, R167, R168): table entries, Execute in every state, no data
access, and the state three cycles after issue with its frame. -/
def Obligations.RegisterArithmeticAndLogic : Prop :=
  ∀ rd rs1 rs2 : RegIndex,
    (ListedAs (.add rd rs1 rs2) 0x01#8 .rrr [.rs1, .rs2] [.rd] ∧
      WritesResultAndFlags (.add rd rs1 rs2) rd fun s => s.E.rs1Value + s.E.rs2Value) ∧
    (ListedAs (.sub rd rs1 rs2) 0x02#8 .rrr [.rs1, .rs2] [.rd] ∧
      WritesResultAndFlags (.sub rd rs1 rs2) rd fun s => s.E.rs1Value - s.E.rs2Value) ∧
    (ListedAs (.mul rd rs1 rs2) 0x03#8 .rrr [.rs1, .rs2] [.rd] ∧
      WritesResultAndFlags (.mul rd rs1 rs2) rd fun s => BitVec.ofNat 32 (s.E.rs1Value.toNat * s.E.rs2Value.toNat)) ∧
    (ListedAs (.and rd rs1 rs2) 0x06#8 .rrr [.rs1, .rs2] [.rd] ∧
      WritesResultAndFlags (.and rd rs1 rs2) rd fun s => s.E.rs1Value &&& s.E.rs2Value) ∧
    (ListedAs (.or rd rs1 rs2) 0x07#8 .rrr [.rs1, .rs2] [.rd] ∧
      WritesResultAndFlags (.or rd rs1 rs2) rd fun s => s.E.rs1Value ||| s.E.rs2Value) ∧
    (ListedAs (.xor rd rs1 rs2) 0x08#8 .rrr [.rs1, .rs2] [.rd] ∧
      WritesResultAndFlags (.xor rd rs1 rs2) rd fun s => s.E.rs1Value ^^^ s.E.rs2Value)

/-- ADDL and SUBL (41_alu.md R164, R165). -/
def Obligations.ImmediateArithmetic : Prop :=
  ∀ (rd rs1 : RegIndex) (imm : Word),
    (ListedAs (.addl rd rs1 imm) 0x04#8 .rri [.rs1] [.rd] ∧
      WritesResultAndFlags (.addl rd rs1 imm) rd fun s => s.E.rs1Value + imm) ∧
    (ListedAs (.subl rd rs1 imm) 0x05#8 .rri [.rs1] [.rd] ∧
      WritesResultAndFlags (.subl rd rs1 imm) rd fun s => s.E.rs1Value - imm)

/-- CMP and CML: flags from the wrapped difference, no register written, `result_buffer` not written
(41_alu.md R169, R170). -/
def Obligations.ComparesWriteFlagsOnly : Prop :=
  (∀ rs1 rs2 : RegIndex, ListedAs (.cmp rs1 rs2) 0x09#8 .rr [.rs1, .rs2] [] ∧
    WritesFlagsOnly (.cmp rs1 rs2) fun s => s.E.rs1Value - s.E.rs2Value) ∧
  (∀ (rs1 : RegIndex) (imm : Word), ListedAs (.cml rs1 imm) 0x0A#8 .ri [.rs1] [] ∧
    WritesFlagsOnly (.cml rs1 imm) fun s => s.E.rs1Value - imm)

/-- MOVC writes the immediate and no flag (41_alu.md R171); NOP changes only the counters (R172). -/
def Obligations.MoveConstantAndNop : Prop :=
  (∀ (rd : RegIndex) (imm : Word),
    ListedAs (.movc rd imm) 0x0B#8 .di [] [.rd] ∧ NoDataAccess (.movc rd imm) ∧
    Forwards (.movc rd imm) (resultFor rd) (resultFor rd) ∧
    (∀ s, exec (.movc rd imm) s = .next { s with E := { s.E with resultBuffer := imm } }) ∧
    (∀ s, InExecuteAlone (.movc rd imm) s → ∃ t : State, Host.Core.run core 3 s = .next t ∧
      RegisterWritten rd imm t ∧ RetiredWriting [rd] s t ∧ t.flags = s.flags ∧ DataUnchanged s t)) ∧
  (ListedAs .nop 0x0C#8 .n [] [] ∧ NoDataAccess .nop ∧ Forwards .nop nothing nothing ∧ CountedOnly .nop ∧
    (∀ s, exec .nop s = .next s) ∧
    (∀ s, InExecuteAlone .nop s → ∃ t : State, Host.Core.run core 3 s = .next t ∧
      RetiredWriting [] s t ∧ t.flags = s.flags ∧ DataUnchanged s t))

/-- LOAD: address `rs1 + imm`; in range it loads the cell into `rd` and changes nothing else, out of range the second
cycle faults (42_loadstore.md R190, R191; 40_pipeline.md R117). -/
def Obligations.LoadReadsTheAddressedCell : Prop :=
  ∀ (rd rs1 : RegIndex) (imm : Word),
    ListedAs (.load rd rs1 imm) 0x0D#8 .rri [.rs1] [.rd] ∧
    Forwards (.load rd rs1 imm) (fun _ r => if r = rd then some .block else none) (resultFor rd) ∧
    (∀ s, exec (.load rd rs1 imm) s = .next { s with E := { s.E with memoryAddress := s.E.rs1Value + imm } }) ∧
    (∀ s, InExecuteAlone (.load rd rs1 imm) s →
      (0 ≤ (s.E.rs1Value + imm).toInt ∧ (s.E.rs1Value + imm).toInt < Config.dmemSize →
        ∃ t : State, Host.Core.run core 3 s = .next t ∧ RegisterWritten rd (s.memRead (s.E.rs1Value + imm)) t ∧
          RetiredWriting [rd] s t ∧ t.flags = s.flags ∧ DataUnchanged s t) ∧
      (¬(0 ≤ (s.E.rs1Value + imm).toInt ∧ (s.E.rs1Value + imm).toInt < Config.dmemSize) →
        Host.Core.run core 2 s = .fault (.invalidMemoryAddress s.E.pc (s.E.rs1Value + imm))))

/-- STORE: the value of `rs1` goes to the cell at `rs2 + imm` and nowhere else; no register and no flag changes; out of
range the second cycle faults (42_loadstore.md R190, R192). -/
def Obligations.StoreWritesTheAddressedCell : Prop :=
  ∀ (rs1 rs2 : RegIndex) (imm : Word),
    ListedAs (.store rs1 rs2 imm) 0x0E#8 .ssi [.rs1, .rs2] [] ∧ Forwards (.store rs1 rs2 imm) nothing nothing ∧
    (∀ s, exec (.store rs1 rs2 imm) s = .next { s with E := { s.E with memoryAddress := s.E.rs2Value + imm } }) ∧
    (∀ s, InExecuteAlone (.store rs1 rs2 imm) s → Memory.wf s.dmem = true →
      (0 ≤ (s.E.rs2Value + imm).toInt ∧ (s.E.rs2Value + imm).toInt < Config.dmemSize →
        ∃ t : State, Host.Core.run core 3 s = .next t ∧ DataStored (s.E.rs2Value + imm) s.E.rs1Value s t ∧
          RetiredWriting [] s t ∧ t.flags = s.flags) ∧
      (¬(0 ≤ (s.E.rs2Value + imm).toInt ∧ (s.E.rs2Value + imm).toInt < Config.dmemSize) →
        Host.Core.run core 2 s = .fault (.invalidMemoryAddress s.E.pc (s.E.rs2Value + imm))))

/-- LOADP: as LOAD with the base before the increment, and the base register ends 4 higher; when `rd = rs1` the loaded
value wins (42_loadstore.md R190, R193; 40_pipeline.md R111). -/
def Obligations.LoadPostIncrementWritesBothRegisters : Prop :=
  ∀ (rd rs1 : RegIndex) (imm : Word),
    ListedAs (.loadp rd rs1 imm) 0x0F#8 .rri [.rs1] [.rd, .rs1] ∧
    Forwards (.loadp rd rs1 imm)
      (fun l r => if r = rd then some .block else if r = rs1 then some (.hit l.rs1Value) else none)
      (fun l r => if r = rd then some (.hit l.resultBuffer) else if r = rs1 then some (.hit l.rs1Value) else none) ∧
    (∀ s, exec (.loadp rd rs1 imm) s =
      .next { s with E := { s.E with memoryAddress := s.E.rs1Value + imm, rs1Value := s.E.rs1Value + 4#32 } }) ∧
    (∀ s, InExecuteAlone (.loadp rd rs1 imm) s →
      (0 ≤ (s.E.rs1Value + imm).toInt ∧ (s.E.rs1Value + imm).toInt < Config.dmemSize →
        ∃ t : State, Host.Core.run core 3 s = .next t ∧ RegisterWritten rd (s.memRead (s.E.rs1Value + imm)) t ∧
          (rs1 ≠ rd → RegisterWritten rs1 (s.E.rs1Value + 4#32) t) ∧
          RetiredWriting [rd, rs1] s t ∧ t.flags = s.flags ∧ DataUnchanged s t) ∧
      (¬(0 ≤ (s.E.rs1Value + imm).toInt ∧ (s.E.rs1Value + imm).toInt < Config.dmemSize) →
        Host.Core.run core 2 s = .fault (.invalidMemoryAddress s.E.pc (s.E.rs1Value + imm))))

/-- STOREP: as STORE with the base before the increment, and the base register ends 4 higher, also when `rs1 = rs2`
(42_loadstore.md R190, R194; 40_pipeline.md R116). -/
def Obligations.StorePostIncrementWritesCellAndBase : Prop :=
  ∀ (rs1 rs2 : RegIndex) (imm : Word),
    ListedAs (.storep rs1 rs2 imm) 0x10#8 .ssi [.rs1, .rs2] [.rs2] ∧
    Forwards (.storep rs1 rs2 imm) (fun l r => if r = rs2 then some (.hit l.rs2Value) else none)
      (fun l r => if r = rs2 then some (.hit l.rs2Value) else none) ∧
    (∀ s, exec (.storep rs1 rs2 imm) s =
      .next { s with E := { s.E with memoryAddress := s.E.rs2Value + imm, rs2Value := s.E.rs2Value + 4#32 } }) ∧
    (∀ s, InExecuteAlone (.storep rs1 rs2 imm) s → Memory.wf s.dmem = true →
      (0 ≤ (s.E.rs2Value + imm).toInt ∧ (s.E.rs2Value + imm).toInt < Config.dmemSize →
        ∃ t : State, Host.Core.run core 3 s = .next t ∧ DataStored (s.E.rs2Value + imm) s.E.rs1Value s t ∧
          RegisterWritten rs2 (s.E.rs2Value + 4#32) t ∧ RetiredWriting [rs2] s t ∧ t.flags = s.flags) ∧
      (¬(0 ≤ (s.E.rs2Value + imm).toInt ∧ (s.E.rs2Value + imm).toInt < Config.dmemSize) →
        Host.Core.run core 2 s = .fault (.invalidMemoryAddress s.E.pc (s.E.rs2Value + imm))))

/-- BZ, BNZ, BP, BNP, BN, BNN test `Z`, `P`, `N` with the polarity of the mnemonic (43_control.md R213 to R218). -/
def Obligations.BranchesTestTheirFlag : Prop :=
  ∀ imm : Word,
    (ListedAs (.bz imm) 0x13#8 .i [] [] ∧ Branches (.bz imm) imm fun f => f.z) ∧
    (ListedAs (.bnz imm) 0x14#8 .i [] [] ∧ Branches (.bnz imm) imm fun f => !f.z) ∧
    (ListedAs (.bp imm) 0x15#8 .i [] [] ∧ Branches (.bp imm) imm fun f => f.p) ∧
    (ListedAs (.bnp imm) 0x16#8 .i [] [] ∧ Branches (.bnp imm) imm fun f => !f.p) ∧
    (ListedAs (.bn imm) 0x17#8 .i [] [] ∧ Branches (.bn imm) imm fun f => f.n) ∧
    (ListedAs (.bnn imm) 0x18#8 .i [] [] ∧ Branches (.bnn imm) imm fun f => !f.n)

/-- JUMP goes to `rs1 + imm` and writes nothing (43_control.md R211). -/
def Obligations.JumpGoesToBasePlusImmediate : Prop :=
  ∀ (rs1 : RegIndex) (imm : Word),
    ListedAs (.jump rs1 imm) 0x11#8 .ri [.rs1] [] ∧ NoDataAccess (.jump rs1 imm) ∧
    Forwards (.jump rs1 imm) nothing nothing ∧ CountedOnly (.jump rs1 imm) ∧
    (∀ s, exec (.jump rs1 imm) s = .next (afterRedirect (s.E.rs1Value + imm) s)) ∧
    (∀ s, InExecuteAlone (.jump rs1 imm) s → ∃ t : State, Host.Core.run core 2 s = .next t ∧
      TargetFetched (.jump rs1 imm) (s.E.rs1Value + imm) s t)

/-- JALR goes to `rs1 + imm` and links the address after itself, `E.pc + 4`: the target waits in Decode two cycles later,
and where it holds a legal instruction the third cycle writes the link into `rd` and counts the JALR (43_control.md R212). -/
def Obligations.JumpAndLinkWritesTheReturnAddress : Prop :=
  ∀ (rd rs1 : RegIndex) (imm : Word),
    ListedAs (.jalr rd rs1 imm) 0x12#8 .rri [.rs1] [.rd] ∧ NoDataAccess (.jalr rd rs1 imm) ∧
    Forwards (.jalr rd rs1 imm) (resultFor rd) (resultFor rd) ∧
    (∀ s, exec (.jalr rd rs1 imm) s =
      .next (afterRedirect (s.E.rs1Value + imm) { s with E := { s.E with resultBuffer := s.E.pc + 4#32 } })) ∧
    (∀ s, InExecuteAlone (.jalr rd rs1 imm) s → ∃ t : State, Host.Core.run core 2 s = .next t ∧
      TargetFetched (.jalr rd rs1 imm) (s.E.rs1Value + imm) s t ∧
      (∀ r j, s.codeRead (s.E.rs1Value + imm) = some r → r.instr = .ok j → j.wellFormed = true →
        ∃ u, step t = .next u ∧ u.readReg rd = s.E.pc + 4#32 ∧ RegsUnchangedExcept [rd] s u ∧
          (u.E.writes rd = false → u.readBusy rd = false) ∧
          u.E.valid = true ∧ u.E.instr = some j ∧ u.completed = s.completed + 1 ∧ u.flags = s.flags ∧
          DataUnchanged s u))

/-- HALT: Execute and Memory do nothing, Writeback counts it and sets `halted`; registers, flags and memory stay.
Handed to Decode it disables fetch, held back by a stall it does not (43_control.md R222; 40_pipeline.md R150). -/
def Obligations.HaltEndsTheRun : Prop :=
  ListedAs .halt 0x19#8 .n [] [] ∧ NoDataAccess .halt ∧ Forwards .halt nothing nothing ∧
  (∀ s, exec .halt s = .next s) ∧
  (∀ s, InExecuteAlone .halt s → ∃ t : State, Host.Core.run core 3 s = .next t ∧
    t.halted = true ∧ RetiredInThree s t ∧ t.regs = s.regs ∧ t.busy = s.busy ∧ t.flags = s.flags ∧ t.dmem = s.dmem ∧
    t.pc = s.pc) ∧
  (∀ (s : State) (r : Record), s.fetchFromNextCycle = false → s.F.valid = true → s.codeRead s.pc = some r →
    r.instr = .ok .halt →
    (s.stallPipeline = false → (fetchStage s).F.valid = false ∧ (fetchStage s).D.valid = true ∧
      (fetchStage s).D.instr = some .halt) ∧
    (s.stallPipeline = true → (fetchStage s).F.valid = true ∧ (fetchStage s).D = s.D))

/-- A taken transfer whose target names no slot makes Fetch deliver BADFETCH and ends the run in the third cycle with the target's address; a misaligned
target is never rounded (43_control.md R219; 60_exceptions.md R242). -/
def Obligations.BadTargetFaultsWhenEvaluated : Prop :=
  ∀ (s : State) (i : Instr) (target : Word), InExecuteAlone i s → transferTarget i s.E s.flags = some target →
    ¬(∃ k, k < s.code.length ∧ target.toNat = 4000 + 4 * k) →
    (∃ t : State, Host.Core.run core 2 s = .next t ∧ t.D.valid = true ∧ t.D.op = .badFetch ∧ t.D.pc = target) ∧
    Host.Core.run core 3 s = .fault (.invalidFetchAddress target)

/-! ### Forwarding, busy bits, stall, flush -/

/-- `Forward(r)`: a hit is the value that `r` holds once `W` and then `M` are written back, a miss means neither writes `r`, and
block is exactly a load in `M` with that destination (40_pipeline.md R130, R131, R132, R133). -/
def Obligations.ForwardingGivesTheValueWrittenBack : Prop :=
  ∀ (s : State) (r : RegIndex), s.M.legal → s.W.legal →
    (∀ v, s.forward r = .hit v → s.commitInFlight.readReg r = v) ∧
    (s.forward r = .miss → s.M.writes r = false ∧ s.W.writes r = false ∧ s.commitInFlight.readReg r = s.readReg r) ∧
    (s.forward r = .block ↔ s.M.valid = true ∧ ∃ op, s.M.opcode = some op ∧ isLoad op = true ∧ s.M.rd = r)

/-- When Decode runs in a cycle from an invariant state, a register no latch in flight writes is not busy: the busy test
never fails (40_pipeline.md R143). -/
def Obligations.ForwardingMissMeansNotBusy : Prop :=
  ∀ (s u : State) (r : RegIndex), s.Inv → ReachesDecode s u → u.forward r = .miss → u.readBusy r = false

/-- A cycle stalls exactly when the instruction in `D` reads the `rd` of a LOAD or LOADP that was issued in the cycle before
(40_pipeline.md R144). -/
def Obligations.StallExactlyOnLoadUse : Prop :=
  ∀ s t : State, s.Inv → step s = .next t →
    (t.stallPipeline = true ↔
      s.D.valid = true ∧ s.E.valid = true ∧ (∃ op, s.E.opcode = some op ∧ isLoad op = true) ∧
      ∃ op, s.D.opcode = some op ∧ ∃ f ∈ srcFields op, s.D.field f = s.E.rd)

/-- A stall lasts one cycle: the stalled instruction issues in the next one (40_pipeline.md R144;
70_reset_and_hazards.md R278). -/
def Obligations.StallLastsOneCycle : Prop :=
  ∀ s t : State, s.Inv → s.stallPipeline = true → step s = .next t →
    t.stallPipeline = false ∧ t.E.valid = true ∧ t.E.pc = s.D.pc ∧ t.E.op = s.D.op

/-- A stalled cycle refetches the same slot: `pc` does not move (so no transfer is taken in it), Fetch reads the slot at the
unchanged `pc` into `F`, and the instruction in `D` keeps its record (40_pipeline.md R140, R149, R152, R154). -/
def Obligations.StalledCycleKeepsPcAndDecode : Prop :=
  ∀ s t : State, step s = .next t → s.halted = false → t.halted = false → t.stallPipeline = true →
    t.pc = s.pc ∧
    (s.F.valid = true → s.fetchFromNextCycle = false →
      t.F.valid = true ∧ t.F.pc = s.pc ∧ ∀ r, s.codeRead s.pc = some r → t.F.op = .number r.opcode ∧ t.F.imm = r.imm) ∧
    t.D.valid = true ∧ t.D.pc = s.D.pc ∧ t.D.op = s.D.op ∧ t.D.rd = s.D.rd ∧ t.D.rs1 = s.D.rs1 ∧ t.D.rs2 = s.D.rs2 ∧
    t.D.imm = s.D.imm ∧ t.E.valid = false

/-- A taken transfer in Execute flushes: `pc` is the target, whatever waited in `D` is squashed without being checked, nothing
issues, Fetch skips the cycle and is enabled; the next cycle fetches the target (40_pipeline.md R122, R154). -/
def Obligations.TakenTransferFlushesTheFrontEnd : Prop :=
  ∀ (s s1 s2 : State) (i : Instr) (target : Word), s.Inv → s.faulted = none → s.halted = false →
    s.E.valid = true → s.E.instr = some i → transferTarget i s.E s.flags = some target →
    writebackStage s = .next s1 → memoryStage s1 = .next s2 →
    ∃ t u, step s = .next t ∧ step t = .next u ∧
      t.pc = target ∧ t.D.valid = false ∧ t.E.valid = false ∧ t.F.valid = true ∧
      t.fetchFromNextCycle = false ∧ t.stallPipeline = false ∧ t.M.valid = true ∧ t.M.instr = some i ∧
      t.busy = s2.busy ∧ t.regs = s2.regs ∧ t.dmem = s2.dmem ∧ t.flags = s.flags ∧
      u.D.valid = true ∧ u.D.pc = target ∧ u.pc = target + 4#32

/-! ### Faults -/

/-- What Decode sees is checked in order: BADFETCH, the opcode, then each used register field; the first failing check is the
fault of the step, and an instruction that passes every check lets the step answer a next state
(40_pipeline.md R142; 60_exceptions.md R241, R242, R243). -/
def Obligations.DecodeChecksInOrder : Prop :=
  ∀ s u : State, ReachesDecode s u → u.D.valid = true →
    (u.D.op = .badFetch → step s = .fault (.invalidFetchAddress u.D.pc)) ∧
    (∀ n, u.D.op = .number n → ¬(1 ≤ n.toNat ∧ n.toNat ≤ 0x19) → step s = .fault (.illegalOpcode u.D.pc n)) ∧
    (∀ n op earlier f later, u.D.op = .number n → Opcode.ofNumber n = some op →
      op.format.fields = earlier ++ f :: later → (∀ g ∈ earlier, (u.D.field g).toNat < Config.nregs) →
      ¬(u.D.field f).toNat < Config.nregs →
      step s = .fault (.invalidRegisterIndex u.D.pc f (u.D.field f))) ∧
    (∀ n op, u.D.op = .number n → Opcode.ofNumber n = some op →
      (∀ g ∈ op.format.fields, (u.D.field g).toNat < Config.nregs) → ∃ t, step s = .next t)

/-- A load or store in Memory whose address is outside `[0, DMEM_SIZE)` ends the run with its own `pc` and address, whatever
Decode holds: Memory is evaluated first (40_pipeline.md R117; 60_exceptions.md R244, R248). -/
def Obligations.DataAddressOutOfRangeFaults : Prop :=
  ∀ (s s1 : State) (i : Instr), s.faulted = none → s.halted = false →
    writebackStage s = .next s1 → s1.halted = false →
    s.M.valid = true → s.M.instr = some i → (isLoad i.opcode = true ∨ isStore i.opcode = true) →
    ¬(0 ≤ s.M.memoryAddress.toInt ∧ s.M.memoryAddress.toInt < Config.dmemSize) →
    step s = .fault (.invalidMemoryAddress s.M.pc s.M.memoryAddress)

/-- Every fault of a step has the cause the spec names for it; there is no other way a cycle ends a run
(60_exceptions.md R240 to R244, R247). -/
def Obligations.EveryFaultHasItsCause : Prop :=
  ∀ (s : State) (f : Fault), step s = .fault f → s.faulted = none →
    match f with
    | .invalidMemoryAddress pc a =>
        s.M.valid = true ∧ pc = s.M.pc ∧ a = s.M.memoryAddress ∧ ¬(0 ≤ a.toInt ∧ a.toInt < Config.dmemSize) ∧
        ∃ op, s.M.opcode = some op ∧ (isLoad op = true ∨ isStore op = true)
    | .invalidFetchAddress pc => s.D.valid = true ∧ pc = s.D.pc ∧ s.D.op = .badFetch
    | .illegalOpcode pc n => s.D.valid = true ∧ pc = s.D.pc ∧ s.D.op = .number n ∧ ¬(1 ≤ n.toNat ∧ n.toNat ≤ 0x19)
    | .invalidRegisterIndex pc g r =>
        s.D.valid = true ∧ pc = s.D.pc ∧ r = s.D.field g ∧ Config.nregs ≤ r.toNat ∧
        ∃ op, s.D.opcode = some op ∧ g ∈ op.format.fields

/-! ### Whole-machine rules -/

/-- Only Writeback writes registers: a register that changes in a step is in the destination set of the instruction in `W`
(10_state.md R21; 40_pipeline.md R110). -/
def Obligations.RegistersChangeOnlyAtWriteback : Prop :=
  ∀ (s t : State) (r : RegIndex), step s = .next t → t.readReg r ≠ s.readReg r → s.W.writes r = true

/-- The destination set is exactly what Writeback writes (40_pipeline.md R110, R111, R139): of the instruction in `W` every
destination register gets its latch value, the loaded value winning when LOADP names one register twice, its busy bit is
cleared, and no other register or busy bit changes. -/
def Obligations.WritebackWritesExactlyTheDestinations : Prop :=
  ∀ (s : State) (i : Instr), s.W.valid = true → s.W.instr = some i →
    ∃ t, writebackStage s = .next t ∧
      (∀ r, s.W.writes r = false → t.readReg r = s.readReg r ∧ t.readBusy r = s.readBusy r) ∧
      (∀ r, s.W.writes r = true → t.readBusy r = false) ∧
      (.rd ∈ dstFields i.opcode → t.readReg s.W.rd = s.W.resultBuffer) ∧
      (.rs1 ∈ dstFields i.opcode → s.W.rs1 ≠ s.W.rd → t.readReg s.W.rs1 = s.W.rs1Value) ∧
      (.rs2 ∈ dstFields i.opcode → t.readReg s.W.rs2 = s.W.rs2Value) ∧
      t.completed = s.completed + 1 ∧ t.W.valid = false ∧
      (t.halted = true ↔ s.halted = true ∨ i = .halt)

/-- A busy bit becomes 1 only for a destination of the instruction Decode issues in that cycle (10_state.md R24;
40_pipeline.md R138). -/
def Obligations.BusyIsSetOnlyByIssue : Prop :=
  ∀ (s t : State) (r : RegIndex), step s = .next t → t.readBusy r = true → s.readBusy r = false →
    s.D.writes r = true ∧ t.E.valid = true ∧ t.E.pc = s.D.pc ∧ t.E.op = s.D.op

/-- The flags change only in the Execute cycle of a flag-writing opcode, to the flags of a word, and after any change exactly
one is 1 (10_state.md R29, R30). -/
def Obligations.FlagsChangeOnlyByFlagOps : Prop :=
  ∀ s t : State, step s = .next t → t.flags ≠ s.flags →
    s.E.valid = true ∧ (∃ op, s.E.opcode = some op ∧ isFlagOp op = true) ∧ (∃ v, FlagsDescribe v t.flags) ∧
    t.flags.oneHot = true

/-- A data cell changes only by the STORE or STOREP in Memory, at that instruction's address, to its `rs1_value`
(20_memory.md R51, R56; 40_pipeline.md R115, R116). -/
def Obligations.DataMemoryChangesOnlyByStores : Prop :=
  ∀ (s t : State) (a : Word), Memory.wf s.dmem = true → step s = .next t → t.memRead a ≠ s.memRead a →
    s.M.valid = true ∧ (∃ op, s.M.opcode = some op ∧ isStore op = true) ∧ a = s.M.memoryAddress ∧
    t.memRead a = s.M.rs1Value

/-- No step changes the code memory: self-modifying code is impossible (20_memory.md R50, R63). -/
def Obligations.CodeMemoryNeverChanges : Prop :=
  ∀ s t : State, step s = .next t → t.code = s.code ∧ ∀ pc, t.codeRead pc = s.codeRead pc

/-- `pc` stays, advances by 4 (modulo 2^32) when Fetch hands an instruction to Decode, or is the target of a taken transfer
in Execute (10_state.md R26, R27). -/
def Obligations.PcMovesOnlyByFetchOrRedirect : Prop :=
  ∀ s t : State, step s = .next t →
    t.pc = s.pc ∨ (t.pc = s.pc + 4#32 ∧ t.D.valid = true ∧ t.D.pc = s.pc) ∨
    ∃ i, s.E.valid = true ∧ s.E.instr = some i ∧ transferTarget i s.E s.flags = some t.pc

/-- Every committed cycle advances `clock` by exactly 1, `completed` counts the instruction in `W` whatever it is, and
`halted` becomes 1 exactly when that instruction is HALT (40_pipeline.md R102, R112, R113). -/
def Obligations.CountersAndHaltedFollowWriteback : Prop :=
  ∀ s t : State, step s = .next t → s.halted = false →
    t.clock = s.clock + 1 ∧ t.completed = s.completed + s.W.valid.toNat ∧
    (t.halted = true ↔ s.W.valid = true ∧ s.W.opcode = some .halt)

/-- Stall and redirect are never both pending at the end of a cycle (40_pipeline.md R155). -/
def Obligations.StallAndRedirectNeverBothPending : Prop :=
  ∀ s t : State, step s = .next t → s.halted = false → t.halted = false →
    t.frontState = some .normal ∨ t.frontState = some .stalled

/-! ### HALT and the end of a run -/

/-- The cycle that writes HALT back ends after Writeback: it counts HALT, sets `halted`, advances the clock and changes
nothing else, whatever the other latches hold (40_pipeline.md R103, R113). -/
def Obligations.HaltingCycleEndsAfterWriteback : Prop :=
  ∀ s : State, s.faulted = none → s.halted = false → s.W.valid = true → s.W.instr = some .halt →
    step s = .next { s with
      completed := s.completed + 1, halted := true, W := { s.W with valid := false }, clock := s.clock + 1 }

/-- In an invariant state the stages the halting cycle skips would have changed nothing (40_pipeline.md R103). -/
def Obligations.SkippedStagesWouldChangeNothing : Prop :=
  ∀ s s1 : State, s.Inv → s.halted = false → s.W.holdsHalt → writebackStage s = .next s1 →
    laterStages s1 = .next s1.tick

/-- After HALT the core performs no further cycle: a whole `run` leaves the state as it is and reports 0 cycles
(60_exceptions.md R258; 70_reset_and_hazards.md R273). That a `step` of a halted state then answers that same state is the model's
own reading (log 4, DEDUCED). -/
def Obligations.HaltedCorePerformsNoCycle : Prop :=
  ∀ (s : State) (n : Nat), s.halted = true → s.faulted = none →
    step s = .next s ∧ runCore s n = (.ended 0 s.completed true, s)

/-! ### Run control -/

/-- `run` without a fault is the same cycles one at a time: the handle after it is the state after that many steps, it reports
the cycles it performed, and `clock` grew by them (70_reset_and_hazards.md R273). Steps of the
budget behind a HALT leave the state (log 4, DEDUCED). -/
def Obligations.RunIsRepeatedSteps : Prop :=
  ∀ (s t : State) (n c k : Nat) (h : Bool), s.faulted = none → runCore s n = (.ended c k h, t) →
    Host.Core.run core n s = .next t ∧ k = t.completed ∧ h = t.halted ∧ c ≤ n ∧ t.clock = s.clock + c ∧
    (h = false → c = n)

/-- A budget split over two calls gives the state of one call: exhaustion keeps the state, and a later `run` continues
(60_exceptions.md R246; 70_reset_and_hazards.md R273). -/
def Obligations.BudgetedRunsCompose : Prop :=
  ∀ (s t : State) (m n c k : Nat) (h : Bool), s.faulted = none → runCore s m = (.ended c k h, t) →
    (runCore s (m + n)).2 = (runCore t n).2 ∧
    (∀ c' k' h', (runCore t n).1 = .ended c' k' h' → (runCore s (m + n)).1 = .ended (c + c') k' h') ∧
    (∀ f c', (runCore t n).1 = .faulted f c' → (runCore s (m + n)).1 = .faulted f (c + c'))

/-- A faulting cycle does not commit: the state is the one after the last committed cycle, and every later `run` returns the
same fault with 0 cycles (40_pipeline.md R102; 60_exceptions.md R247). That this is kept as a mark in State, so that the handle is
`{ u with faulted := some f }`, and that a `step` of a marked state answers the fault, is the model's own (log 5, DEDUCED). -/
def Obligations.FaultKeepsTheStateAndRepeats : Prop :=
  ∀ (s t : State) (n k : Nat) (f : Fault), s.faulted = none → runCore s n = (.faulted f k, t) →
    (∃ u : State, Host.Core.run core k s = .next u ∧ u.clock = s.clock + k ∧ step u = .fault f ∧
      t = { u with faulted := some f } ∧ inspect t = inspect u) ∧
    (∀ m, runCore t m = (.faulted f 0, t)) ∧ step t = .fault f

/-! ### Memory ordering -/

/-- A load directly behind a store to the same cell reads what the store wrote, through the memory alone
(20_memory.md R59, R60). -/
def Obligations.LoadBehindStoreReadsTheStoredWord : Prop :=
  ∀ (s t u : State) (i j : Instr), s.Inv → s.halted = false →
    s.M.valid = true → s.M.instr = some i → isStore i.opcode = true →
    s.E.valid = true → s.E.instr = some j → isLoad j.opcode = true →
    step s = .next t → t.M.memoryAddress = s.M.memoryAddress → step t = .next u →
    u.W.valid = true ∧ u.W.instr = some j ∧ u.W.resultBuffer = s.M.rs1Value

/-- `k` STOREP in a row on one base with immediate 0, executed one at a time, write the cells `b, b+4, ..., b+4(k-1)` and no
other, and leave the base at `b + 4k` (42_loadstore.md R195). -/
def Obligations.PostIncrementRunStepsThroughEveryFourthCell : Prop :=
  ∀ (s : State) (k : Nat) (rv rb : RegIndex), rv ≠ rb → rv.toNat < Config.nregs → rb.toNat < Config.nregs →
    s.halted = false → Memory.wf s.dmem = true →
    (∀ n, n < k → s.codeRead (s.pc + BitVec.ofNat 32 (4 * n)) = some (Instr.storep rv rb 0#32).toRecord) →
    (s.readReg rb).toNat + 4 * k ≤ Config.dmemSize →
    ∃ t, seqRun k s = .next t ∧ t.readReg rb = s.readReg rb + BitVec.ofNat 32 (4 * k) ∧
      (∀ n, n < k → t.memRead (s.readReg rb + BitVec.ofNat 32 (4 * n)) = s.readReg rv) ∧
      (∀ a : Word, (∀ n, n < k → a ≠ s.readReg rb + BitVec.ofNat 32 (4 * n)) → t.memRead a = s.memRead a) ∧
      RegsUnchangedExcept [rb] s t ∧ t.flags = s.flags ∧ t.completed = s.completed + k

/-! ### Invariant, progress, refinement -/

/-- `init` gives a state that meets the pipeline invariant, whatever the program (70_reset_and_hazards.md R270). -/
def Obligations.InitMeetsTheInvariant : Prop :=
  State.reset.Inv ∧ ∀ (program : List Record) (s : State), init (.ok program) = .ok s → s.Inv

/-- Every step keeps the pipeline invariant (10_state.md R29; 40_pipeline.md R103, R107, R142, R153, R157). -/
def Obligations.EveryStepKeepsTheInvariant : Prop :=
  ∀ s t : State, s.Inv → step s = .next t → t.Inv

/-- From an invariant state no step is refused: the model's own refusal for states no run reaches (log 8) is never met by a
run from `init`. -/
def Obligations.NoRunIsRefused : Prop :=
  (∀ (s : State) (r : Refusal), s.Inv → step s ≠ .refused r) ∧
  (∀ (program : List Record) (s : State) (n : Nat) (r : Refusal),
    init (.ok program) = .ok s → Host.Core.run core n s ≠ .refused r)

/-- A straight-line program of `k` instructions whose last is HALT and whose others neither transfer control nor access
memory halts in cycle `k + 4`, with `k` instructions completed (70_reset_and_hazards.md R280). -/
def Obligations.StraightLineHaltsInLengthPlusFour : Prop :=
  ∀ (body : List Instr) (s : State),
    (∀ i ∈ body, i.wellFormed = true ∧ isLoad i.opcode = false ∧ isStore i.opcode = false ∧
      isBranch i.opcode = false ∧ i.opcode ≠ .jump ∧ i.opcode ≠ .jalr ∧ i.opcode ≠ .halt) →
    init (.ok (body.map Instr.toRecord ++ [Instr.halt.toRecord])) = .ok s →
    ∃ t, (∀ n, (runCore s (body.length + 5 + n)) = (.ended (body.length + 5) (body.length + 1) true, t)) ∧
      ∀ n, n < body.length + 5 → ∃ u : State, Host.Core.run core n s = .next u ∧ u.halted = false

/-- The pipeline computes what its program computes one instruction at a time: a run from `init` that reaches HALT has
executed exactly `completed` instructions of the sequential reference and left its registers, flags and data memory
(40_pipeline.md R156). -/
def Obligations.PipelineRefinesSequentialExecution : Prop :=
  ∀ (program : List Record) (s t : State) (n : Nat), init (.ok program) = .ok s →
    Host.Core.run core n s = .next t → t.halted = true →
    ∃ u, seqRun t.completed s = .next u ∧ u.halted = true ∧ u.completed = t.completed ∧
      u.regs = t.regs ∧ u.flags = t.flags ∧ u.dmem = t.dmem
end

