-- ==== Sys2Proof/Laws/Memory.lean ====
section
/-! SUPPORT. Data memory: read after write, and the canonical form that every operation keeps. -/

namespace Sys2Proof.Machine

/-- Every listed address lies above `a`. -/
def allAbove (a : Nat) (l : List DataCell) : Prop := ∀ c ∈ l, a < c.1

theorem cellsAbove_of_allAbove {a : Nat} {l : List DataCell} (h : allAbove a l) : cellsAbove a l = true := by
  cases l with
  | nil => rfl
  | cons c l => simpa [cellsAbove] using h c (List.mem_cons_self ..)

theorem Memory.wf_cons {b : Nat} {v : Word} {l : List DataCell} :
    Memory.wf ((b, v) :: l) = true ↔ v ≠ 0#32 ∧ cellsAbove b l = true ∧ Memory.wf l = true := by
  simp [Memory.wf, and_assoc]

theorem allAbove_of_wf {a : Nat} {l : List DataCell} (hw : Memory.wf l = true) (ha : cellsAbove a l = true) :
    allAbove a l := by
  induction l generalizing a with
  | nil => intro c hc; cases hc
  | cons d l ih =>
    obtain ⟨b, v⟩ := d
    obtain ⟨-, hb, hl⟩ := Memory.wf_cons.1 hw
    have hab : a < b := by simpa [cellsAbove] using ha
    intro c hc
    rcases List.mem_cons.1 hc with rfl | hc
    · exact hab
    · exact hab.trans (ih hl hb c hc)

/-- A cell below every listed one holds 0. -/
theorem cellRead_of_allAbove {a : Nat} {l : List DataCell} (h : allAbove a l) : cellRead l a = 0#32 := by
  induction l with
  | nil => rfl
  | cons d l ih =>
    obtain ⟨b, v⟩ := d
    have hab : a < b := h (b, v) (List.mem_cons_self ..)
    simp only [cellRead, Nat.ne_of_lt hab, if_false]
    exact ih fun c hc => h c (List.mem_cons_of_mem _ hc)

/-- Read after write to the same cell, in a canonical memory. -/
theorem cellRead_cellWrite_same {l : List DataCell} (hw : Memory.wf l = true) (a : Nat) (v : Word) :
    cellRead (cellWrite l a v) a = v := by
  induction l with
  | nil => by_cases hv : v = 0#32 <;> simp [cellWrite, cellRead, hv]
  | cons d l ih =>
    obtain ⟨b, w⟩ := d
    obtain ⟨hw0, hb, hl⟩ := Memory.wf_cons.1 hw
    have habove := allAbove_of_wf hl hb
    by_cases h1 : a < b
    · by_cases hv : v = 0#32
      · simp only [cellWrite, h1, hv, if_true]
        refine cellRead_of_allAbove fun c hc => ?_
        rcases List.mem_cons.1 hc with rfl | hc
        · exact h1
        · exact h1.trans (habove c hc)
      · simp [cellWrite, cellRead, h1, hv]
    · by_cases h2 : a = b
      · subst h2
        by_cases hv : v = 0#32
        · simp only [cellWrite, h1, hv, if_true, if_false]
          exact cellRead_of_allAbove habove
        · simp [cellWrite, cellRead, hv]
      · simp [cellWrite, cellRead, h1, h2, ih hl]

/-- A write leaves every other cell alone, in any memory. -/
theorem cellRead_cellWrite_other (l : List DataCell) {a b : Nat} (v : Word) (hne : b ≠ a) :
    cellRead (cellWrite l a v) b = cellRead l b := by
  induction l with
  | nil => by_cases hv : v = 0#32 <;> simp [cellWrite, cellRead, hv, hne]
  | cons d l ih =>
    obtain ⟨c, w⟩ := d
    by_cases h1 : a < c
    · by_cases hv : v = 0#32 <;> simp [cellWrite, cellRead, h1, hv, hne]
    · by_cases h2 : a = c
      · subst h2
        by_cases hv : v = 0#32 <;> simp [cellWrite, cellRead, hv, hne]
      · by_cases h3 : b = c <;> simp [cellWrite, cellRead, h1, h2, h3, ih]

theorem cellsAbove_cellWrite {c : Nat} {l : List DataCell} (hw : Memory.wf l = true) (hc : cellsAbove c l = true)
    {a : Nat} (hca : c < a) (v : Word) : cellsAbove c (cellWrite l a v) = true := by
  cases l with
  | nil => by_cases hv : v = 0#32 <;> simp [cellWrite, cellsAbove, hv, hca]
  | cons d l =>
    obtain ⟨b, w⟩ := d
    have hcb : c < b := by simpa [cellsAbove] using hc
    obtain ⟨-, hb, hl⟩ := Memory.wf_cons.1 hw
    by_cases h1 : a < b
    · by_cases hv : v = 0#32 <;> simp [cellWrite, cellsAbove, h1, hv, hca, hcb]
    · by_cases h2 : a = b
      · subst h2
        by_cases hv : v = 0#32
        · simp only [cellWrite, h1, hv, if_true, if_false]
          exact cellsAbove_of_allAbove fun d hd => hcb.trans (allAbove_of_wf hl hb d hd)
        · simp [cellWrite, cellsAbove, hv, hca]
      · simp [cellWrite, cellsAbove, h1, h2, hcb]

/-- A write keeps the canonical form. -/
theorem cellWrite_wf {l : List DataCell} (hw : Memory.wf l = true) (a : Nat) (v : Word) :
    Memory.wf (cellWrite l a v) = true := by
  induction l with
  | nil => by_cases hv : v = 0#32 <;> simp [cellWrite, Memory.wf, cellsAbove, hv]
  | cons d l ih =>
    obtain ⟨b, w⟩ := d
    obtain ⟨hw0, hb, hl⟩ := Memory.wf_cons.1 hw
    by_cases h1 : a < b
    · by_cases hv : v = 0#32
      · simpa [cellWrite, h1, hv] using hw
      · simp only [cellWrite, h1, hv, if_true, if_false]
        exact Memory.wf_cons.2 ⟨hv, by simp [cellsAbove, h1], hw⟩
    · by_cases h2 : a = b
      · subst h2
        by_cases hv : v = 0#32
        · simpa [cellWrite, hv] using hl
        · simp only [cellWrite, h1, hv, if_true, if_false]
          exact Memory.wf_cons.2 ⟨hv, hb, hl⟩
      · simp only [cellWrite, h1, h2, if_false]
        exact Memory.wf_cons.2 ⟨hw0, cellsAbove_cellWrite hl hb (by omega) v, ih hl⟩

/-- Only the written address can be new. -/
theorem mem_cellWrite {l : List DataCell} {a : Nat} {v : Word} {c : DataCell} (h : c ∈ cellWrite l a v) :
    c.1 = a ∨ c ∈ l := by
  induction l with
  | nil => by_cases hv : v = 0#32 <;> simp_all [cellWrite]
  | cons d l ih =>
    obtain ⟨b, w⟩ := d
    unfold cellWrite at h
    split at h
    · split at h
      · exact .inr h
      · rcases List.mem_cons.1 h with rfl | h
        · exact .inl rfl
        · exact .inr h
    · split at h
      · split at h
        · exact .inr (List.mem_cons_of_mem _ h)
        · rcases List.mem_cons.1 h with rfl | h
          · exact .inl rfl
          · exact .inr (List.mem_cons_of_mem _ h)
      · rcases List.mem_cons.1 h with rfl | h
        · exact .inr (List.mem_cons_self ..)
        · rcases ih h with h | h
          · exact .inl h
          · exact .inr (List.mem_cons_of_mem _ h)

/-- `MemWrite` keeps the canonical form. -/
theorem State.memWrite_wf {s : State} (h : Memory.wf s.dmem = true) (a v : Word) :
    Memory.wf (s.memWrite a v).dmem = true := cellWrite_wf h _ v

theorem State.memRead_memWrite_same {s : State} (h : Memory.wf s.dmem = true) (a v : Word) :
    (s.memWrite a v).memRead a = v := cellRead_cellWrite_same h _ v

theorem State.memRead_memWrite_other (s : State) {a b : Word} (v : Word) (h : b ≠ a) :
    (s.memWrite a v).memRead b = s.memRead b :=
  cellRead_cellWrite_other _ v fun e => h (BitVec.eq_of_toNat_eq e)

theorem State.memRead_congr {s t : State} (h : t.dmem = s.dmem) (a : Word) : t.memRead a = s.memRead a := by
  simp [State.memRead, h]

/-- A legal data address is a cell number below `DMEM_SIZE` (40_pipeline.md R117). -/
theorem toNat_lt_of_dataAddressOk {a : Word} (h : dataAddressOk a = true) : a.toNat < Config.dmemSize := by
  simp only [dataAddressOk, decide_eq_true_eq] at h
  have := BitVec.toInt_eq_toNat_cond a
  split at this <;> omega

/-- The reset memory is canonical. -/
theorem State.reset_memory_wf : Memory.wf State.reset.dmem = true := rfl

/-! ### Code memory -/

/-- A slot index is exactly what `pc` names (20_memory.md R50, R55). -/
theorem slotIndex_eq_some {pc : Word} {n k : Nat} :
    slotIndex pc n = some k ↔ k < n ∧ pc.toNat = Config.codeBase + Config.insnWidth * k := by
  have hw : 0 < Config.insnWidth := by decide
  unfold slotIndex
  generalize Config.codeBase = b at *
  generalize Config.insnWidth = w at *
  by_cases h1 : b ≤ pc.toNat
  · rw [if_pos h1]
    by_cases h2 : (pc.toNat - b) % w = 0
    · rw [if_pos h2]
      have h3 := Nat.div_add_mod (pc.toNat - b) w
      rw [h2] at h3
      constructor
      · intro h
        split at h
        · cases h
          exact ⟨by assumption, by omega⟩
        · cases h
      · rintro ⟨hk, he⟩
        have hd : (pc.toNat - b) / w = k := by
          rw [he, Nat.add_sub_cancel_left, Nat.mul_div_cancel_left _ hw]
        rw [hd, if_pos hk]
    · rw [if_neg h2]
      constructor
      · intro h
        cases h
      · rintro ⟨-, he⟩
        exact absurd (by rw [he, Nat.add_sub_cancel_left, Nat.mul_mod_right]) h2
  · rw [if_neg h1]
    constructor
    · intro h
      cases h
    · rintro ⟨-, he⟩
      omega

/-- BADFETCH exactly when `pc` names no slot (40_pipeline.md R146). -/
theorem State.codeRead_eq_none {s : State} {pc : Word} :
    s.codeRead pc = none ↔ ¬∃ k, k < s.code.length ∧ pc.toNat = Config.codeBase + Config.insnWidth * k := by
  unfold State.codeRead
  cases h : slotIndex pc s.code.length with
  | none =>
    refine ⟨fun _ ⟨k, hk⟩ => ?_, fun _ => rfl⟩
    rw [slotIndex_eq_some.2 hk] at h
    cases h
  | some k =>
    have hk := slotIndex_eq_some.1 h
    simp only [List.getElem?_eq_none_iff]
    exact ⟨fun hle => by omega, fun hn => absurd ⟨k, hk⟩ hn⟩

/-- The record of a slot (20_memory.md R50). -/
theorem State.codeRead_slot {s : State} {pc : Word} {k : Nat} (hk : k < s.code.length)
    (hpc : pc.toNat = Config.codeBase + Config.insnWidth * k) : s.codeRead pc = some s.code[k] := by
  unfold State.codeRead
  rw [slotIndex_eq_some.2 ⟨hk, hpc⟩]
  exact List.getElem?_eq_getElem hk

end Sys2Proof.Machine
end

