-- ==== Sys2Proof/Laws/State.lean ====
section
/-! SUPPORT. One lemma per field per state update, true by definition: a proof never unfolds a record update. -/

namespace Sys2Proof.Machine

/-! ### `State.writeReg` -/

@[simp] theorem State.writeReg_regs (s : State) (i : RegIndex) (v : Word) : (s.writeReg i v).regs = s.regs.setIfInBounds i.toNat v := rfl
@[simp] theorem State.writeReg_busy (s : State) (i : RegIndex) (v : Word) : (s.writeReg i v).busy = s.busy := rfl
@[simp] theorem State.writeReg_pc (s : State) (i : RegIndex) (v : Word) : (s.writeReg i v).pc = s.pc := rfl
@[simp] theorem State.writeReg_flags (s : State) (i : RegIndex) (v : Word) : (s.writeReg i v).flags = s.flags := rfl
@[simp] theorem State.writeReg_stallPipeline (s : State) (i : RegIndex) (v : Word) : (s.writeReg i v).stallPipeline = s.stallPipeline := rfl
@[simp] theorem State.writeReg_fetchFromNextCycle (s : State) (i : RegIndex) (v : Word) : (s.writeReg i v).fetchFromNextCycle = s.fetchFromNextCycle := rfl
@[simp] theorem State.writeReg_halted (s : State) (i : RegIndex) (v : Word) : (s.writeReg i v).halted = s.halted := rfl
@[simp] theorem State.writeReg_clock (s : State) (i : RegIndex) (v : Word) : (s.writeReg i v).clock = s.clock := rfl
@[simp] theorem State.writeReg_completed (s : State) (i : RegIndex) (v : Word) : (s.writeReg i v).completed = s.completed := rfl
@[simp] theorem State.writeReg_dmem (s : State) (i : RegIndex) (v : Word) : (s.writeReg i v).dmem = s.dmem := rfl
@[simp] theorem State.writeReg_code (s : State) (i : RegIndex) (v : Word) : (s.writeReg i v).code = s.code := rfl
@[simp] theorem State.writeReg_F (s : State) (i : RegIndex) (v : Word) : (s.writeReg i v).F = s.F := rfl
@[simp] theorem State.writeReg_D (s : State) (i : RegIndex) (v : Word) : (s.writeReg i v).D = s.D := rfl
@[simp] theorem State.writeReg_E (s : State) (i : RegIndex) (v : Word) : (s.writeReg i v).E = s.E := rfl
@[simp] theorem State.writeReg_M (s : State) (i : RegIndex) (v : Word) : (s.writeReg i v).M = s.M := rfl
@[simp] theorem State.writeReg_W (s : State) (i : RegIndex) (v : Word) : (s.writeReg i v).W = s.W := rfl
@[simp] theorem State.writeReg_faulted (s : State) (i : RegIndex) (v : Word) : (s.writeReg i v).faulted = s.faulted := rfl

/-! ### `State.setBusy` -/

@[simp] theorem State.setBusy_regs (s : State) (i : RegIndex) (b : Bool) : (s.setBusy i b).regs = s.regs := rfl
@[simp] theorem State.setBusy_busy (s : State) (i : RegIndex) (b : Bool) : (s.setBusy i b).busy = s.busy.setIfInBounds i.toNat b := rfl
@[simp] theorem State.setBusy_pc (s : State) (i : RegIndex) (b : Bool) : (s.setBusy i b).pc = s.pc := rfl
@[simp] theorem State.setBusy_flags (s : State) (i : RegIndex) (b : Bool) : (s.setBusy i b).flags = s.flags := rfl
@[simp] theorem State.setBusy_stallPipeline (s : State) (i : RegIndex) (b : Bool) : (s.setBusy i b).stallPipeline = s.stallPipeline := rfl
@[simp] theorem State.setBusy_fetchFromNextCycle (s : State) (i : RegIndex) (b : Bool) : (s.setBusy i b).fetchFromNextCycle = s.fetchFromNextCycle := rfl
@[simp] theorem State.setBusy_halted (s : State) (i : RegIndex) (b : Bool) : (s.setBusy i b).halted = s.halted := rfl
@[simp] theorem State.setBusy_clock (s : State) (i : RegIndex) (b : Bool) : (s.setBusy i b).clock = s.clock := rfl
@[simp] theorem State.setBusy_completed (s : State) (i : RegIndex) (b : Bool) : (s.setBusy i b).completed = s.completed := rfl
@[simp] theorem State.setBusy_dmem (s : State) (i : RegIndex) (b : Bool) : (s.setBusy i b).dmem = s.dmem := rfl
@[simp] theorem State.setBusy_code (s : State) (i : RegIndex) (b : Bool) : (s.setBusy i b).code = s.code := rfl
@[simp] theorem State.setBusy_F (s : State) (i : RegIndex) (b : Bool) : (s.setBusy i b).F = s.F := rfl
@[simp] theorem State.setBusy_D (s : State) (i : RegIndex) (b : Bool) : (s.setBusy i b).D = s.D := rfl
@[simp] theorem State.setBusy_E (s : State) (i : RegIndex) (b : Bool) : (s.setBusy i b).E = s.E := rfl
@[simp] theorem State.setBusy_M (s : State) (i : RegIndex) (b : Bool) : (s.setBusy i b).M = s.M := rfl
@[simp] theorem State.setBusy_W (s : State) (i : RegIndex) (b : Bool) : (s.setBusy i b).W = s.W := rfl
@[simp] theorem State.setBusy_faulted (s : State) (i : RegIndex) (b : Bool) : (s.setBusy i b).faulted = s.faulted := rfl

/-! ### `State.commitReg` -/

@[simp] theorem State.commitReg_regs (s : State) (i : RegIndex) (v : Word) : (s.commitReg i v).regs = s.regs.setIfInBounds i.toNat v := rfl
@[simp] theorem State.commitReg_busy (s : State) (i : RegIndex) (v : Word) : (s.commitReg i v).busy = s.busy.setIfInBounds i.toNat false := rfl
@[simp] theorem State.commitReg_pc (s : State) (i : RegIndex) (v : Word) : (s.commitReg i v).pc = s.pc := rfl
@[simp] theorem State.commitReg_flags (s : State) (i : RegIndex) (v : Word) : (s.commitReg i v).flags = s.flags := rfl
@[simp] theorem State.commitReg_stallPipeline (s : State) (i : RegIndex) (v : Word) : (s.commitReg i v).stallPipeline = s.stallPipeline := rfl
@[simp] theorem State.commitReg_fetchFromNextCycle (s : State) (i : RegIndex) (v : Word) : (s.commitReg i v).fetchFromNextCycle = s.fetchFromNextCycle := rfl
@[simp] theorem State.commitReg_halted (s : State) (i : RegIndex) (v : Word) : (s.commitReg i v).halted = s.halted := rfl
@[simp] theorem State.commitReg_clock (s : State) (i : RegIndex) (v : Word) : (s.commitReg i v).clock = s.clock := rfl
@[simp] theorem State.commitReg_completed (s : State) (i : RegIndex) (v : Word) : (s.commitReg i v).completed = s.completed := rfl
@[simp] theorem State.commitReg_dmem (s : State) (i : RegIndex) (v : Word) : (s.commitReg i v).dmem = s.dmem := rfl
@[simp] theorem State.commitReg_code (s : State) (i : RegIndex) (v : Word) : (s.commitReg i v).code = s.code := rfl
@[simp] theorem State.commitReg_F (s : State) (i : RegIndex) (v : Word) : (s.commitReg i v).F = s.F := rfl
@[simp] theorem State.commitReg_D (s : State) (i : RegIndex) (v : Word) : (s.commitReg i v).D = s.D := rfl
@[simp] theorem State.commitReg_E (s : State) (i : RegIndex) (v : Word) : (s.commitReg i v).E = s.E := rfl
@[simp] theorem State.commitReg_M (s : State) (i : RegIndex) (v : Word) : (s.commitReg i v).M = s.M := rfl
@[simp] theorem State.commitReg_W (s : State) (i : RegIndex) (v : Word) : (s.commitReg i v).W = s.W := rfl
@[simp] theorem State.commitReg_faulted (s : State) (i : RegIndex) (v : Word) : (s.commitReg i v).faulted = s.faulted := rfl

/-! ### `State.memWrite` -/

@[simp] theorem State.memWrite_regs (s : State) (a v : Word) : (s.memWrite a v).regs = s.regs := rfl
@[simp] theorem State.memWrite_busy (s : State) (a v : Word) : (s.memWrite a v).busy = s.busy := rfl
@[simp] theorem State.memWrite_pc (s : State) (a v : Word) : (s.memWrite a v).pc = s.pc := rfl
@[simp] theorem State.memWrite_flags (s : State) (a v : Word) : (s.memWrite a v).flags = s.flags := rfl
@[simp] theorem State.memWrite_stallPipeline (s : State) (a v : Word) : (s.memWrite a v).stallPipeline = s.stallPipeline := rfl
@[simp] theorem State.memWrite_fetchFromNextCycle (s : State) (a v : Word) : (s.memWrite a v).fetchFromNextCycle = s.fetchFromNextCycle := rfl
@[simp] theorem State.memWrite_halted (s : State) (a v : Word) : (s.memWrite a v).halted = s.halted := rfl
@[simp] theorem State.memWrite_clock (s : State) (a v : Word) : (s.memWrite a v).clock = s.clock := rfl
@[simp] theorem State.memWrite_completed (s : State) (a v : Word) : (s.memWrite a v).completed = s.completed := rfl
@[simp] theorem State.memWrite_dmem (s : State) (a v : Word) : (s.memWrite a v).dmem = cellWrite s.dmem a.toNat v := rfl
@[simp] theorem State.memWrite_code (s : State) (a v : Word) : (s.memWrite a v).code = s.code := rfl
@[simp] theorem State.memWrite_F (s : State) (a v : Word) : (s.memWrite a v).F = s.F := rfl
@[simp] theorem State.memWrite_D (s : State) (a v : Word) : (s.memWrite a v).D = s.D := rfl
@[simp] theorem State.memWrite_E (s : State) (a v : Word) : (s.memWrite a v).E = s.E := rfl
@[simp] theorem State.memWrite_M (s : State) (a v : Word) : (s.memWrite a v).M = s.M := rfl
@[simp] theorem State.memWrite_W (s : State) (a v : Word) : (s.memWrite a v).W = s.W := rfl
@[simp] theorem State.memWrite_faulted (s : State) (a v : Word) : (s.memWrite a v).faulted = s.faulted := rfl

/-! ### `State.setResult` -/

@[simp] theorem State.setResult_regs (s : State) (v : Word) : (s.setResult v).regs = s.regs := rfl
@[simp] theorem State.setResult_busy (s : State) (v : Word) : (s.setResult v).busy = s.busy := rfl
@[simp] theorem State.setResult_pc (s : State) (v : Word) : (s.setResult v).pc = s.pc := rfl
@[simp] theorem State.setResult_flags (s : State) (v : Word) : (s.setResult v).flags = s.flags := rfl
@[simp] theorem State.setResult_stallPipeline (s : State) (v : Word) : (s.setResult v).stallPipeline = s.stallPipeline := rfl
@[simp] theorem State.setResult_fetchFromNextCycle (s : State) (v : Word) : (s.setResult v).fetchFromNextCycle = s.fetchFromNextCycle := rfl
@[simp] theorem State.setResult_halted (s : State) (v : Word) : (s.setResult v).halted = s.halted := rfl
@[simp] theorem State.setResult_clock (s : State) (v : Word) : (s.setResult v).clock = s.clock := rfl
@[simp] theorem State.setResult_completed (s : State) (v : Word) : (s.setResult v).completed = s.completed := rfl
@[simp] theorem State.setResult_dmem (s : State) (v : Word) : (s.setResult v).dmem = s.dmem := rfl
@[simp] theorem State.setResult_code (s : State) (v : Word) : (s.setResult v).code = s.code := rfl
@[simp] theorem State.setResult_F (s : State) (v : Word) : (s.setResult v).F = s.F := rfl
@[simp] theorem State.setResult_D (s : State) (v : Word) : (s.setResult v).D = s.D := rfl
@[simp] theorem State.setResult_E (s : State) (v : Word) : (s.setResult v).E = { s.E with resultBuffer := v } := rfl
@[simp] theorem State.setResult_M (s : State) (v : Word) : (s.setResult v).M = s.M := rfl
@[simp] theorem State.setResult_W (s : State) (v : Word) : (s.setResult v).W = s.W := rfl
@[simp] theorem State.setResult_faulted (s : State) (v : Word) : (s.setResult v).faulted = s.faulted := rfl

/-! ### `State.setAddress` -/

@[simp] theorem State.setAddress_regs (s : State) (v : Word) : (s.setAddress v).regs = s.regs := rfl
@[simp] theorem State.setAddress_busy (s : State) (v : Word) : (s.setAddress v).busy = s.busy := rfl
@[simp] theorem State.setAddress_pc (s : State) (v : Word) : (s.setAddress v).pc = s.pc := rfl
@[simp] theorem State.setAddress_flags (s : State) (v : Word) : (s.setAddress v).flags = s.flags := rfl
@[simp] theorem State.setAddress_stallPipeline (s : State) (v : Word) : (s.setAddress v).stallPipeline = s.stallPipeline := rfl
@[simp] theorem State.setAddress_fetchFromNextCycle (s : State) (v : Word) : (s.setAddress v).fetchFromNextCycle = s.fetchFromNextCycle := rfl
@[simp] theorem State.setAddress_halted (s : State) (v : Word) : (s.setAddress v).halted = s.halted := rfl
@[simp] theorem State.setAddress_clock (s : State) (v : Word) : (s.setAddress v).clock = s.clock := rfl
@[simp] theorem State.setAddress_completed (s : State) (v : Word) : (s.setAddress v).completed = s.completed := rfl
@[simp] theorem State.setAddress_dmem (s : State) (v : Word) : (s.setAddress v).dmem = s.dmem := rfl
@[simp] theorem State.setAddress_code (s : State) (v : Word) : (s.setAddress v).code = s.code := rfl
@[simp] theorem State.setAddress_F (s : State) (v : Word) : (s.setAddress v).F = s.F := rfl
@[simp] theorem State.setAddress_D (s : State) (v : Word) : (s.setAddress v).D = s.D := rfl
@[simp] theorem State.setAddress_E (s : State) (v : Word) : (s.setAddress v).E = { s.E with memoryAddress := v } := rfl
@[simp] theorem State.setAddress_M (s : State) (v : Word) : (s.setAddress v).M = s.M := rfl
@[simp] theorem State.setAddress_W (s : State) (v : Word) : (s.setAddress v).W = s.W := rfl
@[simp] theorem State.setAddress_faulted (s : State) (v : Word) : (s.setAddress v).faulted = s.faulted := rfl

/-! ### `State.setRs1Value` -/

@[simp] theorem State.setRs1Value_regs (s : State) (v : Word) : (s.setRs1Value v).regs = s.regs := rfl
@[simp] theorem State.setRs1Value_busy (s : State) (v : Word) : (s.setRs1Value v).busy = s.busy := rfl
@[simp] theorem State.setRs1Value_pc (s : State) (v : Word) : (s.setRs1Value v).pc = s.pc := rfl
@[simp] theorem State.setRs1Value_flags (s : State) (v : Word) : (s.setRs1Value v).flags = s.flags := rfl
@[simp] theorem State.setRs1Value_stallPipeline (s : State) (v : Word) : (s.setRs1Value v).stallPipeline = s.stallPipeline := rfl
@[simp] theorem State.setRs1Value_fetchFromNextCycle (s : State) (v : Word) : (s.setRs1Value v).fetchFromNextCycle = s.fetchFromNextCycle := rfl
@[simp] theorem State.setRs1Value_halted (s : State) (v : Word) : (s.setRs1Value v).halted = s.halted := rfl
@[simp] theorem State.setRs1Value_clock (s : State) (v : Word) : (s.setRs1Value v).clock = s.clock := rfl
@[simp] theorem State.setRs1Value_completed (s : State) (v : Word) : (s.setRs1Value v).completed = s.completed := rfl
@[simp] theorem State.setRs1Value_dmem (s : State) (v : Word) : (s.setRs1Value v).dmem = s.dmem := rfl
@[simp] theorem State.setRs1Value_code (s : State) (v : Word) : (s.setRs1Value v).code = s.code := rfl
@[simp] theorem State.setRs1Value_F (s : State) (v : Word) : (s.setRs1Value v).F = s.F := rfl
@[simp] theorem State.setRs1Value_D (s : State) (v : Word) : (s.setRs1Value v).D = s.D := rfl
@[simp] theorem State.setRs1Value_E (s : State) (v : Word) : (s.setRs1Value v).E = { s.E with rs1Value := v } := rfl
@[simp] theorem State.setRs1Value_M (s : State) (v : Word) : (s.setRs1Value v).M = s.M := rfl
@[simp] theorem State.setRs1Value_W (s : State) (v : Word) : (s.setRs1Value v).W = s.W := rfl
@[simp] theorem State.setRs1Value_faulted (s : State) (v : Word) : (s.setRs1Value v).faulted = s.faulted := rfl

/-! ### `State.setRs2Value` -/

@[simp] theorem State.setRs2Value_regs (s : State) (v : Word) : (s.setRs2Value v).regs = s.regs := rfl
@[simp] theorem State.setRs2Value_busy (s : State) (v : Word) : (s.setRs2Value v).busy = s.busy := rfl
@[simp] theorem State.setRs2Value_pc (s : State) (v : Word) : (s.setRs2Value v).pc = s.pc := rfl
@[simp] theorem State.setRs2Value_flags (s : State) (v : Word) : (s.setRs2Value v).flags = s.flags := rfl
@[simp] theorem State.setRs2Value_stallPipeline (s : State) (v : Word) : (s.setRs2Value v).stallPipeline = s.stallPipeline := rfl
@[simp] theorem State.setRs2Value_fetchFromNextCycle (s : State) (v : Word) : (s.setRs2Value v).fetchFromNextCycle = s.fetchFromNextCycle := rfl
@[simp] theorem State.setRs2Value_halted (s : State) (v : Word) : (s.setRs2Value v).halted = s.halted := rfl
@[simp] theorem State.setRs2Value_clock (s : State) (v : Word) : (s.setRs2Value v).clock = s.clock := rfl
@[simp] theorem State.setRs2Value_completed (s : State) (v : Word) : (s.setRs2Value v).completed = s.completed := rfl
@[simp] theorem State.setRs2Value_dmem (s : State) (v : Word) : (s.setRs2Value v).dmem = s.dmem := rfl
@[simp] theorem State.setRs2Value_code (s : State) (v : Word) : (s.setRs2Value v).code = s.code := rfl
@[simp] theorem State.setRs2Value_F (s : State) (v : Word) : (s.setRs2Value v).F = s.F := rfl
@[simp] theorem State.setRs2Value_D (s : State) (v : Word) : (s.setRs2Value v).D = s.D := rfl
@[simp] theorem State.setRs2Value_E (s : State) (v : Word) : (s.setRs2Value v).E = { s.E with rs2Value := v } := rfl
@[simp] theorem State.setRs2Value_M (s : State) (v : Word) : (s.setRs2Value v).M = s.M := rfl
@[simp] theorem State.setRs2Value_W (s : State) (v : Word) : (s.setRs2Value v).W = s.W := rfl
@[simp] theorem State.setRs2Value_faulted (s : State) (v : Word) : (s.setRs2Value v).faulted = s.faulted := rfl

/-! ### `State.setFlags` -/

@[simp] theorem State.setFlags_regs (s : State) (v : Word) : (s.setFlags v).regs = s.regs := rfl
@[simp] theorem State.setFlags_busy (s : State) (v : Word) : (s.setFlags v).busy = s.busy := rfl
@[simp] theorem State.setFlags_pc (s : State) (v : Word) : (s.setFlags v).pc = s.pc := rfl
@[simp] theorem State.setFlags_flags (s : State) (v : Word) : (s.setFlags v).flags = flagsOf v := rfl
@[simp] theorem State.setFlags_stallPipeline (s : State) (v : Word) : (s.setFlags v).stallPipeline = s.stallPipeline := rfl
@[simp] theorem State.setFlags_fetchFromNextCycle (s : State) (v : Word) : (s.setFlags v).fetchFromNextCycle = s.fetchFromNextCycle := rfl
@[simp] theorem State.setFlags_halted (s : State) (v : Word) : (s.setFlags v).halted = s.halted := rfl
@[simp] theorem State.setFlags_clock (s : State) (v : Word) : (s.setFlags v).clock = s.clock := rfl
@[simp] theorem State.setFlags_completed (s : State) (v : Word) : (s.setFlags v).completed = s.completed := rfl
@[simp] theorem State.setFlags_dmem (s : State) (v : Word) : (s.setFlags v).dmem = s.dmem := rfl
@[simp] theorem State.setFlags_code (s : State) (v : Word) : (s.setFlags v).code = s.code := rfl
@[simp] theorem State.setFlags_F (s : State) (v : Word) : (s.setFlags v).F = s.F := rfl
@[simp] theorem State.setFlags_D (s : State) (v : Word) : (s.setFlags v).D = s.D := rfl
@[simp] theorem State.setFlags_E (s : State) (v : Word) : (s.setFlags v).E = s.E := rfl
@[simp] theorem State.setFlags_M (s : State) (v : Word) : (s.setFlags v).M = s.M := rfl
@[simp] theorem State.setFlags_W (s : State) (v : Word) : (s.setFlags v).W = s.W := rfl
@[simp] theorem State.setFlags_faulted (s : State) (v : Word) : (s.setFlags v).faulted = s.faulted := rfl

/-! ### `State.redirect` -/

@[simp] theorem State.redirect_regs (s : State) (t : Word) : (s.redirect t).regs = s.regs := rfl
@[simp] theorem State.redirect_busy (s : State) (t : Word) : (s.redirect t).busy = s.busy := rfl
@[simp] theorem State.redirect_pc (s : State) (t : Word) : (s.redirect t).pc = t := rfl
@[simp] theorem State.redirect_flags (s : State) (t : Word) : (s.redirect t).flags = s.flags := rfl
@[simp] theorem State.redirect_stallPipeline (s : State) (t : Word) : (s.redirect t).stallPipeline = s.stallPipeline := rfl
@[simp] theorem State.redirect_fetchFromNextCycle (s : State) (t : Word) : (s.redirect t).fetchFromNextCycle = true := rfl
@[simp] theorem State.redirect_halted (s : State) (t : Word) : (s.redirect t).halted = s.halted := rfl
@[simp] theorem State.redirect_clock (s : State) (t : Word) : (s.redirect t).clock = s.clock := rfl
@[simp] theorem State.redirect_completed (s : State) (t : Word) : (s.redirect t).completed = s.completed := rfl
@[simp] theorem State.redirect_dmem (s : State) (t : Word) : (s.redirect t).dmem = s.dmem := rfl
@[simp] theorem State.redirect_code (s : State) (t : Word) : (s.redirect t).code = s.code := rfl
@[simp] theorem State.redirect_F (s : State) (t : Word) : (s.redirect t).F = { s.F with valid := true } := rfl
@[simp] theorem State.redirect_D (s : State) (t : Word) : (s.redirect t).D = { s.D with valid := false } := rfl
@[simp] theorem State.redirect_E (s : State) (t : Word) : (s.redirect t).E = s.E := rfl
@[simp] theorem State.redirect_M (s : State) (t : Word) : (s.redirect t).M = s.M := rfl
@[simp] theorem State.redirect_W (s : State) (t : Word) : (s.redirect t).W = s.W := rfl
@[simp] theorem State.redirect_faulted (s : State) (t : Word) : (s.redirect t).faulted = s.faulted := rfl

/-! ### `State.tick` -/

@[simp] theorem State.tick_regs (s : State) : s.tick.regs = s.regs := rfl
@[simp] theorem State.tick_busy (s : State) : s.tick.busy = s.busy := rfl
@[simp] theorem State.tick_pc (s : State) : s.tick.pc = s.pc := rfl
@[simp] theorem State.tick_flags (s : State) : s.tick.flags = s.flags := rfl
@[simp] theorem State.tick_stallPipeline (s : State) : s.tick.stallPipeline = s.stallPipeline := rfl
@[simp] theorem State.tick_fetchFromNextCycle (s : State) : s.tick.fetchFromNextCycle = s.fetchFromNextCycle := rfl
@[simp] theorem State.tick_halted (s : State) : s.tick.halted = s.halted := rfl
@[simp] theorem State.tick_clock (s : State) : s.tick.clock = s.clock + 1 := rfl
@[simp] theorem State.tick_completed (s : State) : s.tick.completed = s.completed := rfl
@[simp] theorem State.tick_dmem (s : State) : s.tick.dmem = s.dmem := rfl
@[simp] theorem State.tick_code (s : State) : s.tick.code = s.code := rfl
@[simp] theorem State.tick_F (s : State) : s.tick.F = s.F := rfl
@[simp] theorem State.tick_D (s : State) : s.tick.D = s.D := rfl
@[simp] theorem State.tick_E (s : State) : s.tick.E = s.E := rfl
@[simp] theorem State.tick_M (s : State) : s.tick.M = s.M := rfl
@[simp] theorem State.tick_W (s : State) : s.tick.W = s.W := rfl
@[simp] theorem State.tick_faulted (s : State) : s.tick.faulted = s.faulted := rfl

/-! ### `passToW` -/

@[simp] theorem passToW_regs (s : State) : (passToW s).regs = s.regs := rfl
@[simp] theorem passToW_busy (s : State) : (passToW s).busy = s.busy := rfl
@[simp] theorem passToW_pc (s : State) : (passToW s).pc = s.pc := rfl
@[simp] theorem passToW_flags (s : State) : (passToW s).flags = s.flags := rfl
@[simp] theorem passToW_stallPipeline (s : State) : (passToW s).stallPipeline = s.stallPipeline := rfl
@[simp] theorem passToW_fetchFromNextCycle (s : State) : (passToW s).fetchFromNextCycle = s.fetchFromNextCycle := rfl
@[simp] theorem passToW_halted (s : State) : (passToW s).halted = s.halted := rfl
@[simp] theorem passToW_clock (s : State) : (passToW s).clock = s.clock := rfl
@[simp] theorem passToW_completed (s : State) : (passToW s).completed = s.completed := rfl
@[simp] theorem passToW_dmem (s : State) : (passToW s).dmem = s.dmem := rfl
@[simp] theorem passToW_code (s : State) : (passToW s).code = s.code := rfl
@[simp] theorem passToW_F (s : State) : (passToW s).F = s.F := rfl
@[simp] theorem passToW_D (s : State) : (passToW s).D = s.D := rfl
@[simp] theorem passToW_E (s : State) : (passToW s).E = s.E := rfl
@[simp] theorem passToW_M (s : State) : (passToW s).M = { s.M with valid := false } := rfl
@[simp] theorem passToW_W (s : State) : (passToW s).W = s.M := rfl
@[simp] theorem passToW_faulted (s : State) : (passToW s).faulted = s.faulted := rfl

/-! ### `passToM` -/

@[simp] theorem passToM_regs (s : State) : (passToM s).regs = s.regs := rfl
@[simp] theorem passToM_busy (s : State) : (passToM s).busy = s.busy := rfl
@[simp] theorem passToM_pc (s : State) : (passToM s).pc = s.pc := rfl
@[simp] theorem passToM_flags (s : State) : (passToM s).flags = s.flags := rfl
@[simp] theorem passToM_stallPipeline (s : State) : (passToM s).stallPipeline = s.stallPipeline := rfl
@[simp] theorem passToM_fetchFromNextCycle (s : State) : (passToM s).fetchFromNextCycle = s.fetchFromNextCycle := rfl
@[simp] theorem passToM_halted (s : State) : (passToM s).halted = s.halted := rfl
@[simp] theorem passToM_clock (s : State) : (passToM s).clock = s.clock := rfl
@[simp] theorem passToM_completed (s : State) : (passToM s).completed = s.completed := rfl
@[simp] theorem passToM_dmem (s : State) : (passToM s).dmem = s.dmem := rfl
@[simp] theorem passToM_code (s : State) : (passToM s).code = s.code := rfl
@[simp] theorem passToM_F (s : State) : (passToM s).F = s.F := rfl
@[simp] theorem passToM_D (s : State) : (passToM s).D = s.D := rfl
@[simp] theorem passToM_E (s : State) : (passToM s).E = { s.E with valid := false } := rfl
@[simp] theorem passToM_M (s : State) : (passToM s).M = s.E := rfl
@[simp] theorem passToM_W (s : State) : (passToM s).W = s.W := rfl
@[simp] theorem passToM_faulted (s : State) : (passToM s).faulted = s.faulted := rfl

/-! ### `retire` -/

@[simp] theorem retire_regs (i : Instr) (s : State) : (retire i s).regs = s.regs := rfl
@[simp] theorem retire_busy (i : Instr) (s : State) : (retire i s).busy = s.busy := rfl
@[simp] theorem retire_pc (i : Instr) (s : State) : (retire i s).pc = s.pc := rfl
@[simp] theorem retire_flags (i : Instr) (s : State) : (retire i s).flags = s.flags := rfl
@[simp] theorem retire_stallPipeline (i : Instr) (s : State) : (retire i s).stallPipeline = s.stallPipeline := rfl
@[simp] theorem retire_fetchFromNextCycle (i : Instr) (s : State) : (retire i s).fetchFromNextCycle = s.fetchFromNextCycle := rfl
@[simp] theorem retire_halted (i : Instr) (s : State) : (retire i s).halted = (s.halted || decide (i = .halt)) := rfl
@[simp] theorem retire_clock (i : Instr) (s : State) : (retire i s).clock = s.clock := rfl
@[simp] theorem retire_completed (i : Instr) (s : State) : (retire i s).completed = s.completed + 1 := rfl
@[simp] theorem retire_dmem (i : Instr) (s : State) : (retire i s).dmem = s.dmem := rfl
@[simp] theorem retire_code (i : Instr) (s : State) : (retire i s).code = s.code := rfl
@[simp] theorem retire_F (i : Instr) (s : State) : (retire i s).F = s.F := rfl
@[simp] theorem retire_D (i : Instr) (s : State) : (retire i s).D = s.D := rfl
@[simp] theorem retire_E (i : Instr) (s : State) : (retire i s).E = s.E := rfl
@[simp] theorem retire_M (i : Instr) (s : State) : (retire i s).M = s.M := rfl
@[simp] theorem retire_W (i : Instr) (s : State) : (retire i s).W = { s.W with valid := false } := rfl
@[simp] theorem retire_faulted (i : Instr) (s : State) : (retire i s).faulted = s.faulted := rfl

/-! ### `fillF` -/

@[simp] theorem fillF_regs (s : State) : (fillF s).regs = s.regs := rfl
@[simp] theorem fillF_busy (s : State) : (fillF s).busy = s.busy := rfl
@[simp] theorem fillF_pc (s : State) : (fillF s).pc = s.pc := rfl
@[simp] theorem fillF_flags (s : State) : (fillF s).flags = s.flags := rfl
@[simp] theorem fillF_stallPipeline (s : State) : (fillF s).stallPipeline = s.stallPipeline := rfl
@[simp] theorem fillF_fetchFromNextCycle (s : State) : (fillF s).fetchFromNextCycle = s.fetchFromNextCycle := rfl
@[simp] theorem fillF_halted (s : State) : (fillF s).halted = s.halted := rfl
@[simp] theorem fillF_clock (s : State) : (fillF s).clock = s.clock := rfl
@[simp] theorem fillF_completed (s : State) : (fillF s).completed = s.completed := rfl
@[simp] theorem fillF_dmem (s : State) : (fillF s).dmem = s.dmem := rfl
@[simp] theorem fillF_code (s : State) : (fillF s).code = s.code := rfl
@[simp] theorem fillF_F (s : State) : (fillF s).F = fetchedLatch s.F.valid s.pc (s.codeRead s.pc) := rfl
@[simp] theorem fillF_D (s : State) : (fillF s).D = s.D := rfl
@[simp] theorem fillF_E (s : State) : (fillF s).E = s.E := rfl
@[simp] theorem fillF_M (s : State) : (fillF s).M = s.M := rfl
@[simp] theorem fillF_W (s : State) : (fillF s).W = s.W := rfl
@[simp] theorem fillF_faulted (s : State) : (fillF s).faulted = s.faulted := rfl

/-! ### `handOff` -/

@[simp] theorem handOff_regs (s : State) : (handOff s).regs = s.regs := rfl
@[simp] theorem handOff_busy (s : State) : (handOff s).busy = s.busy := rfl
@[simp] theorem handOff_pc (s : State) : (handOff s).pc = nextPc s.pc := rfl
@[simp] theorem handOff_flags (s : State) : (handOff s).flags = s.flags := rfl
@[simp] theorem handOff_stallPipeline (s : State) : (handOff s).stallPipeline = s.stallPipeline := rfl
@[simp] theorem handOff_fetchFromNextCycle (s : State) : (handOff s).fetchFromNextCycle = s.fetchFromNextCycle := rfl
@[simp] theorem handOff_halted (s : State) : (handOff s).halted = s.halted := rfl
@[simp] theorem handOff_clock (s : State) : (handOff s).clock = s.clock := rfl
@[simp] theorem handOff_completed (s : State) : (handOff s).completed = s.completed := rfl
@[simp] theorem handOff_dmem (s : State) : (handOff s).dmem = s.dmem := rfl
@[simp] theorem handOff_code (s : State) : (handOff s).code = s.code := rfl
@[simp] theorem handOff_F (s : State) : (handOff s).F = { s.F with valid := s.F.valid && !decide (s.F.opcode = some .halt) } := rfl
@[simp] theorem handOff_D (s : State) : (handOff s).D = s.F := rfl
@[simp] theorem handOff_E (s : State) : (handOff s).E = s.E := rfl
@[simp] theorem handOff_M (s : State) : (handOff s).M = s.M := rfl
@[simp] theorem handOff_W (s : State) : (handOff s).W = s.W := rfl
@[simp] theorem handOff_faulted (s : State) : (handOff s).faulted = s.faulted := rfl

/-! ### `State.branchIf` -/

@[simp] theorem State.branchIf_regs (s : State) (c : Bool) (v : Word) : (s.branchIf c v).regs = s.regs := by
  cases c <;> rfl
@[simp] theorem State.branchIf_busy (s : State) (c : Bool) (v : Word) : (s.branchIf c v).busy = s.busy := by
  cases c <;> rfl
@[simp] theorem State.branchIf_flags (s : State) (c : Bool) (v : Word) : (s.branchIf c v).flags = s.flags := by
  cases c <;> rfl
@[simp] theorem State.branchIf_stallPipeline (s : State) (c : Bool) (v : Word) : (s.branchIf c v).stallPipeline = s.stallPipeline := by
  cases c <;> rfl
@[simp] theorem State.branchIf_halted (s : State) (c : Bool) (v : Word) : (s.branchIf c v).halted = s.halted := by
  cases c <;> rfl
@[simp] theorem State.branchIf_clock (s : State) (c : Bool) (v : Word) : (s.branchIf c v).clock = s.clock := by
  cases c <;> rfl
@[simp] theorem State.branchIf_completed (s : State) (c : Bool) (v : Word) : (s.branchIf c v).completed = s.completed := by
  cases c <;> rfl
@[simp] theorem State.branchIf_dmem (s : State) (c : Bool) (v : Word) : (s.branchIf c v).dmem = s.dmem := by
  cases c <;> rfl
@[simp] theorem State.branchIf_code (s : State) (c : Bool) (v : Word) : (s.branchIf c v).code = s.code := by
  cases c <;> rfl
@[simp] theorem State.branchIf_E (s : State) (c : Bool) (v : Word) : (s.branchIf c v).E = s.E := by
  cases c <;> rfl
@[simp] theorem State.branchIf_M (s : State) (c : Bool) (v : Word) : (s.branchIf c v).M = s.M := by
  cases c <;> rfl
@[simp] theorem State.branchIf_W (s : State) (c : Bool) (v : Word) : (s.branchIf c v).W = s.W := by
  cases c <;> rfl
@[simp] theorem State.branchIf_faulted (s : State) (c : Bool) (v : Word) : (s.branchIf c v).faulted = s.faulted := by
  cases c <;> rfl

@[simp] theorem State.branchIf_false (s : State) (v : Word) : s.branchIf false v = s := rfl
@[simp] theorem State.branchIf_true (s : State) (v : Word) : s.branchIf true v = s.redirect (s.E.pc + v) := rfl

/-! ### `State.markBusy` and `issue` -/

@[simp] theorem State.markBusy_regs (s : State) (fs : List Field) : (s.markBusy fs).regs = s.regs := by
  induction fs generalizing s with
  | nil => rfl
  | cons g fs ih => exact (ih _).trans rfl
@[simp] theorem State.markBusy_pc (s : State) (fs : List Field) : (s.markBusy fs).pc = s.pc := by
  induction fs generalizing s with
  | nil => rfl
  | cons g fs ih => exact (ih _).trans rfl
@[simp] theorem State.markBusy_flags (s : State) (fs : List Field) : (s.markBusy fs).flags = s.flags := by
  induction fs generalizing s with
  | nil => rfl
  | cons g fs ih => exact (ih _).trans rfl
@[simp] theorem State.markBusy_stallPipeline (s : State) (fs : List Field) : (s.markBusy fs).stallPipeline = s.stallPipeline := by
  induction fs generalizing s with
  | nil => rfl
  | cons g fs ih => exact (ih _).trans rfl
@[simp] theorem State.markBusy_fetchFromNextCycle (s : State) (fs : List Field) : (s.markBusy fs).fetchFromNextCycle = s.fetchFromNextCycle := by
  induction fs generalizing s with
  | nil => rfl
  | cons g fs ih => exact (ih _).trans rfl
@[simp] theorem State.markBusy_halted (s : State) (fs : List Field) : (s.markBusy fs).halted = s.halted := by
  induction fs generalizing s with
  | nil => rfl
  | cons g fs ih => exact (ih _).trans rfl
@[simp] theorem State.markBusy_clock (s : State) (fs : List Field) : (s.markBusy fs).clock = s.clock := by
  induction fs generalizing s with
  | nil => rfl
  | cons g fs ih => exact (ih _).trans rfl
@[simp] theorem State.markBusy_completed (s : State) (fs : List Field) : (s.markBusy fs).completed = s.completed := by
  induction fs generalizing s with
  | nil => rfl
  | cons g fs ih => exact (ih _).trans rfl
@[simp] theorem State.markBusy_dmem (s : State) (fs : List Field) : (s.markBusy fs).dmem = s.dmem := by
  induction fs generalizing s with
  | nil => rfl
  | cons g fs ih => exact (ih _).trans rfl
@[simp] theorem State.markBusy_code (s : State) (fs : List Field) : (s.markBusy fs).code = s.code := by
  induction fs generalizing s with
  | nil => rfl
  | cons g fs ih => exact (ih _).trans rfl
@[simp] theorem State.markBusy_F (s : State) (fs : List Field) : (s.markBusy fs).F = s.F := by
  induction fs generalizing s with
  | nil => rfl
  | cons g fs ih => exact (ih _).trans rfl
@[simp] theorem State.markBusy_D (s : State) (fs : List Field) : (s.markBusy fs).D = s.D := by
  induction fs generalizing s with
  | nil => rfl
  | cons g fs ih => exact (ih _).trans rfl
@[simp] theorem State.markBusy_E (s : State) (fs : List Field) : (s.markBusy fs).E = s.E := by
  induction fs generalizing s with
  | nil => rfl
  | cons g fs ih => exact (ih _).trans rfl
@[simp] theorem State.markBusy_M (s : State) (fs : List Field) : (s.markBusy fs).M = s.M := by
  induction fs generalizing s with
  | nil => rfl
  | cons g fs ih => exact (ih _).trans rfl
@[simp] theorem State.markBusy_W (s : State) (fs : List Field) : (s.markBusy fs).W = s.W := by
  induction fs generalizing s with
  | nil => rfl
  | cons g fs ih => exact (ih _).trans rfl
@[simp] theorem State.markBusy_faulted (s : State) (fs : List Field) : (s.markBusy fs).faulted = s.faulted := by
  induction fs generalizing s with
  | nil => rfl
  | cons g fs ih => exact (ih _).trans rfl

@[simp] theorem issue_regs (op : Opcode) (s : State) : (issue op s).regs = s.regs := State.markBusy_regs s _
@[simp] theorem issue_busy (op : Opcode) (s : State) : (issue op s).busy = (s.markBusy (dstFields op)).busy := rfl
@[simp] theorem issue_pc (op : Opcode) (s : State) : (issue op s).pc = s.pc := State.markBusy_pc s _
@[simp] theorem issue_flags (op : Opcode) (s : State) : (issue op s).flags = s.flags := State.markBusy_flags s _
@[simp] theorem issue_stallPipeline (op : Opcode) (s : State) : (issue op s).stallPipeline = false := rfl
@[simp] theorem issue_fetchFromNextCycle (op : Opcode) (s : State) : (issue op s).fetchFromNextCycle = s.fetchFromNextCycle := State.markBusy_fetchFromNextCycle s _
@[simp] theorem issue_halted (op : Opcode) (s : State) : (issue op s).halted = s.halted := State.markBusy_halted s _
@[simp] theorem issue_clock (op : Opcode) (s : State) : (issue op s).clock = s.clock := State.markBusy_clock s _
@[simp] theorem issue_completed (op : Opcode) (s : State) : (issue op s).completed = s.completed := State.markBusy_completed s _
@[simp] theorem issue_dmem (op : Opcode) (s : State) : (issue op s).dmem = s.dmem := State.markBusy_dmem s _
@[simp] theorem issue_code (op : Opcode) (s : State) : (issue op s).code = s.code := State.markBusy_code s _
@[simp] theorem issue_F (op : Opcode) (s : State) : (issue op s).F = s.F := State.markBusy_F s _
@[simp] theorem issue_D (op : Opcode) (s : State) : (issue op s).D = { s.D with valid := false } := rfl
@[simp] theorem issue_E (op : Opcode) (s : State) : (issue op s).E = s.D := rfl
@[simp] theorem issue_M (op : Opcode) (s : State) : (issue op s).M = s.M := State.markBusy_M s _
@[simp] theorem issue_W (op : Opcode) (s : State) : (issue op s).W = s.W := State.markBusy_W s _
@[simp] theorem issue_faulted (op : Opcode) (s : State) : (issue op s).faulted = s.faulted := State.markBusy_faulted s _

/-! ### Operand resolution: only `D`'s value fields and busy bits change -/

@[simp] theorem State.resolveOperand_regs (s : State) (g : Field) : (s.resolveOperand g).1.regs = s.regs := by
  unfold State.resolveOperand
  split <;> rfl

@[simp] theorem State.resolveOperands_regs (s : State) (gs : List Field) : (s.resolveOperands gs).1.regs = s.regs := by
  induction gs generalizing s with
  | nil => rfl
  | cons g gs ih => exact (ih _).trans (s.resolveOperand_regs g)

@[simp] theorem State.resolveOperand_pc (s : State) (g : Field) : (s.resolveOperand g).1.pc = s.pc := by
  unfold State.resolveOperand
  split <;> rfl

@[simp] theorem State.resolveOperands_pc (s : State) (gs : List Field) : (s.resolveOperands gs).1.pc = s.pc := by
  induction gs generalizing s with
  | nil => rfl
  | cons g gs ih => exact (ih _).trans (s.resolveOperand_pc g)

@[simp] theorem State.resolveOperand_flags (s : State) (g : Field) : (s.resolveOperand g).1.flags = s.flags := by
  unfold State.resolveOperand
  split <;> rfl

@[simp] theorem State.resolveOperands_flags (s : State) (gs : List Field) : (s.resolveOperands gs).1.flags = s.flags := by
  induction gs generalizing s with
  | nil => rfl
  | cons g gs ih => exact (ih _).trans (s.resolveOperand_flags g)

@[simp] theorem State.resolveOperand_stallPipeline (s : State) (g : Field) : (s.resolveOperand g).1.stallPipeline = s.stallPipeline := by
  unfold State.resolveOperand
  split <;> rfl

@[simp] theorem State.resolveOperands_stallPipeline (s : State) (gs : List Field) : (s.resolveOperands gs).1.stallPipeline = s.stallPipeline := by
  induction gs generalizing s with
  | nil => rfl
  | cons g gs ih => exact (ih _).trans (s.resolveOperand_stallPipeline g)

@[simp] theorem State.resolveOperand_fetchFromNextCycle (s : State) (g : Field) : (s.resolveOperand g).1.fetchFromNextCycle = s.fetchFromNextCycle := by
  unfold State.resolveOperand
  split <;> rfl

@[simp] theorem State.resolveOperands_fetchFromNextCycle (s : State) (gs : List Field) : (s.resolveOperands gs).1.fetchFromNextCycle = s.fetchFromNextCycle := by
  induction gs generalizing s with
  | nil => rfl
  | cons g gs ih => exact (ih _).trans (s.resolveOperand_fetchFromNextCycle g)

@[simp] theorem State.resolveOperand_halted (s : State) (g : Field) : (s.resolveOperand g).1.halted = s.halted := by
  unfold State.resolveOperand
  split <;> rfl

@[simp] theorem State.resolveOperands_halted (s : State) (gs : List Field) : (s.resolveOperands gs).1.halted = s.halted := by
  induction gs generalizing s with
  | nil => rfl
  | cons g gs ih => exact (ih _).trans (s.resolveOperand_halted g)

@[simp] theorem State.resolveOperand_clock (s : State) (g : Field) : (s.resolveOperand g).1.clock = s.clock := by
  unfold State.resolveOperand
  split <;> rfl

@[simp] theorem State.resolveOperands_clock (s : State) (gs : List Field) : (s.resolveOperands gs).1.clock = s.clock := by
  induction gs generalizing s with
  | nil => rfl
  | cons g gs ih => exact (ih _).trans (s.resolveOperand_clock g)

@[simp] theorem State.resolveOperand_completed (s : State) (g : Field) : (s.resolveOperand g).1.completed = s.completed := by
  unfold State.resolveOperand
  split <;> rfl

@[simp] theorem State.resolveOperands_completed (s : State) (gs : List Field) : (s.resolveOperands gs).1.completed = s.completed := by
  induction gs generalizing s with
  | nil => rfl
  | cons g gs ih => exact (ih _).trans (s.resolveOperand_completed g)

@[simp] theorem State.resolveOperand_dmem (s : State) (g : Field) : (s.resolveOperand g).1.dmem = s.dmem := by
  unfold State.resolveOperand
  split <;> rfl

@[simp] theorem State.resolveOperands_dmem (s : State) (gs : List Field) : (s.resolveOperands gs).1.dmem = s.dmem := by
  induction gs generalizing s with
  | nil => rfl
  | cons g gs ih => exact (ih _).trans (s.resolveOperand_dmem g)

@[simp] theorem State.resolveOperand_code (s : State) (g : Field) : (s.resolveOperand g).1.code = s.code := by
  unfold State.resolveOperand
  split <;> rfl

@[simp] theorem State.resolveOperands_code (s : State) (gs : List Field) : (s.resolveOperands gs).1.code = s.code := by
  induction gs generalizing s with
  | nil => rfl
  | cons g gs ih => exact (ih _).trans (s.resolveOperand_code g)

@[simp] theorem State.resolveOperand_F (s : State) (g : Field) : (s.resolveOperand g).1.F = s.F := by
  unfold State.resolveOperand
  split <;> rfl

@[simp] theorem State.resolveOperands_F (s : State) (gs : List Field) : (s.resolveOperands gs).1.F = s.F := by
  induction gs generalizing s with
  | nil => rfl
  | cons g gs ih => exact (ih _).trans (s.resolveOperand_F g)

@[simp] theorem State.resolveOperand_E (s : State) (g : Field) : (s.resolveOperand g).1.E = s.E := by
  unfold State.resolveOperand
  split <;> rfl

@[simp] theorem State.resolveOperands_E (s : State) (gs : List Field) : (s.resolveOperands gs).1.E = s.E := by
  induction gs generalizing s with
  | nil => rfl
  | cons g gs ih => exact (ih _).trans (s.resolveOperand_E g)

@[simp] theorem State.resolveOperand_M (s : State) (g : Field) : (s.resolveOperand g).1.M = s.M := by
  unfold State.resolveOperand
  split <;> rfl

@[simp] theorem State.resolveOperands_M (s : State) (gs : List Field) : (s.resolveOperands gs).1.M = s.M := by
  induction gs generalizing s with
  | nil => rfl
  | cons g gs ih => exact (ih _).trans (s.resolveOperand_M g)

@[simp] theorem State.resolveOperand_W (s : State) (g : Field) : (s.resolveOperand g).1.W = s.W := by
  unfold State.resolveOperand
  split <;> rfl

@[simp] theorem State.resolveOperands_W (s : State) (gs : List Field) : (s.resolveOperands gs).1.W = s.W := by
  induction gs generalizing s with
  | nil => rfl
  | cons g gs ih => exact (ih _).trans (s.resolveOperand_W g)

@[simp] theorem State.resolveOperand_faulted (s : State) (g : Field) : (s.resolveOperand g).1.faulted = s.faulted := by
  unfold State.resolveOperand
  split <;> rfl

@[simp] theorem State.resolveOperands_faulted (s : State) (gs : List Field) : (s.resolveOperands gs).1.faulted = s.faulted := by
  induction gs generalizing s with
  | nil => rfl
  | cons g gs ih => exact (ih _).trans (s.resolveOperand_faulted g)

/-! ### `commit`: only registers and busy bits change -/

@[simp] theorem commit_pc (i : Instr) (s : State) : (commit i s).pc = s.pc := by
  cases i <;> rfl
@[simp] theorem commit_flags (i : Instr) (s : State) : (commit i s).flags = s.flags := by
  cases i <;> rfl
@[simp] theorem commit_stallPipeline (i : Instr) (s : State) : (commit i s).stallPipeline = s.stallPipeline := by
  cases i <;> rfl
@[simp] theorem commit_fetchFromNextCycle (i : Instr) (s : State) : (commit i s).fetchFromNextCycle = s.fetchFromNextCycle := by
  cases i <;> rfl
@[simp] theorem commit_halted (i : Instr) (s : State) : (commit i s).halted = s.halted := by
  cases i <;> rfl
@[simp] theorem commit_clock (i : Instr) (s : State) : (commit i s).clock = s.clock := by
  cases i <;> rfl
@[simp] theorem commit_completed (i : Instr) (s : State) : (commit i s).completed = s.completed := by
  cases i <;> rfl
@[simp] theorem commit_dmem (i : Instr) (s : State) : (commit i s).dmem = s.dmem := by
  cases i <;> rfl
@[simp] theorem commit_code (i : Instr) (s : State) : (commit i s).code = s.code := by
  cases i <;> rfl
@[simp] theorem commit_F (i : Instr) (s : State) : (commit i s).F = s.F := by
  cases i <;> rfl
@[simp] theorem commit_D (i : Instr) (s : State) : (commit i s).D = s.D := by
  cases i <;> rfl
@[simp] theorem commit_E (i : Instr) (s : State) : (commit i s).E = s.E := by
  cases i <;> rfl
@[simp] theorem commit_M (i : Instr) (s : State) : (commit i s).M = s.M := by
  cases i <;> rfl
@[simp] theorem commit_W (i : Instr) (s : State) : (commit i s).W = s.W := by
  cases i <;> rfl
@[simp] theorem commit_faulted (i : Instr) (s : State) : (commit i s).faulted = s.faulted := by
  cases i <;> rfl

end Sys2Proof.Machine
end

