-- ==== Sys2Proof/Laws/Registers.lean ====
section
/-! SUPPORT. Registers and busy bits: read after write. -/

namespace Sys2Proof.Machine

theorem getD_setIfInBounds {α : Type} {n : Nat} (v : Vector α n) (i j : Nat) (x d : α) :
    (v.setIfInBounds i x)[j]?.getD d = if j = i ∧ i < n then x else v[j]?.getD d := by
  by_cases h : j = i
  · subst h
    by_cases hn : j < n
    · simp [hn]
    · simp [hn]
  · have h' : i ≠ j := fun e => h e.symm
    simp [h, Vector.getElem?_setIfInBounds_ne h']

/-- Read after write of a register (10_state.md R20: none is hardwired). -/
theorem State.readReg_writeReg (s : State) (i j : RegIndex) (v : Word) :
    (s.writeReg i v).readReg j = if j = i ∧ i.toNat < Config.nregs then v else s.readReg j := by
  simp only [State.readReg, State.writeReg_regs, getD_setIfInBounds, BitVec.toNat_inj]

/-- Read after write of a busy bit (10_state.md R24). -/
theorem State.readBusy_setBusy (s : State) (i j : RegIndex) (b : Bool) :
    (s.setBusy i b).readBusy j = if j = i ∧ i.toNat < Config.nregs then b else s.readBusy j := by
  simp only [State.readBusy, State.setBusy_busy, getD_setIfInBounds, BitVec.toNat_inj]

theorem State.readReg_congr {s t : State} (h : t.regs = s.regs) (i : RegIndex) : t.readReg i = s.readReg i := by
  simp [State.readReg, h]

theorem State.readBusy_congr {s t : State} (h : t.busy = s.busy) (i : RegIndex) : t.readBusy i = s.readBusy i := by
  simp [State.readBusy, h]

@[simp] theorem State.readReg_setBusy (s : State) (i j : RegIndex) (b : Bool) :
    (s.setBusy i b).readReg j = s.readReg j := rfl

@[simp] theorem State.readBusy_writeReg (s : State) (i j : RegIndex) (v : Word) :
    (s.writeReg i v).readBusy j = s.readBusy j := rfl

/-- What Writeback leaves in a register (40_pipeline.md R110). -/
theorem State.readReg_commitReg (s : State) (i j : RegIndex) (v : Word) :
    (s.commitReg i v).readReg j = if j = i ∧ i.toNat < Config.nregs then v else s.readReg j :=
  s.readReg_writeReg i j v

/-- What Writeback leaves in a busy bit (40_pipeline.md R110). -/
theorem State.readBusy_commitReg (s : State) (i j : RegIndex) (v : Word) :
    (s.commitReg i v).readBusy j = if j = i ∧ i.toNat < Config.nregs then false else s.readBusy j :=
  State.readBusy_setBusy _ i j false

/-- Clearing a busy bit never sets one. -/
theorem State.readBusy_setBusy_false {s : State} {i j : RegIndex} (h : (s.setBusy i false).readBusy j = true) :
    s.readBusy j = true ∧ (j = i → ¬ i.toNat < Config.nregs) := by
  rw [State.readBusy_setBusy] at h
  split at h
  · cases h
  · next hn => exact ⟨h, fun e hi => hn ⟨e, hi⟩⟩

end Sys2Proof.Machine
end

