-- ==== Sys2Proof/Laws/Operands.lean ====
section
/-! SUPPORT. Latches as instructions, the operand sets, the Decode checks, the flag computation and the forwarding unit. -/

namespace Sys2Proof.Machine

/-! ### A latch as an instruction -/

@[simp] theorem opcode_instr (op : Opcode) (rd rs1 rs2 : RegIndex) (imm : Word) :
    (op.instr rd rs1 rs2 imm).opcode = op := by
  cases op <;> rfl

/-- A legal latch holds an opcode and its instruction is built from the latch's own fields. -/
theorem Latch.instr_eq_some {l : Latch} {i : Instr} :
    l.instr = some i ↔ l.opcode = some i.opcode ∧ i = i.opcode.instr l.rd l.rs1 l.rs2 l.imm ∧ i.wellFormed = true := by
  unfold Latch.instr
  constructor
  · intro h
    split at h
    · next op hop =>
      split at h
      · next hw =>
        cases h
        simp [hop, hw]
      · cases h
    · cases h
  · rintro ⟨hop, hi, hw⟩
    rw [hop]
    simp only [← hi, hw, if_true]

theorem Latch.opcode_of_instr {l : Latch} {i : Instr} (h : l.instr = some i) : l.opcode = some i.opcode :=
  (Latch.instr_eq_some.1 h).1

/-- Two latches with the same record hold the same opcode. -/
theorem Latch.opcode_congr {l m : Latch} (h : m.op = l.op) : m.opcode = l.opcode := by
  simp [Latch.opcode, h]

/-- The record part of a latch: everything Fetch reads from the code memory, and the address. -/
structure Latch.SameRecord (l m : Latch) : Prop where
  pc : m.pc = l.pc
  op : m.op = l.op
  rd : m.rd = l.rd
  rs1 : m.rs1 = l.rs1
  rs2 : m.rs2 = l.rs2
  imm : m.imm = l.imm

theorem Latch.SameRecord.refl (l : Latch) : l.SameRecord l := ⟨rfl, rfl, rfl, rfl, rfl, rfl⟩

theorem Latch.SameRecord.trans {l m n : Latch} (h : l.SameRecord m) (k : m.SameRecord n) : l.SameRecord n :=
  ⟨k.pc.trans h.pc, k.op.trans h.op, k.rd.trans h.rd, k.rs1.trans h.rs1, k.rs2.trans h.rs2, k.imm.trans h.imm⟩

theorem Latch.SameRecord.opcode {l m : Latch} (h : l.SameRecord m) : m.opcode = l.opcode := Latch.opcode_congr h.op

theorem Latch.SameRecord.field {l m : Latch} (h : l.SameRecord m) (f : Field) : m.field f = l.field f := by
  cases f <;> simp [Latch.field, h.rd, h.rs1, h.rs2]

theorem Latch.SameRecord.instr {l m : Latch} (h : l.SameRecord m) : m.instr = l.instr := by
  unfold Latch.instr
  rw [h.opcode, h.rd, h.rs1, h.rs2, h.imm]

theorem Latch.setValue_sameRecord (l : Latch) (f : Field) (v : Word) : l.SameRecord (l.setValue f v) := by
  cases f <;> exact ⟨rfl, rfl, rfl, rfl, rfl, rfl⟩

@[simp] theorem Latch.setValue_valid (l : Latch) (f : Field) (v : Word) : (l.setValue f v).valid = l.valid := by
  cases f <;> rfl

@[simp] theorem Latch.setValid_opcode (l : Latch) (b : Bool) : Latch.opcode { l with valid := b } = l.opcode := rfl
@[simp] theorem Latch.setValid_instr (l : Latch) (b : Bool) : Latch.instr { l with valid := b } = l.instr := rfl
@[simp] theorem Latch.setValid_field (l : Latch) (b : Bool) (f : Field) :
    Latch.field { l with valid := b } f = l.field f := by cases f <;> rfl

/-! ### Operand sets -/

/-- Every destination field is a field the format uses, so Decode has checked it (40_pipeline.md R139, R142). -/
theorem dstFields_subset (op : Opcode) {f : Field} (h : f ∈ dstFields op) : f ∈ op.format.fields := by
  cases op <;> cases f <;> simp_all [dstFields, Opcode.format, Format.fields]

/-- Every source field is a field the format uses (40_pipeline.md R136, R142). -/
theorem srcFields_subset (op : Opcode) {f : Field} (h : f ∈ srcFields op) : f ∈ op.format.fields := by
  cases op <;> cases f <;> simp_all [srcFields, Opcode.format, Format.fields]

/-- The source sets never hold `rd` (40_pipeline.md R136). -/
theorem rd_not_mem_srcFields (op : Opcode) : Field.rd ∉ srcFields op := by
  cases op <;> simp [srcFields]

/-- `DestRd` is the set of opcodes with `rd` among their destinations (00_scope.md R15; 40_pipeline.md R139). -/
theorem destRd_iff (op : Opcode) : destRd op = true ↔ Field.rd ∈ dstFields op := by
  cases op <;> simp [destRd, dstFields]

/-- Well-formedness is the check of every used field (30_encoding.md R76). -/
theorem wellFormed_instr_iff (op : Opcode) (l : Latch) :
    (op.instr l.rd l.rs1 l.rs2 l.imm).wellFormed = true ↔
      ∀ f ∈ op.format.fields, (l.field f).toNat < Config.nregs := by
  cases op <;>
    simp [Opcode.instr, Instr.wellFormed, Opcode.format, Format.fields, Latch.field, RegIndex.inRange, and_assoc]

/-- Every used field of a legal latch names a register. -/
theorem Latch.field_lt {l : Latch} {i : Instr} (h : l.instr = some i) {f : Field} (hf : f ∈ i.opcode.format.fields) :
    (l.field f).toNat < Config.nregs := by
  obtain ⟨-, hi, hw⟩ := Latch.instr_eq_some.1 h
  rw [hi] at hw
  exact (wellFormed_instr_iff _ _).1 hw f hf

/-- The destination set of a valid latch (40_pipeline.md R139). -/
theorem Latch.writes_iff {l : Latch} {op : Opcode} (h : l.opcode = some op) (r : RegIndex) :
    l.writes r = true ↔ l.valid = true ∧ ∃ f ∈ dstFields op, l.field f = r := by
  simp [Latch.writes, h]

theorem Latch.writes_valid {l : Latch} {r : RegIndex} (h : l.writes r = true) : l.valid = true := by
  unfold Latch.writes at h
  revert h
  cases l.valid <;> simp

theorem Latch.writes_congr {l m : Latch} (h : l.SameRecord m) (hv : m.valid = l.valid) (r : RegIndex) :
    m.writes r = l.writes r := by
  unfold Latch.writes
  rw [h.opcode, hv]
  simp only [h.field]

/-! ### Decode checks -/

/-- What `CheckDecode` lets through is exactly what a later stage accepts (40_pipeline.md R142). -/
theorem checkDecode_ok_iff {l : Latch} {op : Opcode} :
    checkDecode l = .ok op ↔ l.opcode = some op ∧ ∀ f ∈ op.format.fields, (l.field f).toNat < Config.nregs := by
  unfold checkDecode Latch.opcode
  cases l.op with
  | badFetch => simp
  | number n =>
    cases hn : Opcode.ofNumber n with
    | none => simp [hn]
    | some o =>
      simp only [hn]
      cases hb : badField o l with
      | some f =>
        have h1 := List.find?_some hb
        have h2 := List.mem_of_find?_eq_some hb
        simp only [RegIndex.inRange, Bool.not_eq_true', decide_eq_false_iff_not] at h1
        simp only [Option.some.injEq, reduceCtorEq, false_iff, not_and]
        rintro rfl hall
        exact h1 (hall f h2)
      | none =>
        have h1 := List.find?_eq_none.1 hb
        simp only [RegIndex.inRange, Bool.not_eq_true', decide_eq_false_iff_not, not_not] at h1
        simp only [Except.ok.injEq, Option.some.injEq]
        constructor
        · rintro rfl
          exact ⟨rfl, h1⟩
        · exact And.left

theorem instr_of_checkDecode {l : Latch} {op : Opcode} (h : checkDecode l = .ok op) :
    l.instr = some (op.instr l.rd l.rs1 l.rs2 l.imm) := by
  obtain ⟨hop, hall⟩ := checkDecode_ok_iff.1 h
  exact Latch.instr_eq_some.2 ⟨by simpa using hop, by simp, (wellFormed_instr_iff op l).2 hall⟩

theorem checkDecode_congr {l m : Latch} (h : l.SameRecord m) : checkDecode m = checkDecode l := by
  unfold checkDecode badField
  rw [h.op, h.pc]
  simp only [h.field]

/-! ### Flags -/

/-- `SetFlags` leaves exactly one flag set (10_state.md R29). -/
theorem flagsOf_oneHot (v : Word) : (flagsOf v).oneHot = true := by
  have hz : v = 0#32 ↔ v.toInt = 0 := by
    constructor
    · rintro rfl; rfl
    · intro h; exact BitVec.eq_of_toInt_eq (by simpa using h)
  simp only [Flags.oneHot, flagsOf, hz, Bool.or_eq_true, Bool.and_eq_true, Bool.not_eq_true', decide_eq_true_eq,
    decide_eq_false_iff_not]
  omega

/-! ### Forwarding unit -/

/-- `Forward(r)` misses exactly when no valid latch in `M` or `W` has `r` in its destination set (40_pipeline.md R130). -/
theorem forward_eq_miss_iff {s : State} {r : RegIndex} :
    s.forward r = .miss ↔ s.M.writes r = false ∧ s.W.writes r = false := by
  have hM : forwardFromM s.M r = none ↔ s.M.writes r = false := by
    unfold forwardFromM Latch.writes
    cases s.M.valid <;> cases s.M.opcode with
      | none => simp
      | some op =>
        cases op <;> simp [destRd, isLoad, dstFields, Latch.field] <;>
          (try by_cases h : s.M.rd = r <;> by_cases k : s.M.rs1 = r <;> by_cases j : s.M.rs2 = r <;> simp [h, k, j])
  have hW : forwardFromW s.W r = none ↔ s.W.writes r = false := by
    unfold forwardFromW Latch.writes
    cases s.W.valid <;> cases s.W.opcode with
      | none => simp
      | some op =>
        cases op <;> simp [destRd, dstFields, Latch.field] <;>
          (try by_cases h : s.W.rd = r <;> by_cases k : s.W.rs1 = r <;> by_cases j : s.W.rs2 = r <;> simp [h, k, j])
  have hnm : forwardFromM s.M r ≠ some .miss := by
    unfold forwardFromM
    split
    · repeat' split
      all_goals simp
    · simp
  have hnw : forwardFromW s.W r ≠ some .miss := by
    unfold forwardFromW
    split
    · repeat' split
      all_goals simp
    · simp
  rw [← hM, ← hW]
  unfold State.forward
  cases h1 : forwardFromM s.M r with
  | some a =>
    simp only [reduceCtorEq, false_and, iff_false]
    rintro rfl
    exact hnm h1
  | none =>
    cases h2 : forwardFromW s.W r with
    | some a =>
      simp only [reduceCtorEq, and_false, iff_false]
      rintro rfl
      exact hnw h2
    | none => simp

/-- `Forward(r)` blocks exactly on a load in `M` with destination `r` (40_pipeline.md R131). -/
theorem forward_eq_block_iff {s : State} {r : RegIndex} :
    s.forward r = .block ↔ s.M.valid = true ∧ ∃ op, s.M.opcode = some op ∧ isLoad op = true ∧ s.M.rd = r := by
  have hnw : forwardFromW s.W r ≠ some .block := by
    unfold forwardFromW
    split
    · repeat' split
      all_goals simp
    · simp
  have hM : forwardFromM s.M r = some .block ↔
      s.M.valid = true ∧ ∃ op, s.M.opcode = some op ∧ isLoad op = true ∧ s.M.rd = r := by
    unfold forwardFromM
    cases s.M.valid <;> cases s.M.opcode with
      | none => simp
      | some op =>
        cases op <;> simp [destRd, isLoad]
  rw [← hM]
  unfold State.forward
  cases h1 : forwardFromM s.M r with
  | some a => simp
  | none =>
    cases h2 : forwardFromW s.W r with
    | some a =>
      simp only [reduceCtorEq, iff_false]
      rintro rfl
      exact hnw h2
    | none => simp

/-! ### Operand resolution -/

/-- Resolving operands changes only the value fields of `D`. -/
theorem State.resolveOperand_D (s : State) (f : Field) : s.D.SameRecord (s.resolveOperand f).1.D := by
  unfold State.resolveOperand
  split
  · exact s.D.setValue_sameRecord f _
  · exact .refl _
  · exact s.D.setValue_sameRecord f _

theorem State.resolveOperands_D (s : State) (fs : List Field) : s.D.SameRecord (s.resolveOperands fs).1.D := by
  induction fs generalizing s with
  | nil => exact .refl _
  | cons f fs ih => exact (s.resolveOperand_D f).trans (ih _)

@[simp] theorem State.resolveOperand_D_valid (s : State) (f : Field) :
    (s.resolveOperand f).1.D.valid = s.D.valid := by
  unfold State.resolveOperand
  split <;> simp

@[simp] theorem State.resolveOperands_D_valid (s : State) (fs : List Field) :
    (s.resolveOperands fs).1.D.valid = s.D.valid := by
  induction fs generalizing s with
  | nil => rfl
  | cons f fs ih => exact (ih _).trans (s.resolveOperand_D_valid f)

/-- Resolving operands sets no busy bit (40_pipeline.md R135). -/
theorem State.resolveOperand_busy {s : State} {f : Field} {r : RegIndex}
    (h : (s.resolveOperand f).1.readBusy r = true) : s.readBusy r = true := by
  unfold State.resolveOperand at h
  split at h
  · exact (State.readBusy_setBusy_false h).1
  · exact h
  · exact h

theorem State.resolveOperands_busy {s : State} {fs : List Field} {r : RegIndex}
    (h : (s.resolveOperands fs).1.readBusy r = true) : s.readBusy r = true := by
  induction fs generalizing s with
  | nil => exact h
  | cons f fs ih => exact State.resolveOperand_busy (ih h)

theorem State.forward_congr {s t : State} (hm : t.M = s.M) (hw : t.W = s.W) (r : RegIndex) :
    t.forward r = s.forward r := by
  simp [State.forward, hm, hw]

/-- When no missed register is busy, an operand set is ready exactly when none of its registers blocks
(40_pipeline.md R137, R143). -/
theorem State.resolveOperands_ready_iff {s : State} (hm : ∀ r, s.forward r = .miss → s.readBusy r = false)
    (fs : List Field) :
    (s.resolveOperands fs).2 = true ↔ ∀ f ∈ fs, s.forward (s.D.field f) ≠ .block := by
  induction fs generalizing s with
  | nil => simp [State.resolveOperands]
  | cons f fs ih =>
    have hfwd : ∀ r, (s.resolveOperand f).1.forward r = s.forward r := fun r =>
      State.forward_congr (by simp) (by simp) r
    have h1 : (s.resolveOperand f).2 = true ↔ s.forward (s.D.field f) ≠ .block := by
      unfold State.resolveOperand
      split
      · next h => simp [h]
      · next h => simp [h]
      · next h => simp [h, hm _ h]
    have h2 := ih (s := (s.resolveOperand f).1) fun r hr => by
      rw [hfwd] at hr
      cases hb : (s.resolveOperand f).1.readBusy r with
      | false => rfl
      | true => exact (State.resolveOperand_busy hb).symm.trans (hm r hr)
    simp only [State.resolveOperands, Bool.and_eq_true, h1, h2, List.mem_cons, forall_eq_or_imp, hfwd,
      (s.resolveOperand_D f).field]

/-! ### Issue -/

/-- Marking busy sets exactly the destinations (40_pipeline.md R138). -/
theorem State.readBusy_markBusy {s : State} {fs : List Field} {r : RegIndex}
    (h : (s.markBusy fs).readBusy r = true) : s.readBusy r = true ∨ ∃ f ∈ fs, s.D.field f = r := by
  induction fs generalizing s with
  | nil => exact .inl h
  | cons f fs ih =>
    rcases ih h with h | ⟨g, hg, hr⟩
    · rw [State.readBusy_setBusy] at h
      split at h
      · next hc => exact .inr ⟨f, List.mem_cons_self .., hc.1.symm⟩
      · exact .inl h
    · exact .inr ⟨g, List.mem_cons_of_mem _ hg, hr⟩

theorem State.markBusy_of_busy {s : State} {fs : List Field} {r : RegIndex} (h : s.readBusy r = true) :
    (s.markBusy fs).readBusy r = true := by
  induction fs generalizing s with
  | nil => exact h
  | cons f fs ih =>
    refine ih ?_
    rw [State.readBusy_setBusy]
    split
    · rfl
    · exact h

theorem State.markBusy_of_mem {s : State} {fs : List Field} {f : Field} (hf : f ∈ fs)
    (hr : (s.D.field f).toNat < Config.nregs) : (s.markBusy fs).readBusy (s.D.field f) = true := by
  induction fs generalizing s with
  | nil => cases hf
  | cons g fs ih =>
    rcases List.mem_cons.1 hf with rfl | hf
    · exact State.markBusy_of_busy (s := s.setBusy (s.D.field f) true) (by rw [State.readBusy_setBusy]; simp [hr])
    · exact ih (s := s.setBusy (s.D.field g) true) hf hr

end Sys2Proof.Machine
end

