-- ==== Sys2Proof/Laws/Outcome.lean ====
section
/-! SUPPORT. Sequencing of outcomes: what a sequence that answers `next`, `fault` or `refused` went through. -/

namespace Sys2Proof.Machine

@[simp] theorem andThen_next (s : State) (f : State → Result) : andThen (.next s) f = f s := rfl
@[simp] theorem andThen_fault (e : Fault) (f : State → Result) : andThen (.fault e) f = .fault e := rfl
@[simp] theorem andThen_refused (e : Refusal) (f : State → Result) : andThen (.refused e) f = .refused e := rfl
@[simp] theorem andThen_raise (e : Fault) (f : State → Result) : andThen (raise e) f = .fault e := rfl

theorem andThen_eq_next {r : Result} {f : State → Result} {t : State} :
    andThen r f = .next t ↔ ∃ s, r = .next s ∧ f s = .next t := by
  cases r <;> simp

theorem andThen_eq_fault {r : Result} {f : State → Result} {e : Fault} :
    andThen r f = .fault e ↔ r = .fault e ∨ ∃ s, r = .next s ∧ f s = .fault e := by
  cases r <;> simp

theorem andThen_eq_refused {r : Result} {f : State → Result} {e : Refusal} :
    andThen r f = .refused e ↔ r = .refused e ∨ ∃ s, r = .next s ∧ f s = .refused e := by
  cases r <;> simp

theorem andThen_assoc (r : Result) (f g : State → Result) :
    andThen (andThen r f) g = andThen r fun s => andThen (f s) g := by
  cases r <;> rfl

end Sys2Proof.Machine
end

