-- ==== Sys2Proof/Laws/PerInstr.lean ====
section
/-! SUPPORT. The per-instruction family `RecordRoundTrip`: the record an encoder writes is read back as the instruction it
came from, with every operand at every value (30_encoding.md R70, R71, R73, R74). -/

namespace Sys2Proof.Laws.RecordRoundTrip

/-- The record of `i` is read as `i`. -/
def Statement (i : Instr) : Prop := i.toRecord.instr = .ok i

theorem add (rd rs1 rs2 : RegIndex) : Statement (.add rd rs1 rs2) := rfl
theorem sub (rd rs1 rs2 : RegIndex) : Statement (.sub rd rs1 rs2) := rfl
theorem mul (rd rs1 rs2 : RegIndex) : Statement (.mul rd rs1 rs2) := rfl
theorem addl (rd rs1 : RegIndex) (imm : Word) : Statement (.addl rd rs1 imm) := rfl
theorem subl (rd rs1 : RegIndex) (imm : Word) : Statement (.subl rd rs1 imm) := rfl
theorem and (rd rs1 rs2 : RegIndex) : Statement (.and rd rs1 rs2) := rfl
theorem or (rd rs1 rs2 : RegIndex) : Statement (.or rd rs1 rs2) := rfl
theorem xor (rd rs1 rs2 : RegIndex) : Statement (.xor rd rs1 rs2) := rfl
theorem cmp (rs1 rs2 : RegIndex) : Statement (.cmp rs1 rs2) := rfl
theorem cml (rs1 : RegIndex) (imm : Word) : Statement (.cml rs1 imm) := rfl
theorem movc (rd : RegIndex) (imm : Word) : Statement (.movc rd imm) := rfl
theorem nop : Statement .nop := rfl
theorem load (rd rs1 : RegIndex) (imm : Word) : Statement (.load rd rs1 imm) := rfl
theorem store (rs1 rs2 : RegIndex) (imm : Word) : Statement (.store rs1 rs2 imm) := rfl
theorem loadp (rd rs1 : RegIndex) (imm : Word) : Statement (.loadp rd rs1 imm) := rfl
theorem storep (rs1 rs2 : RegIndex) (imm : Word) : Statement (.storep rs1 rs2 imm) := rfl
theorem jump (rs1 : RegIndex) (imm : Word) : Statement (.jump rs1 imm) := rfl
theorem jalr (rd rs1 : RegIndex) (imm : Word) : Statement (.jalr rd rs1 imm) := rfl
theorem bz (imm : Word) : Statement (.bz imm) := rfl
theorem bnz (imm : Word) : Statement (.bnz imm) := rfl
theorem bp (imm : Word) : Statement (.bp imm) := rfl
theorem bnp (imm : Word) : Statement (.bnp imm) := rfl
theorem bn (imm : Word) : Statement (.bn imm) := rfl
theorem bnn (imm : Word) : Statement (.bnn imm) := rfl
theorem halt : Statement .halt := rfl

end Sys2Proof.Laws.RecordRoundTrip
end

