-- ==== Sys2Proof/Laws/Stages.lean ====
section
/-! SUPPORT. What each stage can do, said once: one inversion lemma per stage, from which facts about a cycle follow
without unfolding it. -/

namespace Sys2Proof.Machine

/-! ### `exec` -/

/-- `exec` always answers a next state: the faults of this core are Decode's and Memory's (41_alu.md R160; 60_exceptions.md R240). -/
theorem exec_next (i : Instr) (s : State) : ∃ t, exec i s = .next t := by
  cases i <;> exact ⟨_, rfl⟩

/-- What no Execute changes: everything but `pc`, the flags, the redirect flag, the value fields of `E` and the `valid` bits of
`D` and `F` (40_pipeline.md R120). -/
structure ExecFrame (s t : State) : Prop where
  regs : t.regs = s.regs
  busy : t.busy = s.busy
  stallPipeline : t.stallPipeline = s.stallPipeline
  halted : t.halted = s.halted
  clock : t.clock = s.clock
  completed : t.completed = s.completed
  dmem : t.dmem = s.dmem
  code : t.code = s.code
  M : t.M = s.M
  W : t.W = s.W
  faulted : t.faulted = s.faulted
  record : s.E.SameRecord t.E
  valid : t.E.valid = s.E.valid

theorem execFrame_branchIf (s : State) (c : Bool) (v : Word) : ExecFrame s (s.branchIf c v) := by
  cases c <;> constructor <;> first | rfl | exact .refl _

theorem exec_frame {i : Instr} {s t : State} (h : exec i s = .next t) : ExecFrame s t := by
  cases i <;> cases h <;>
    first
      | exact execFrame_branchIf _ _ _
      | (constructor <;> first | rfl | exact ⟨rfl, rfl, rfl, rfl, rfl, rfl⟩)

/-- The front end after an Execute: redirected to the transfer's target, or untouched (40_pipeline.md R122; 43_control.md R210). -/
theorem exec_transfer {i : Instr} {s t : State} (h : exec i s = .next t) :
    match transferTarget i s.E s.flags with
    | some x => t.pc = x ∧ t.fetchFromNextCycle = true ∧ t.D = { s.D with valid := false } ∧
        t.F = { s.F with valid := true }
    | none => t.pc = s.pc ∧ t.fetchFromNextCycle = s.fetchFromNextCycle ∧ t.D = s.D ∧ t.F = s.F := by
  cases i <;> cases h <;> simp only [transferTarget]
  case bz | bp | bn => split <;> simp_all
  case bnz | bnp | bnn => split <;> simp_all
  all_goals simp

/-- The flags after an Execute: those of a word for a flag-writing opcode, else unchanged (10_state.md R29, R30). -/
theorem exec_flags {i : Instr} {s t : State} (h : exec i s = .next t) :
    (isFlagOp i.opcode = true ∧ ∃ v, t.flags = flagsOf v) ∨ (isFlagOp i.opcode = false ∧ t.flags = s.flags) := by
  cases i <;> cases h <;>
    first
      | exact .inl ⟨rfl, _, rfl⟩
      | exact .inr ⟨rfl, rfl⟩
      | exact .inr ⟨rfl, by simp⟩

/-! ### Writeback -/

/-- Writeback answers a next state, or refuses a stray latch; it never faults (40_pipeline.md R110). -/
theorem writebackStage_cases {s : State} {r : Result} (h : writebackStage s = r) :
    (s.W.valid = false ∧ r = .next s) ∨
    (∃ i, s.W.valid = true ∧ s.W.instr = some i ∧ r = .next (retire i (commit i s))) ∨
    (s.W.valid = true ∧ s.W.instr = none ∧ r = .refused (.strayLatch .writeback)) := by
  subst h
  unfold writebackStage
  split
  · next hv =>
    cases hi : s.W.instr with
    | some i => exact .inr (.inl ⟨i, hv, rfl, rfl⟩)
    | none => exact .inr (.inr ⟨hv, rfl, rfl⟩)
  · next hv => exact .inl ⟨by simpa using hv, rfl⟩

theorem writebackStage_next_of_legal {s : State} (h : s.W.legal) : ∃ t, writebackStage s = .next t := by
  rcases writebackStage_cases (s := s) rfl with ⟨-, h2⟩ | ⟨i, -, -, h2⟩ | ⟨hv, hi, -⟩
  · exact ⟨_, h2⟩
  · exact ⟨_, h2⟩
  · have := h hv
    simp [hi] at this

/-- What Writeback leaves alone. -/
structure WritebackFrame (s t : State) : Prop where
  pc : t.pc = s.pc
  flags : t.flags = s.flags
  stallPipeline : t.stallPipeline = s.stallPipeline
  fetchFromNextCycle : t.fetchFromNextCycle = s.fetchFromNextCycle
  clock : t.clock = s.clock
  completed : t.completed = s.completed + s.W.valid.toNat
  halted : t.halted = (s.halted || decide (s.W.valid = true ∧ s.W.opcode = some .halt))
  dmem : t.dmem = s.dmem
  code : t.code = s.code
  F : t.F = s.F
  D : t.D = s.D
  E : t.E = s.E
  M : t.M = s.M
  wEmpty : t.W.valid = false
  faulted : t.faulted = s.faulted

theorem opcode_eq_halt {i : Instr} : i.opcode = .halt ↔ i = .halt := by
  cases i <;> simp [Instr.opcode]

theorem writebackStage_frame {s t : State} (h : writebackStage s = .next t) : WritebackFrame s t := by
  rcases writebackStage_cases h with ⟨hv, ht⟩ | ⟨i, hv, hi, ht⟩ | ⟨-, -, ht⟩
  · cases ht
    constructor <;> simp [hv]
  · cases ht
    have hop := Latch.opcode_of_instr hi
    constructor <;> simp [hv, hop, opcode_eq_halt]
  · cases ht

/-- A register that Writeback changes is in the destination set of the instruction in `W` (40_pipeline.md R110, R139). -/
theorem commit_other {i : Instr} {s : State} (hv : s.W.valid = true) (hi : s.W.instr = some i) {r : RegIndex}
    (hr : s.W.writes r = false) :
    (commit i s).readReg r = s.readReg r ∧ (commit i s).readBusy r = s.readBusy r := by
  have hop := Latch.opcode_of_instr hi
  have hd : ∀ f ∈ dstFields i.opcode, ¬ r = s.W.field f := by
    intro f hf he
    have := (Latch.writes_iff hop r).2 ⟨hv, f, hf, he.symm⟩
    rw [hr] at this
    cases this
  cases i <;>
    simp only [commit, State.readReg_commitReg, State.readBusy_commitReg, Instr.opcode, dstFields, List.mem_cons,
      List.not_mem_nil, or_false, forall_eq_or_imp, forall_eq, Latch.field] at hd ⊢ <;>
    simp_all

/-- Every destination's busy bit is clear after Writeback (40_pipeline.md R110). -/
theorem commit_clears {i : Instr} {s : State} (hi : s.W.instr = some i) {f : Field} (hf : f ∈ dstFields i.opcode) :
    (commit i s).readBusy (s.W.field f) = false := by
  have hlt := fun g (hg : g ∈ dstFields i.opcode) => Latch.field_lt hi (dstFields_subset _ hg)
  cases i <;>
    simp only [Instr.opcode, dstFields, List.mem_cons, List.not_mem_nil, or_false, forall_eq_or_imp, forall_eq] at hf hlt
  case loadp =>
    rcases hf with rfl | rfl <;> simp only [Latch.field] at hlt <;>
      simp [commit, State.readBusy_commitReg, Latch.field, hlt]
  all_goals
    subst hf
    simp only [Latch.field] at hlt
    simp [commit, State.readBusy_commitReg, Latch.field, hlt]

/-- Writeback leaves exactly the other busy bits (40_pipeline.md R110). -/
theorem writebackStage_busy {s t : State} (h : writebackStage s = .next t) {r : RegIndex}
    (hb : t.readBusy r = true) : s.readBusy r = true ∧ s.W.writes r = false := by
  rcases writebackStage_cases h with ⟨hv, ht⟩ | ⟨i, hv, hi, ht⟩ | ⟨-, -, ht⟩
  · cases ht
    exact ⟨hb, by simp [Latch.writes, hv]⟩
  · cases ht
    replace hb : (commit i s).readBusy r = true := hb
    have hw : s.W.writes r = false := by
      cases hc : s.W.writes r with
      | false => rfl
      | true =>
        obtain ⟨-, f, hf, rfl⟩ := (Latch.writes_iff (Latch.opcode_of_instr hi) r).1 hc
        rw [commit_clears hi hf] at hb
        cases hb
    exact ⟨(commit_other hv hi hw).2 ▸ hb, hw⟩
  · cases ht

/-! ### Memory -/

/-- A load or store passes the address check or faults; it does nothing else to the pipeline (40_pipeline.md R115, R117). -/
theorem memoryAccess_cases {i : Instr} {s : State} {r : Result} (h : memoryAccess i s = r) :
    (isLoad i.opcode = false ∧ isStore i.opcode = false ∧ r = .next s) ∨
    (isLoad i.opcode = true ∧ dataAddressOk s.M.memoryAddress = true ∧
      r = .next { s with M := { s.M with resultBuffer := s.memRead s.M.memoryAddress } }) ∨
    (isStore i.opcode = true ∧ dataAddressOk s.M.memoryAddress = true ∧
      r = .next (s.memWrite s.M.memoryAddress s.M.rs1Value)) ∨
    ((isLoad i.opcode = true ∨ isStore i.opcode = true) ∧ dataAddressOk s.M.memoryAddress = false ∧
      r = .fault (.invalidMemoryAddress s.M.pc s.M.memoryAddress)) := by
  subst h
  cases hok : dataAddressOk s.M.memoryAddress <;> cases i <;>
    simp [memoryAccess, loadAccess, storeAccess, checkDataAddress, hok, raise, isLoad, isStore, Instr.opcode]

/-- The four ways of the Memory stage (40_pipeline.md R115). -/
theorem memoryStage_cases {s : State} {r : Result} (h : memoryStage s = r) :
    (s.M.valid = false ∧ r = .next { s with W := { s.W with valid := false } }) ∨
    (∃ i t, s.M.valid = true ∧ s.M.instr = some i ∧ memoryAccess i s = .next t ∧ r = .next (passToW t)) ∨
    (∃ i, s.M.valid = true ∧ s.M.instr = some i ∧ (isLoad i.opcode = true ∨ isStore i.opcode = true) ∧
      dataAddressOk s.M.memoryAddress = false ∧ r = .fault (.invalidMemoryAddress s.M.pc s.M.memoryAddress)) ∨
    (s.M.valid = true ∧ s.M.instr = none ∧ r = .refused (.strayLatch .memory)) := by
  subst h
  unfold memoryStage
  split
  · next hv =>
    cases hi : s.M.instr with
    | none => exact .inr (.inr (.inr ⟨hv, rfl, rfl⟩))
    | some i =>
      rcases memoryAccess_cases (i := i) (s := s) rfl with ⟨-, -, h⟩ | ⟨-, -, h⟩ | ⟨-, -, h⟩ | ⟨hl, hok, h⟩
      · exact .inr (.inl ⟨i, _, hv, rfl, h, by simp [h]⟩)
      · exact .inr (.inl ⟨i, _, hv, rfl, h, by simp [h]⟩)
      · exact .inr (.inl ⟨i, _, hv, rfl, h, by simp [h]⟩)
      · exact .inr (.inr (.inl ⟨i, hv, rfl, hl, hok, by simp [h]⟩))
  · next hv => exact .inl ⟨by simpa using hv, rfl⟩

/-- What the Memory stage leaves alone, and where its latch goes. -/
structure MemoryFrame (s t : State) : Prop where
  regs : t.regs = s.regs
  busy : t.busy = s.busy
  pc : t.pc = s.pc
  flags : t.flags = s.flags
  stallPipeline : t.stallPipeline = s.stallPipeline
  fetchFromNextCycle : t.fetchFromNextCycle = s.fetchFromNextCycle
  halted : t.halted = s.halted
  clock : t.clock = s.clock
  completed : t.completed = s.completed
  code : t.code = s.code
  F : t.F = s.F
  D : t.D = s.D
  E : t.E = s.E
  mEmpty : t.M.valid = false
  faulted : t.faulted = s.faulted
  wValid : t.W.valid = s.M.valid
  wRecord : s.M.valid = true → s.M.SameRecord t.W
  wValues : s.M.valid = true → t.W.rs1Value = s.M.rs1Value ∧ t.W.rs2Value = s.M.rs2Value

theorem memoryStage_frame {s t : State} (h : memoryStage s = .next t) : MemoryFrame s t := by
  rcases memoryStage_cases h with ⟨hv, ht⟩ | ⟨i, u, hv, hi, hu, ht⟩ | ⟨i, -, -, -, -, ht⟩ | ⟨-, -, ht⟩
  · cases ht
    constructor <;> simp [hv]
  · cases ht
    rcases memoryAccess_cases hu with ⟨-, -, h⟩ | ⟨-, -, h⟩ | ⟨-, -, h⟩ | ⟨-, -, h⟩
    · cases h
      constructor <;> simp [hv, Latch.SameRecord.refl]
    · cases h
      constructor <;> first | (intro _; exact ⟨rfl, rfl, rfl, rfl, rfl, rfl⟩) | simp [hv]
    · cases h
      constructor <;> simp [hv, Latch.SameRecord.refl]
    · cases h
  · cases ht
  · cases ht

/-- The data memory after the Memory stage: unchanged, or one store by the instruction in `M` (20_memory.md R51, R56). -/
theorem memoryStage_dmem {s t : State} (h : memoryStage s = .next t) :
    t.dmem = s.dmem ∨ (s.M.valid = true ∧ (∃ op, s.M.opcode = some op ∧ isStore op = true) ∧
      dataAddressOk s.M.memoryAddress = true ∧ t.dmem = (s.memWrite s.M.memoryAddress s.M.rs1Value).dmem) := by
  rcases memoryStage_cases h with ⟨hv, ht⟩ | ⟨i, u, hv, hi, hu, ht⟩ | ⟨i, -, -, -, -, ht⟩ | ⟨-, -, ht⟩
  · cases ht; exact .inl rfl
  · cases ht
    rcases memoryAccess_cases hu with ⟨-, -, h⟩ | ⟨-, -, h⟩ | ⟨hs, hok, h⟩ | ⟨-, -, h⟩
    · cases h; exact .inl rfl
    · cases h; exact .inl rfl
    · cases h; exact .inr ⟨hv, ⟨_, Latch.opcode_of_instr hi, hs⟩, hok, rfl⟩
    · cases h
  · cases ht
  · cases ht

/-! ### Execute -/

/-- The three ways of the Execute stage (40_pipeline.md R120). -/
theorem executeStage_cases {s : State} {r : Result} (h : executeStage s = r) :
    (s.E.valid = false ∧ r = .next { s with M := { s.M with valid := false } }) ∨
    (∃ i t, s.E.valid = true ∧ s.E.instr = some i ∧ exec i s = .next t ∧ r = .next (passToM t)) ∨
    (s.E.valid = true ∧ s.E.instr = none ∧ r = .refused (.strayLatch .execute)) := by
  subst h
  unfold executeStage
  split
  · next hv =>
    cases hi : s.E.instr with
    | none => exact .inr (.inr ⟨hv, rfl, rfl⟩)
    | some i =>
      obtain ⟨t, ht⟩ := exec_next i s
      exact .inr (.inl ⟨i, t, hv, rfl, ht, by simp [ht]⟩)
  · next hv => exact .inl ⟨by simpa using hv, rfl⟩

/-- The transfer that the instruction in `E` makes, if any (43_control.md R210). -/
def State.transfer (s : State) : Option Word :=
  match s.E.valid, s.E.instr with
  | true, some i => transferTarget i s.E s.flags
  | _, _ => none

/-- What the Execute stage leaves alone, where its latch goes, and what a transfer does to the front end. -/
structure ExecuteFrame (s t : State) : Prop where
  regs : t.regs = s.regs
  busy : t.busy = s.busy
  stallPipeline : t.stallPipeline = s.stallPipeline
  halted : t.halted = s.halted
  clock : t.clock = s.clock
  completed : t.completed = s.completed
  dmem : t.dmem = s.dmem
  code : t.code = s.code
  W : t.W = s.W
  faulted : t.faulted = s.faulted
  eEmpty : t.E.valid = false
  mValid : t.M.valid = s.E.valid
  mRecord : s.E.valid = true → s.E.SameRecord t.M
  redirected : ∀ x, s.transfer = some x →
    t.pc = x ∧ t.fetchFromNextCycle = true ∧ t.D = { s.D with valid := false } ∧ t.F = { s.F with valid := true }
  straight : s.transfer = none →
    t.pc = s.pc ∧ t.fetchFromNextCycle = s.fetchFromNextCycle ∧ t.D = s.D ∧ t.F = s.F

theorem executeStage_frame {s t : State} (h : executeStage s = .next t) : ExecuteFrame s t := by
  rcases executeStage_cases h with ⟨hv, ht⟩ | ⟨i, u, hv, hi, hu, ht⟩ | ⟨-, -, ht⟩
  · cases ht
    constructor <;> simp [hv, State.transfer]
  · cases ht
    have hf := exec_frame hu
    have hx := exec_transfer hu
    have htr : s.transfer = transferTarget i s.E s.flags := by simp [State.transfer, hv, hi]
    constructor <;> simp only [passToM_regs, passToM_busy, passToM_stallPipeline, passToM_halted, passToM_clock,
      passToM_completed, passToM_dmem, passToM_code, passToM_W, passToM_faulted, passToM_E, passToM_M, passToM_pc,
      passToM_fetchFromNextCycle, passToM_D, passToM_F, hf.regs, hf.busy, hf.stallPipeline, hf.halted, hf.clock,
      hf.completed, hf.dmem, hf.code, hf.W, hf.faulted, hf.valid]
    · exact fun _ => hf.record
    · intro x hxs
      rw [htr] at hxs
      simpa [hxs] using hx
    · intro hn
      rw [htr] at hn
      simpa [hn] using hx
  · cases ht

/-- The flags after the Execute stage (10_state.md R29, R30). -/
theorem executeStage_flags {s t : State} (h : executeStage s = .next t) :
    t.flags = s.flags ∨
      (s.E.valid = true ∧ (∃ op, s.E.opcode = some op ∧ isFlagOp op = true) ∧ ∃ v, t.flags = flagsOf v) := by
  rcases executeStage_cases h with ⟨hv, ht⟩ | ⟨i, u, hv, hi, hu, ht⟩ | ⟨-, -, ht⟩
  · cases ht; exact .inl rfl
  · cases ht
    rcases exec_flags hu with ⟨hf, v, hv'⟩ | ⟨-, hf⟩
    · exact .inr ⟨hv, ⟨_, Latch.opcode_of_instr hi, hf⟩, v, hv'⟩
    · exact .inl hf
  · cases ht

theorem executeStage_next_of_legal {s : State} (h : s.E.legal) : ∃ t, executeStage s = .next t := by
  rcases executeStage_cases (s := s) rfl with ⟨-, h2⟩ | ⟨i, u, -, -, -, h2⟩ | ⟨hv, hi, -⟩
  · exact ⟨_, h2⟩
  · exact ⟨_, h2⟩
  · have := h hv
    simp [hi] at this

/-! ### Decode -/

/-- The four ways of the Decode stage (40_pipeline.md R137 to R142). -/
theorem decodeStage_cases {s : State} {r : Result} (h : decodeStage s = r) :
    (s.D.valid = false ∧ r = .next { s with stallPipeline := false }) ∨
    (∃ f, s.D.valid = true ∧ checkDecode s.D = .error f ∧ r = .fault f) ∨
    (∃ op, s.D.valid = true ∧ checkDecode s.D = .ok op ∧ (s.resolveOperands (srcFields op)).2 = true ∧
      r = .next (issue op (s.resolveOperands (srcFields op)).1)) ∨
    (∃ op, s.D.valid = true ∧ checkDecode s.D = .ok op ∧ (s.resolveOperands (srcFields op)).2 = false ∧
      r = .next { (s.resolveOperands (srcFields op)).1 with stallPipeline := true }) := by
  subst h
  unfold decodeStage
  split
  · next hv =>
    cases hc : checkDecode s.D with
    | error f => exact .inr (.inl ⟨f, hv, rfl, rfl⟩)
    | ok op =>
      cases hr : (s.resolveOperands (srcFields op)).2 with
      | true => exact .inr (.inr (.inl ⟨op, hv, rfl, hr, by simp [hr]⟩))
      | false => exact .inr (.inr (.inr ⟨op, hv, rfl, hr, by simp [hr]⟩))
  · next hv => exact .inl ⟨by simpa using hv, rfl⟩

/-- What the Decode stage leaves alone. -/
structure DecodeFrame (s t : State) : Prop where
  regs : t.regs = s.regs
  pc : t.pc = s.pc
  flags : t.flags = s.flags
  fetchFromNextCycle : t.fetchFromNextCycle = s.fetchFromNextCycle
  halted : t.halted = s.halted
  clock : t.clock = s.clock
  completed : t.completed = s.completed
  dmem : t.dmem = s.dmem
  code : t.code = s.code
  F : t.F = s.F
  M : t.M = s.M
  W : t.W = s.W
  faulted : t.faulted = s.faulted
  dRecord : s.D.SameRecord t.D

theorem decodeStage_frame {s t : State} (h : decodeStage s = .next t) : DecodeFrame s t := by
  rcases decodeStage_cases h with ⟨-, ht⟩ | ⟨f, -, -, ht⟩ | ⟨op, -, -, -, ht⟩ | ⟨op, -, -, -, ht⟩
  · cases ht
    constructor <;> first | rfl | exact .refl _
  · cases ht
  · cases ht
    have hd := s.resolveOperands_D (srcFields op)
    constructor <;> first | exact hd.trans ⟨rfl, rfl, rfl, rfl, rfl, rfl⟩ | simp
  · cases ht
    have hd := s.resolveOperands_D (srcFields op)
    constructor <;> first | exact hd.trans ⟨rfl, rfl, rfl, rfl, rfl, rfl⟩ | simp

/-- The latches and the stall flag after Decode: nothing was there, the instruction issued, or it stalled
(40_pipeline.md R138, R140, R141). -/
theorem decodeStage_latches {s t : State} (h : decodeStage s = .next t) :
    (s.D.valid = false ∧ t.D.valid = false ∧ t.E = s.E ∧ t.stallPipeline = false) ∨
    (s.D.valid = true ∧ (∃ op, checkDecode s.D = .ok op) ∧ t.D.valid = false ∧ t.E.valid = true ∧
      s.D.SameRecord t.E ∧ t.stallPipeline = false) ∨
    (s.D.valid = true ∧ (∃ op, checkDecode s.D = .ok op) ∧ t.D.valid = true ∧ t.E = s.E ∧ t.stallPipeline = true) := by
  rcases decodeStage_cases h with ⟨hv, ht⟩ | ⟨f, -, -, ht⟩ | ⟨op, hv, hc, -, ht⟩ | ⟨op, hv, hc, -, ht⟩
  · cases ht
    exact .inl ⟨hv, hv, rfl, rfl⟩
  · cases ht
  · cases ht
    exact .inr (.inl ⟨hv, ⟨op, hc⟩, by simp, by simp [hv], by simpa using s.resolveOperands_D (srcFields op), by simp⟩)
  · cases ht
    exact .inr (.inr ⟨hv, ⟨op, hc⟩, by simpa using hv, by simp, rfl⟩)

/-- A busy bit after Decode was set before, or is a destination of the instruction just issued (10_state.md R24). -/
theorem decodeStage_busy {s t : State} (h : decodeStage s = .next t) {r : RegIndex} (hb : t.readBusy r = true) :
    s.readBusy r = true ∨ (s.D.writes r = true ∧ t.E.writes r = true) := by
  rcases decodeStage_cases h with ⟨hv, ht⟩ | ⟨f, -, -, ht⟩ | ⟨op, hv, hc, -, ht⟩ | ⟨op, hv, hc, -, ht⟩
  · cases ht
    exact .inl hb
  · cases ht
  · cases ht
    have hd := s.resolveOperands_D (srcFields op)
    rcases State.readBusy_markBusy (s := (s.resolveOperands (srcFields op)).1) (fs := dstFields op) hb with h | ⟨f, hf, hr⟩
    · exact .inl (State.resolveOperands_busy h)
    · have hop := (checkDecode_ok_iff.1 hc).1
      have hw : s.D.writes r = true := (Latch.writes_iff hop r).2 ⟨hv, f, hf, (hd.field f).symm.trans hr⟩
      refine .inr ⟨hw, ?_⟩
      rw [issue_E, Latch.writes_congr hd (by simp)]
      exact hw
  · cases ht
    exact .inl (State.resolveOperands_busy hb)

/-! ### Fetch -/

/-- The four ways of the Fetch stage (40_pipeline.md R145). -/
theorem fetchStage_cases (s : State) :
    (s.fetchFromNextCycle = true ∧ fetchStage s = { s with fetchFromNextCycle := false }) ∨
    (s.fetchFromNextCycle = false ∧ s.F.valid = false ∧ fetchStage s = s) ∨
    (s.fetchFromNextCycle = false ∧ s.F.valid = true ∧ s.stallPipeline = true ∧ fetchStage s = fillF s) ∨
    (s.fetchFromNextCycle = false ∧ s.F.valid = true ∧ s.stallPipeline = false ∧ fetchStage s = handOff (fillF s)) := by
  unfold fetchStage
  cases s.fetchFromNextCycle <;> cases s.F.valid <;> cases s.stallPipeline <;> simp

/-- What the Fetch stage leaves alone. -/
structure FetchFrame (s t : State) : Prop where
  regs : t.regs = s.regs
  busy : t.busy = s.busy
  flags : t.flags = s.flags
  stallPipeline : t.stallPipeline = s.stallPipeline
  fetchFromNextCycle : t.fetchFromNextCycle = false
  halted : t.halted = s.halted
  clock : t.clock = s.clock
  completed : t.completed = s.completed
  dmem : t.dmem = s.dmem
  code : t.code = s.code
  E : t.E = s.E
  M : t.M = s.M
  W : t.W = s.W
  faulted : t.faulted = s.faulted

theorem fetchStage_frame (s : State) : FetchFrame s (fetchStage s) := by
  rcases fetchStage_cases s with ⟨h1, h⟩ | ⟨h1, h2, h⟩ | ⟨h1, h2, h3, h⟩ | ⟨h1, h2, h3, h⟩ <;> rw [h] <;>
    constructor <;> simp [h1]

@[simp] theorem fetchedLatch_valid (b : Bool) (pc : Word) (r : Option Record) : (fetchedLatch b pc r).valid = b := by
  cases r <;> rfl

@[simp] theorem fetchedLatch_pc (b : Bool) (pc : Word) (r : Option Record) : (fetchedLatch b pc r).pc = pc := by
  cases r <;> rfl

/-! ### Cycle and step -/

/-- A step that answers a next state: a halted machine stays, a halting cycle ends after Writeback, or every stage ran
(40_pipeline.md R101, R103; 70_reset_and_hazards.md R273). -/
theorem step_cases {s t : State} (h : step s = .next t) :
    s.faulted = none ∧
    ((s.halted = true ∧ t = s) ∨
     (s.halted = false ∧ ∃ s1, writebackStage s = .next s1 ∧ s1.halted = true ∧ t = s1.tick) ∨
     (s.halted = false ∧ ∃ s1 s2 s3 s4, writebackStage s = .next s1 ∧ s1.halted = false ∧ memoryStage s1 = .next s2 ∧
        executeStage s2 = .next s3 ∧ decodeStage s3 = .next s4 ∧ t = (fetchStage s4).tick)) := by
  unfold step runCycle at h
  cases hf : s.faulted with
  | some f => simp [hf, raise] at h
  | none =>
    refine ⟨rfl, ?_⟩
    simp only [hf] at h
    cases hh : s.halted with
    | true =>
      simp only [hh, if_true] at h
      cases h
      exact .inl ⟨rfl, rfl⟩
    | false =>
      simp only [hh, Bool.false_eq_true, if_false] at h
      unfold cycle at h
      obtain ⟨s1, h1, h⟩ := andThen_eq_next.1 h
      cases hh1 : s1.halted with
      | true =>
        simp only [hh1, if_true] at h
        cases h
        exact .inr (.inl ⟨rfl, s1, h1, hh1, rfl⟩)
      | false =>
        simp only [hh1, Bool.false_eq_true, if_false] at h
        unfold laterStages at h
        obtain ⟨s2, h2, h⟩ := andThen_eq_next.1 h
        obtain ⟨s3, h3, h⟩ := andThen_eq_next.1 h
        obtain ⟨s4, h4, h⟩ := andThen_eq_next.1 h
        cases h
        exact .inr (.inr ⟨rfl, s1, s2, s3, s4, h1, hh1, h2, h3, h4, rfl⟩)

/-- A cycle whose stages all answer a next state (40_pipeline.md R101). -/
theorem step_of_stages {s s1 s2 s3 s4 : State} (hf : s.faulted = none) (hh : s.halted = false)
    (h1 : writebackStage s = .next s1) (hh1 : s1.halted = false) (h2 : memoryStage s1 = .next s2)
    (h3 : executeStage s2 = .next s3) (h4 : decodeStage s3 = .next s4) :
    step s = .next (fetchStage s4).tick := by
  simp [step, runCycle, hf, hh, cycle, h1, hh1, laterStages, h2, h3, h4]

/-- A halting cycle (40_pipeline.md R103). -/
theorem step_of_halting {s s1 : State} (hf : s.faulted = none) (hh : s.halted = false)
    (h1 : writebackStage s = .next s1) (hh1 : s1.halted = true) : step s = .next s1.tick := by
  simp [step, runCycle, hf, hh, cycle, h1, hh1]

end Sys2Proof.Machine
end

