-- ==== Sys2Proof/Laws/Runs.lean ====
section
/-! SUPPORT. Runs of a few steps, and the three cycles of an instruction that is alone in the pipeline, one lemma each. -/

namespace Sys2Proof.Machine

/-! ### `Host.Core.run` one step at a time -/

theorem run_zero (s : State) : Host.Core.run core 0 s = .next s := rfl

/-- The recursion of `Host.Core.run` for any machine, so that no proof unfolds it. -/
theorem core_run_next {M : Host.Core} {s t : M.State} (h : M.step s = .next t) (n : Nat) :
    M.run (n + 1) s = M.run n t := by
  simp only [Host.Core.run, h]

theorem core_run_fault {M : Host.Core} {s : M.State} {f : M.Fault} (h : M.step s = .fault f) (n : Nat) :
    M.run (n + 1) s = .fault f := by
  simp only [Host.Core.run, h]

theorem core_run_refused {M : Host.Core} {s : M.State} {r : M.Refusal} (h : M.step s = .refused r) (n : Nat) :
    M.run (n + 1) s = .refused r := by
  simp only [Host.Core.run, h]

theorem run_succ_next {s t : State} (h : step s = .next t) (n : Nat) :
    Host.Core.run core (n + 1) s = Host.Core.run core n t := core_run_next (M := core) h n

theorem run_succ_fault {s : State} {f : Fault} (h : step s = .fault f) (n : Nat) :
    Host.Core.run core (n + 1) s = .fault f := core_run_fault (M := core) h n

theorem run_succ_refused {s : State} {r : Refusal} (h : step s = .refused r) (n : Nat) :
    Host.Core.run core (n + 1) s = .refused r := core_run_refused (M := core) h n

theorem run_succ_eq_next {s t : State} {n : Nat} :
    Host.Core.run core (n + 1) s = .next t ↔ ∃ u, step s = .next u ∧ Host.Core.run core n u = .next t := by
  cases h : step s with
  | next u => simp [run_succ_next h]
  | fault f => simp [run_succ_fault h]
  | refused r => simp [run_succ_refused h]

/-- A run that answers a next state splits at every point. -/
theorem run_add {s t : State} {m : Nat} (n : Nat) (h : Host.Core.run core m s = .next t) :
    Host.Core.run core (m + n) s = Host.Core.run core n t := by
  induction m generalizing s with
  | zero =>
    cases h
    rw [Nat.zero_add]
  | succ m ih =>
    obtain ⟨u, hu, hr⟩ := run_succ_eq_next.1 h
    rw [Nat.succ_add, run_succ_next hu, ih hr]

/-! ### Stages with nothing to do -/

theorem writebackStage_empty {s : State} (h : s.W.valid = false) : writebackStage s = .next s := by
  simp [writebackStage, h]

theorem memoryStage_empty {s : State} (h : s.M.valid = false) :
    memoryStage s = .next { s with W := { s.W with valid := false } } := by
  simp [memoryStage, h]

theorem executeStage_empty {s : State} (h : s.E.valid = false) :
    executeStage s = .next { s with M := { s.M with valid := false } } := by
  simp [executeStage, h]

theorem decodeStage_empty {s : State} (h : s.D.valid = false) :
    decodeStage s = .next { s with stallPipeline := false } := by
  simp [decodeStage, h]

theorem fetchStage_off {s : State} (h : s.F.valid = false) (h' : s.fetchFromNextCycle = false) : fetchStage s = s := by
  simp [fetchStage, h, h']

/-! ### The back end of a machine whose front end is empty -/

/-- The front end is empty and the machine runs. -/
structure FrontEmpty (s : State) : Prop where
  fetchOff : s.F.valid = false
  decodeEmpty : s.D.valid = false
  noRedirect : s.fetchFromNextCycle = false
  running : s.halted = false
  notFaulted : s.faulted = none

/-- The Execute cycle of an instruction that makes no transfer. -/
theorem step_execute_only {i : Instr} {s u : State} (hF : FrontEmpty s) (hW : s.W.valid = false)
    (hM : s.M.valid = false) (hE : s.E.valid = true) (hi : s.E.instr = some i)
    (hu : exec i { s with W := { s.W with valid := false } } = .next u) (hn : transferTarget i s.E s.flags = none) :
    step s = .next ({ passToM u with stallPipeline := false } : State).tick := by
  have tr := exec_transfer hu
  simp only [hn] at tr
  rw [step_of_stages hF.notFaulted hF.running (writebackStage_empty hW) hF.running (memoryStage_empty hM)
    (s3 := passToM u) (by simp [executeStage, hE, hi, hu]) (decodeStage_empty (by simp [tr.2.2.1, hF.decodeEmpty]))]
  rw [fetchStage_off (by simp [tr.2.2.2, hF.fetchOff]) (by simp [tr.2.1, hF.noRedirect])]

/-- The Memory cycle of an instruction with nothing in flight behind it. -/
theorem step_memory_only {i : Instr} {s u : State} (hF : FrontEmpty s) (hW : s.W.valid = false)
    (hM : s.M.valid = true) (hi : s.M.instr = some i) (hu : memoryAccess i s = .next u)
    (hFu : FrontEmpty u) (hEu : u.E.valid = false) :
    step s = .next ({ passToW u with
      M := { (passToW u).M with valid := false }, stallPipeline := false } : State).tick := by
  rw [step_of_stages hF.notFaulted hF.running (writebackStage_empty hW) hF.running (s2 := passToW u)
    (by simp [memoryStage, hM, hi, hu]) (executeStage_empty (by simpa using hEu))
    (decodeStage_empty (by simpa using hFu.decodeEmpty))]
  rw [fetchStage_off (by simpa using hFu.fetchOff) (by simpa using hFu.noRedirect)]

/-- The Writeback cycle of an instruction other than HALT with nothing in flight behind it. -/
theorem step_writeback_only {i : Instr} {s : State} (hF : FrontEmpty s) (hW : s.W.valid = true)
    (hi : s.W.instr = some i) (hne : i ≠ .halt) (hM : s.M.valid = false) (hE : s.E.valid = false) :
    step s = .next ({ retire i (commit i s) with
      W := { (retire i (commit i s)).W with valid := false }
      M := { s.M with valid := false }
      stallPipeline := false } : State).tick := by
  have hw : writebackStage s = .next (retire i (commit i s)) := by simp [writebackStage, hW, hi]
  rw [step_of_stages hF.notFaulted hF.running hw (by simp [hF.running, hne]) (memoryStage_empty (by simpa using hM))
    (executeStage_empty (by simpa using hE)) (decodeStage_empty (by simpa using hF.decodeEmpty))]
  rw [fetchStage_off (by simpa using hF.fetchOff) (by simpa using hF.noRedirect)]
  congr 1
  simp [State.tick]

theorem InExecuteAlone.frontEmpty {i : Instr} {s : State} (h : InExecuteAlone i s) : FrontEmpty s :=
  ⟨h.fetchOff, h.decodeEmpty, h.noRedirect, h.running, h.notFaulted⟩

/-- Register fields of an issued instruction are in range (40_pipeline.md R142). -/
theorem InExecuteAlone.field_lt {i : Instr} {s : State} (h : InExecuteAlone i s) {f : Field}
    (hf : f ∈ i.opcode.format.fields) : (s.E.field f).toNat < Config.nregs :=
  Latch.field_lt h.holds hf

/-- Three cycles of an instruction that makes no transfer and does not halt: the state in which it is written back and the
one after that (70_reset_and_hazards.md R279). -/
theorem InExecuteAlone.retires {i : Instr} {s u v : State} (h : InExecuteAlone i s)
    (hu : exec i { s with W := { s.W with valid := false } } = .next u) (hn : transferTarget i s.E s.flags = none)
    (hv : memoryAccess i ({ passToM u with stallPipeline := false } : State).tick = .next v) (hne : i ≠ .halt) :
    ∃ w t : State, w.regs = s.regs ∧ w.busy = s.busy ∧ w.W = v.M ∧ Host.Core.run core 3 s = .next t ∧
      t.regs = (commit i w).regs ∧ t.busy = (commit i w).busy ∧ t.flags = u.flags ∧ t.dmem = v.dmem ∧
      t.pc = s.pc ∧ t.halted = false ∧ RetiredInThree s t := by
  have hF := h.frontEmpty
  have fr := exec_frame hu
  have tr := exec_transfer hu
  simp only [hn] at tr
  have e1 := step_execute_only hF h.writebackEmpty h.memoryEmpty h.valid h.holds hu hn
  generalize hs1 : ({ passToM u with stallPipeline := false } : State).tick = s1 at e1 hv
  have hF1 : FrontEmpty s1 := by
    subst hs1
    exact ⟨by simp [tr.2.2.2, hF.fetchOff], by simp [tr.2.2.1, hF.decodeEmpty], by simp [tr.2.1, hF.noRedirect],
      by simp [fr.halted, hF.running], by simp [fr.faulted, hF.notFaulted]⟩
  have hM1 : s1.M = u.E := by subst hs1; simp
  have hW1 : s1.W.valid = false := by subst hs1; simp [fr.W]
  have hE1 : s1.E.valid = false := by subst hs1; simp
  have hi1 : s1.M.instr = some i := by rw [hM1, fr.record.instr]; exact h.holds
  have hv1 : s1.M.valid = true := by rw [hM1, fr.valid]; exact h.valid
  have ma : v.regs = s1.regs ∧ v.busy = s1.busy ∧ v.flags = s1.flags ∧ v.pc = s1.pc ∧ v.halted = s1.halted ∧
      v.clock = s1.clock ∧ v.completed = s1.completed ∧ v.code = s1.code ∧ v.faulted = s1.faulted ∧ v.F = s1.F ∧
      v.D = s1.D ∧ v.E = s1.E ∧ v.fetchFromNextCycle = s1.fetchFromNextCycle ∧ v.M.instr = s1.M.instr ∧
      v.M.valid = s1.M.valid := by
    rcases memoryAccess_cases hv with ⟨-, -, e⟩ | ⟨-, -, e⟩ | ⟨-, -, e⟩ | ⟨-, -, e⟩ <;> cases e <;>
      exact ⟨rfl, rfl, rfl, rfl, rfl, rfl, rfl, rfl, rfl, rfl, rfl, rfl, rfl, rfl, rfl⟩
  obtain ⟨m1, m2, m3, m4, m5, m6, m7, m8, m9, m10, m11, m12, m13, m14, m15⟩ := ma
  have hFv : FrontEmpty v := ⟨by rw [m10]; exact hF1.fetchOff, by rw [m11]; exact hF1.decodeEmpty,
    by rw [m13]; exact hF1.noRedirect, by rw [m5]; exact hF1.running, by rw [m9]; exact hF1.notFaulted⟩
  have e2 := step_memory_only hF1 hW1 hv1 hi1 hv hFv (by rw [m12]; exact hE1)
  generalize hs2 : ({ passToW v with
    M := { (passToW v).M with valid := false }, stallPipeline := false } : State).tick = s2 at e2
  have hF2 : FrontEmpty s2 := by
    subst hs2
    exact ⟨hFv.fetchOff, hFv.decodeEmpty, hFv.noRedirect, hFv.running, hFv.notFaulted⟩
  have hW2 : s2.W = v.M := by subst hs2; rfl
  have e3 := step_writeback_only hF2 (by rw [hW2, m15]; exact hv1) (by rw [hW2, m14]; exact hi1) hne
    (by subst hs2; rfl) (by subst hs2; simpa [m12] using hE1)
  refine ⟨s2, _, ?_, ?_, hW2, (run_succ_next e1 2).trans ((run_succ_next e2 1).trans (run_succ_next e3 0)), ?_⟩
  · subst hs2; subst hs1; simp [m1, fr.regs]
  · subst hs2; subst hs1; simp [m2, fr.busy]
  · subst hs2
    subst hs1
    simp only [State.tick_clock, State.tick_completed, State.tick_pc, State.tick_flags, State.tick_code,
      passToM_clock, passToM_completed, passToM_pc, passToM_flags, passToM_code] at m3 m4 m6 m7 m8
    refine ⟨by simp, by simp, by simp [m3], by simp, by simp [m4, tr.1], by simp [hFv.running, hne], ?_⟩
    exact ⟨by simp [m6, fr.clock], by simp [m7, fr.completed], by simp [m8, fr.code], by simp [hFv.notFaulted]⟩

end Sys2Proof.Machine
end

