-- ==== Sys2Proof/Tests/Slice0.lean ====
section
/-! SUPPORT. The author's own tests. Expected values come from the spec: the words from 30_encoding.md R73 and R74 and
95_test_vectors.md, the results from the vectors named in each docstring. The theorems `witness_<Name>` show that the
hypotheses of `Obligations.<Name>` can hold together. -/

open Sys2Proof Sys2Proof.Machine

namespace Sys2Proof.Tests

/-! ### Well-formedness: an ill-formed term for every register field of every format -/

theorem test_add_ill_formed :
    Instr.wellFormed (.add 16#8 15#8 15#8) = false ∧
    Instr.wellFormed (.add 15#8 16#8 15#8) = false ∧
    Instr.wellFormed (.add 15#8 15#8 16#8) = false := by decide
theorem test_sub_ill_formed :
    Instr.wellFormed (.sub 16#8 15#8 15#8) = false ∧
    Instr.wellFormed (.sub 15#8 16#8 15#8) = false ∧
    Instr.wellFormed (.sub 15#8 15#8 16#8) = false := by decide
theorem test_mul_ill_formed :
    Instr.wellFormed (.mul 16#8 15#8 15#8) = false ∧
    Instr.wellFormed (.mul 15#8 16#8 15#8) = false ∧
    Instr.wellFormed (.mul 15#8 15#8 16#8) = false := by decide
theorem test_addl_ill_formed :
    Instr.wellFormed (.addl 16#8 15#8 0#32) = false ∧
    Instr.wellFormed (.addl 15#8 16#8 0#32) = false := by decide
theorem test_subl_ill_formed :
    Instr.wellFormed (.subl 16#8 15#8 0#32) = false ∧
    Instr.wellFormed (.subl 15#8 16#8 0#32) = false := by decide
theorem test_and_ill_formed :
    Instr.wellFormed (.and 16#8 15#8 15#8) = false ∧
    Instr.wellFormed (.and 15#8 16#8 15#8) = false ∧
    Instr.wellFormed (.and 15#8 15#8 16#8) = false := by decide
theorem test_or_ill_formed :
    Instr.wellFormed (.or 16#8 15#8 15#8) = false ∧
    Instr.wellFormed (.or 15#8 16#8 15#8) = false ∧
    Instr.wellFormed (.or 15#8 15#8 16#8) = false := by decide
theorem test_xor_ill_formed :
    Instr.wellFormed (.xor 16#8 15#8 15#8) = false ∧
    Instr.wellFormed (.xor 15#8 16#8 15#8) = false ∧
    Instr.wellFormed (.xor 15#8 15#8 16#8) = false := by decide
theorem test_cmp_ill_formed :
    Instr.wellFormed (.cmp 16#8 15#8) = false ∧
    Instr.wellFormed (.cmp 15#8 16#8) = false := by decide
theorem test_cml_ill_formed : Instr.wellFormed (.cml 16#8 0#32) = false := by decide
theorem test_movc_ill_formed : Instr.wellFormed (.movc 16#8 0#32) = false := by decide
theorem test_load_ill_formed :
    Instr.wellFormed (.load 16#8 15#8 0#32) = false ∧
    Instr.wellFormed (.load 15#8 16#8 0#32) = false := by decide
theorem test_store_ill_formed :
    Instr.wellFormed (.store 16#8 15#8 0#32) = false ∧
    Instr.wellFormed (.store 15#8 16#8 0#32) = false := by decide
theorem test_loadp_ill_formed :
    Instr.wellFormed (.loadp 16#8 15#8 0#32) = false ∧
    Instr.wellFormed (.loadp 15#8 16#8 0#32) = false := by decide
theorem test_storep_ill_formed :
    Instr.wellFormed (.storep 16#8 15#8 0#32) = false ∧
    Instr.wellFormed (.storep 15#8 16#8 0#32) = false := by decide
theorem test_jump_ill_formed : Instr.wellFormed (.jump 16#8 0#32) = false := by decide
theorem test_jalr_ill_formed :
    Instr.wellFormed (.jalr 16#8 15#8 0#32) = false ∧
    Instr.wellFormed (.jalr 15#8 16#8 0#32) = false := by decide
theorem test_largest_register_is_well_formed : Instr.wellFormed (.add 15#8 15#8 15#8) = true := by decide

/-! ### Decoding: a word for every opcode, written out from 30_encoding.md R71, R73, R74 -/

theorem test_decode_add : decode 0x01030E0700000000#64 = .ok (.add 3#8 14#8 7#8) := by decide
theorem test_decode_sub : decode 0x02030E0700000000#64 = .ok (.sub 3#8 14#8 7#8) := by decide
theorem test_decode_mul : decode 0x03030E0700000000#64 = .ok (.mul 3#8 14#8 7#8) := by decide
theorem test_decode_addl : decode 0x04030E00FFFFFFF8#64 = .ok (.addl 3#8 14#8 0xFFFFFFF8#32) := by decide
theorem test_decode_subl : decode 0x05030E00FFFFFFF8#64 = .ok (.subl 3#8 14#8 0xFFFFFFF8#32) := by decide
theorem test_decode_and : decode 0x06030E0700000000#64 = .ok (.and 3#8 14#8 7#8) := by decide
theorem test_decode_or : decode 0x07030E0700000000#64 = .ok (.or 3#8 14#8 7#8) := by decide
theorem test_decode_xor : decode 0x08030E0700000000#64 = .ok (.xor 3#8 14#8 7#8) := by decide
theorem test_decode_cmp : decode 0x09000E0700000000#64 = .ok (.cmp 14#8 7#8) := by decide
theorem test_decode_cml : decode 0x0A000E00FFFFFFF8#64 = .ok (.cml 14#8 0xFFFFFFF8#32) := by decide
theorem test_decode_movc : decode 0x0B030000FFFFFFF8#64 = .ok (.movc 3#8 0xFFFFFFF8#32) := by decide
theorem test_decode_nop : decode 0x0C00000000000000#64 = .ok .nop := by decide
theorem test_decode_load : decode 0x0D030E00FFFFFFF8#64 = .ok (.load 3#8 14#8 0xFFFFFFF8#32) := by decide
theorem test_decode_store : decode 0x0E000E07FFFFFFF8#64 = .ok (.store 14#8 7#8 0xFFFFFFF8#32) := by decide
theorem test_decode_loadp : decode 0x0F030E00FFFFFFF8#64 = .ok (.loadp 3#8 14#8 0xFFFFFFF8#32) := by decide
theorem test_decode_storep : decode 0x10000E07FFFFFFF8#64 = .ok (.storep 14#8 7#8 0xFFFFFFF8#32) := by decide
theorem test_decode_jump : decode 0x11000E00FFFFFFF8#64 = .ok (.jump 14#8 0xFFFFFFF8#32) := by decide
theorem test_decode_jalr : decode 0x12030E00FFFFFFF8#64 = .ok (.jalr 3#8 14#8 0xFFFFFFF8#32) := by decide
theorem test_decode_bz : decode 0x13000000FFFFFFF8#64 = .ok (.bz 0xFFFFFFF8#32) := by decide
theorem test_decode_bnz : decode 0x14000000FFFFFFF8#64 = .ok (.bnz 0xFFFFFFF8#32) := by decide
theorem test_decode_bp : decode 0x15000000FFFFFFF8#64 = .ok (.bp 0xFFFFFFF8#32) := by decide
theorem test_decode_bnp : decode 0x16000000FFFFFFF8#64 = .ok (.bnp 0xFFFFFFF8#32) := by decide
theorem test_decode_bn : decode 0x17000000FFFFFFF8#64 = .ok (.bn 0xFFFFFFF8#32) := by decide
theorem test_decode_bnn : decode 0x18000000FFFFFFF8#64 = .ok (.bnn 0xFFFFFFF8#32) := by decide
theorem test_decode_halt : decode 0x1900000000000000#64 = .ok .halt := by decide
/-- V30.7 -/
theorem test_decode_ignores_unused_fields : decode 0x0B01C86300000001#64 = .ok (.movc 1#8 1#32) := by decide
/-- V30.4 -/
theorem test_decode_refuses_0x00 : decode 0x0000000000000000#64 = .error (.illegalOpcode 0x00#8) := by decide
/-- V30.5 -/
theorem test_decode_refuses_0x1A : decode 0x1A00000000000000#64 = .error (.illegalOpcode 0x1A#8) := by decide
/-- V30.6 -/
theorem test_decode_keeps_register_16 : decode 0x0B10000000000001#64 = .ok (.movc 16#8 1#32) := by decide
/-- Program P4 -/
theorem test_encode_STORE_of_P4 : encode (.store 0#8 2#8 100#32) = 0x0E00000200000064#64 := by decide

/-! ### Small states -/

/-- The state of an outcome; a stop counts as the reset state, which no test expects. -/
def settle (r : Result) : State :=
  match r with
  | .next t => t
  | .fault _ => State.reset
  | .refused _ => State.reset

/-- The fault of an outcome. -/
def faultOf (r : Result) : Option Fault :=
  match r with
  | .next _ => none
  | .fault f => some f
  | .refused _ => none

/-- The state after `n` steps. -/
def after (n : Nat) (s : State) : State := settle (Host.Core.run core n s)

/-- Reset with some registers and data cells set. -/
def start (regs : List (RegIndex × Word)) (cells : List (Word × Word)) : State :=
  cells.foldl (fun s c => s.memWrite c.1 c.2) (regs.foldl (fun s p => s.writeReg p.1 p.2) State.reset)

/-- `i` alone in Execute on a start state, fetch off. -/
def alone (i : Instr) (s : State) : State :=
  { s.withFetchWord 64 (encode i).toNat with F := { s.F with valid := false } }

/-- A machine that has been given a program. -/
def boot (words : List Packed) : State := { State.reset with code := words.map Record.ofPacked }

/-- What one step leaves of the instruction that was in Execute: its result and the flags. -/
def executed (i : Instr) (s : State) : Word × Flags :=
  ((after 1 (alone i s)).M.resultBuffer, (after 1 (alone i s)).flags)

/-! ### One step of each instruction -/

/-- V41.1 -/
theorem test_add :
    executed (.add 2#8 1#8 3#8) (start [(1#8, 0x7FFFFFFF#32), (3#8, 1#32)] []) = (0x80000000#32, ⟨false, false, true⟩) := by decide
/-- V41.2 -/
theorem test_add_wraps :
    executed (.add 2#8 1#8 3#8) (start [(1#8, 0xFFFFFFFF#32), (3#8, 1#32)] []) = (0#32, ⟨true, false, false⟩) := by decide
/-- V41.4 -/
theorem test_sub :
    executed (.sub 2#8 1#8 3#8) (start [(1#8, 3#32), (3#8, 7#32)] []) = (0xFFFFFFFC#32, ⟨false, false, true⟩) := by decide
/-- V41.6 -/
theorem test_sub_wraps :
    executed (.sub 2#8 1#8 3#8) (start [(1#8, 0x80000000#32), (3#8, 1#32)] []) = (0x7FFFFFFF#32, ⟨false, true, false⟩) := by decide
/-- V41.12 -/
theorem test_mul :
    executed (.mul 2#8 1#8 3#8) (start [(1#8, 0x12345678#32), (3#8, 0x9ABCDEF0#32)] []) = (0x242D2080#32, ⟨false, true, false⟩) := by decide
/-- V41.11 -/
theorem test_mul_wraps :
    executed (.mul 2#8 1#8 3#8) (start [(1#8, 0x80000000#32), (3#8, 0xFFFFFFFF#32)] []) = (0x80000000#32, ⟨false, false, true⟩) := by decide
/-- V41.13 -/
theorem test_addl :
    executed (.addl 2#8 1#8 0xFFFFFFFD#32) (start [(1#8, 10#32)] []) = (7#32, ⟨false, true, false⟩) := by decide
/-- V41.17 -/
theorem test_subl :
    executed (.subl 2#8 1#8 0xFFFFFFFF#32) (start [(1#8, 0#32)] []) = (1#32, ⟨false, true, false⟩) := by decide
/-- V41.19 -/
theorem test_and :
    executed (.and 2#8 1#8 3#8) (start [(1#8, 0xF0F0F0F0#32), (3#8, 0xFF00FF00#32)] []) = (0xF000F000#32, ⟨false, false, true⟩) := by decide
/-- V41.21 -/
theorem test_or :
    executed (.or 2#8 1#8 3#8) (start [(1#8, 0xF0F0F0F0#32), (3#8, 0x0F0F0F0F#32)] []) = (0xFFFFFFFF#32, ⟨false, false, true⟩) := by decide
/-- V41.23 -/
theorem test_xor :
    executed (.xor 2#8 1#8 3#8) (start [(1#8, 0xFFFFFFFF#32), (3#8, 0x0000FFFF#32)] []) = (0xFFFF0000#32, ⟨false, false, true⟩) := by decide
/-- V41.26: the flags of the wrapped difference, no result. -/
theorem test_cmp :
    executed (.cmp 1#8 3#8) (start [(1#8, 0x7FFFFFFF#32), (3#8, 0xFFFFFFFF#32)] []) = (0#32, ⟨false, false, true⟩) := by decide
/-- V41.33 -/
theorem test_cml :
    executed (.cml 1#8 1#32) (start [(1#8, 0x80000000#32)] []) = (0#32, ⟨false, true, false⟩) := by decide
/-- V41.34: no flag is written. -/
theorem test_movc :
    executed (.movc 2#8 0xFFFFFFFF#32) (start [] []) = (0xFFFFFFFF#32, ⟨true, false, false⟩) := by decide
/-- V41.36 -/
theorem test_nop : executed .nop (start [] []) = (0#32, ⟨true, false, false⟩) := by decide

/-- The state whose next step performs the data access of `i`. -/
def accessing (i : Instr) (s : State) : State := after 1 (alone i s)

/-- The state whose next step writes `i` back. -/
def retiring (i : Instr) (s : State) : State := after 2 (alone i s)

/-- V42.1 -/
theorem test_load :
    (after 1 (accessing (.load 1#8 0#8 0xFFFFFFFC#32) (start [(0#8, 100#32)] [(96#32, 5#32)]))).W.resultBuffer = 5#32 := by decide
/-- V42.11 -/
theorem test_load_wraps_to_cell_0 :
    (after 1 (accessing (.load 1#8 0#8 1#32) (start [(0#8, 0xFFFFFFFF#32)] [(0#32, 6#32)]))).W.resultBuffer = 6#32 := by decide
/-- V42.2 -/
theorem test_store :
    (after 1 (accessing (.store 1#8 2#8 4#32) (start [(1#8, 9#32), (2#8, 200#32)] []))).dmem = [(204, 9#32)] := by decide
/-- V42.9 -/
theorem test_store_past_the_end :
    faultOf (step (accessing (.store 0#8 0#8 1#32) (start [(0#8, 4095#32)] []))) =
      some (.invalidMemoryAddress 4000#32 4096#32) := by decide
/-- V42.4 -/
theorem test_loadp :
    (fun t => (t.readReg 1#8, t.readReg 2#8))
      (after 1 (retiring (.loadp 1#8 2#8 8#32) (start [(2#8, 100#32)] [(108#32, 3#32)]))) = (3#32, 104#32) := by decide
/-- V42.7 -/
theorem test_loadp_same_register :
    (after 1 (retiring (.loadp 2#8 2#8 0#32) (start [(2#8, 100#32)] [(100#32, 7#32)]))).readReg 2#8 = 7#32 := by decide
/-- V42.5 -/
theorem test_storep :
    (fun t => (t.dmem, t.W.rs2Value))
      (after 1 (accessing (.storep 1#8 2#8 0#32) (start [(1#8, 9#32), (2#8, 200#32)] []))) = ([(200, 9#32)], 204#32) := by decide
/-- V42.6 -/
theorem test_storep_same_register :
    (fun t => (t.dmem, t.W.rs2Value))
      (after 1 (accessing (.storep 2#8 2#8 0#32) (start [(2#8, 200#32)] []))) = ([(200, 200#32)], 204#32) := by decide

/-- Where one step takes `pc` from 4004, and whether fetch is on again. -/
def target (i : Instr) (f : Flags) (regs : List (RegIndex × Word)) : Word × Bool :=
  let t := after 1 (alone i { start regs [] with
    pc := 4004#32, flags := f, code := [Instr.nop.toRecord, Instr.nop.toRecord, Instr.halt.toRecord] })
  (t.pc, t.F.valid)

/-- V43.1, V43.2: 4004 + 8. -/
theorem test_bz_taken : target (.bz 8#32) ⟨true, false, false⟩ [] = (4012#32, true) := by decide
theorem test_bz_untaken : target (.bz 8#32) ⟨false, true, false⟩ [] = (4008#32, false) := by decide
/-- V43.3: the offset is signed, 4004 - 12. -/
theorem test_bnz_taken : target (.bnz 0xFFFFFFF4#32) ⟨false, false, true⟩ [] = (3992#32, true) := by decide
theorem test_bnz_untaken : target (.bnz 0xFFFFFFF4#32) ⟨true, false, false⟩ [] = (4008#32, false) := by decide
/-- V43.4, V43.5 -/
theorem test_bp_taken : target (.bp 8#32) ⟨false, true, false⟩ [] = (4012#32, true) := by decide
theorem test_bp_untaken : target (.bp 8#32) ⟨false, false, true⟩ [] = (4008#32, false) := by decide
/-- V43.6 -/
theorem test_bnp_taken : target (.bnp 8#32) ⟨true, false, false⟩ [] = (4012#32, true) := by decide
theorem test_bnp_untaken : target (.bnp 8#32) ⟨false, true, false⟩ [] = (4008#32, false) := by decide
/-- V43.7 -/
theorem test_bn_taken : target (.bn 8#32) ⟨false, false, true⟩ [] = (4012#32, true) := by decide
theorem test_bn_untaken : target (.bn 8#32) ⟨true, false, false⟩ [] = (4008#32, false) := by decide
/-- V43.8 -/
theorem test_bnn_taken : target (.bnn 8#32) ⟨true, false, false⟩ [] = (4012#32, true) := by decide
theorem test_bnn_untaken : target (.bnn 8#32) ⟨false, false, true⟩ [] = (4008#32, false) := by decide
/-- V43.9 -/
theorem test_jump : target (.jump 5#8 0#32) ⟨true, false, false⟩ [(5#8, 4016#32)] = (4016#32, true) := by decide
/-- V43.11: the target from the old register, the link from the own address. -/
theorem test_jalr :
    (fun t => (t.pc, t.M.resultBuffer))
      (after 1 (alone (.jalr 3#8 3#8 0#32) { start [(3#8, 4012#32)] [] with
        pc := 4004#32, code := [Instr.nop.toRecord, Instr.nop.toRecord] })) = (4012#32, 4008#32) := by decide
/-- V40.4: HALT halts in Writeback and is counted (40_pipeline.md R112, R113). -/
theorem test_halt :
    (fun t => (t.halted, t.completed, t.clock)) (after 1 (retiring .halt (start [] []))) = (true, 1, 3) := by decide

/-! ### The machine around the instructions -/

/-- Program S1 of 95_test_vectors.md. -/
def programS1 : List Packed :=
  [0x0B00000000000005#64, 0x0B0100000000000A#64, 0x0102000100000000#64, 0x1900000000000000#64]

/-- `LOAD R1,R0,#0 ; ADD R2,R1,R1 ; HALT`: a load and its use. -/
def programLoadUse : List Packed := [0x0D01000000000000#64, 0x0102010100000000#64, 0x1900000000000000#64]

/-- `BZ #8 ; NOP ; HALT`: taken on the reset flags. -/
def programBranch : List Packed := [0x1300000000000008#64, 0x0C00000000000000#64, 0x1900000000000000#64]

/-- `STORE R0,R1,#4 ; LOAD R2,R1,#4 ; HALT`. -/
def programStoreLoad : List Packed := [0x0E00000100000004#64, 0x0D02010000000004#64, 0x1900000000000000#64]

theorem test_reset_memory_is_canonical : Memory.wf State.reset.dmem = true := by decide
theorem test_memory_write_of_0_is_unlisted : cellWrite [(3, 1#32), (7, 2#32)] 3 0#32 = [(7, 2#32)] := by decide
/-- S1, cycle 4: `R0<-W R1<-M`, as Decode sees the latches. -/
theorem test_forward_from_M_and_W :
    (fun s => (s.forward 0#8, s.forward 1#8)) (settle (executeStage (settle (memoryStage (after 3 (boot programS1)))))) =
      (.hit 5#32, .hit 10#32) := by decide
/-- V40.2: Decode stalls for one cycle and `pc` is held. -/
theorem test_load_use_stalls :
    (fun s => (s.stallPipeline, s.E.valid, s.pc)) (after 3 (boot programLoadUse)) = (true, false, 4008#32) := by decide
/-- V60.1 -/
theorem test_illegal_opcode :
    faultOf (step (after 1 (boot [0x0000000000000000#64]))) = some (.illegalOpcode 4000#32 0x00#8) := by decide
/-- V60.2 -/
theorem test_register_16 :
    faultOf (step (after 1 (boot [0x0B10000000000001#64]))) = some (.invalidRegisterIndex 4000#32 .rd 16#8) := by decide
/-- V60.6 -/
theorem test_empty_program : faultOf (step (after 1 (boot []))) = some (.invalidFetchAddress 4000#32) := by decide
/-- V60.3 -/
theorem test_negative_address :
    faultOf (step (accessing (.load 1#8 0#8 0xFFFFFFFC#32) (start [] []))) =
      some (.invalidMemoryAddress 4000#32 0xFFFFFFFC#32) := by decide
theorem test_fetch_word_runs_next :
    (after 1 (State.reset.withFetchWord 64 0x0B02000000000007)).M.resultBuffer = 7#32 := by decide

/-! ### Witnesses: the hypotheses of each obligation can be met together, clause by clause at the edges of its ranges -/

def answersNext (r : Result) : Bool :=
  match r with
  | .next _ => true
  | .fault _ => false
  | .refused _ => false

theorem next_settle {r : Result} (h : answersNext r = true) : r = .next (settle r) := by
  cases r <;> first | rfl | cases h

theorem fault_of {r : Result} {f : Fault} (h : faultOf r = some f) : r = .fault f := by
  cases r <;> simp_all [faultOf]

/-- The state Decode sees in the next cycle. -/
def atDecode (s : State) : State := settle (executeStage (settle (memoryStage (settle (writebackStage s)))))

def programHalt : List Packed := [0x1900000000000000#64]

theorem witness_DecodeAcceptsExactlyTheListedOpcodes :
    (1 ≤ (BitVec.toNat 0x0100000000000000#64) / 2 ^ 56 ∧ (BitVec.toNat 0x0100000000000000#64) / 2 ^ 56 ≤ 0x19) ∧
    (1 ≤ (BitVec.toNat 0x19FFFFFFFFFFFFFF#64) / 2 ^ 56 ∧ (BitVec.toNat 0x19FFFFFFFFFFFFFF#64) / 2 ^ 56 ≤ 0x19) ∧
    ¬(1 ≤ (BitVec.toNat 0x00FFFFFFFFFFFFFF#64) / 2 ^ 56 ∧ (BitVec.toNat 0x00FFFFFFFFFFFFFF#64) / 2 ^ 56 ≤ 0x19) ∧
    ¬(1 ≤ (BitVec.toNat 0x1A00000000000000#64) / 2 ^ 56 ∧ (BitVec.toNat 0x1A00000000000000#64) / 2 ^ 56 ≤ 0x19) := by decide

theorem witness_EncodeClearsExactlyTheUnusedFields : decode 0x0B01C86300000001#64 = .ok (.movc 1#8 1#32) := by decide

theorem witness_InitEstablishesTheResetState :
    4000 + 4 * (List.replicate 1073740824 Instr.nop.toRecord).length ≤ 2 ^ 32 := by
  rw [List.length_replicate]
  decide

/-- A cycle that commits, one that ends with a Memory fault and one that ends with a Decode fault. -/
theorem witness_StepRunsTheInstructionInExecute :
    (let s := after 2 (boot programS1)
     s.faulted = none ∧ s.halted = false ∧ writebackStage s = .next (settle (writebackStage s)) ∧
      (settle (writebackStage s)).halted = false ∧
      memoryStage (settle (writebackStage s)) = .next (settle (memoryStage (settle (writebackStage s)))) ∧
      s.E.valid = true ∧ s.E.instr = some (.movc 0#8 5#32) ∧
      exec (.movc 0#8 5#32) (settle (memoryStage (settle (writebackStage s)))) =
        .next (settle (exec (.movc 0#8 5#32) (settle (memoryStage (settle (writebackStage s)))))) ∧
      decodeStage (atDecode s) = .next (settle (decodeStage (atDecode s)))) ∧
    (let s := accessing (.load 1#8 0#8 4096#32) State.reset
     s.faulted = none ∧ s.halted = false ∧ writebackStage s = .next (settle (writebackStage s)) ∧
      memoryStage (settle (writebackStage s)) = .fault (.invalidMemoryAddress 4000#32 4096#32)) ∧
    (let s := after 2 (boot [0x0B00000000000005#64, 0x0000000000000000#64])
     s.E.valid = true ∧ decodeStage (atDecode s) = .fault (.illegalOpcode 4004#32 0x00#8)) := by
  refine ⟨⟨by decide, by decide, next_settle (by decide), by decide, next_settle (by decide), by decide, by decide,
    next_settle (by decide), next_settle (by decide)⟩, ⟨by decide, by decide, next_settle (by decide), fault_of (by decide)⟩,
    by decide, fault_of (by decide)⟩

theorem quiescent_boot : Quiescent (boot programS1) := by constructor <;> decide

theorem witness_FetchedInstructionReachesExecute :
    Quiescent (boot programS1) ∧
    (boot programS1).codeRead (boot programS1).pc = some (Record.ofPacked 0x0B00000000000005#64) ∧
    (Record.ofPacked 0x0B00000000000005#64).instr = .ok (.movc 0#8 5#32) ∧
    Instr.wellFormed (.movc 0#8 5#32) = true := ⟨quiescent_boot, by decide, by decide, by decide⟩

/-- A redirect bubble, a disabled fetch, a slot and no slot, with and without a stall. -/
theorem witness_FetchDeliversTheSlotAtPc :
    (settle (executeStage (settle (memoryStage (after 2 (boot programBranch)))))).fetchFromNextCycle = true ∧
    ((after 4 (boot programHalt)).fetchFromNextCycle = false ∧ (after 4 (boot programHalt)).F.valid = false) ∧
    ((boot programS1).fetchFromNextCycle = false ∧ (boot programS1).F.valid = true ∧
      (boot programS1).stallPipeline = false ∧ (boot programS1).pc = 4000#32 ∧
      (boot programS1).code[0]? = some ⟨0x0B#8, 0#8, 0#8, 0#8, 5#32⟩ ∧ (BitVec.toNat 4000#32) = 4000 + 4 * 0) ∧
    ((after 3 (boot programLoadUse)).F.valid = true ∧ (after 3 (boot programLoadUse)).stallPipeline = true ∧
      (after 3 (boot programLoadUse)).fetchFromNextCycle = false ∧ (after 3 (boot programLoadUse)).pc = 4008#32 ∧
      (after 3 (boot programLoadUse)).code[2]? = some ⟨0x19#8, 0#8, 0#8, 0#8, 0#32⟩) ∧
    ((boot []).F.valid = true ∧ (boot []).fetchFromNextCycle = false ∧
      ¬∃ k, k < (boot []).code.length ∧ (boot []).pc.toNat = 4000 + 4 * k) := by
  refine ⟨by decide, by decide, by decide, by decide, by decide, by decide, ?_⟩
  rintro ⟨k, hk, -⟩
  simp [boot] at hk

theorem witness_LoadedWordIsTheNextInstructionRun :
    decodeTableWord 64 0x010F0F0F00000000 = some (.add 15#8 15#8 15#8) ∧
    Instr.wellFormed (.add 15#8 15#8 15#8) = true := by decide

theorem witness_RegisterArithmeticAndLogic :
    InExecuteAlone (.add 15#8 0#8 15#8) (alone (.add 15#8 0#8 15#8) State.reset) ∧
    InExecuteAlone (.sub 15#8 0#8 15#8) (alone (.sub 15#8 0#8 15#8) State.reset) ∧
    InExecuteAlone (.mul 15#8 0#8 15#8) (alone (.mul 15#8 0#8 15#8) State.reset) ∧
    InExecuteAlone (.and 15#8 0#8 15#8) (alone (.and 15#8 0#8 15#8) State.reset) ∧
    InExecuteAlone (.or 15#8 0#8 15#8) (alone (.or 15#8 0#8 15#8) State.reset) ∧
    InExecuteAlone (.xor 15#8 0#8 15#8) (alone (.xor 15#8 0#8 15#8) State.reset) := by
  refine ⟨?_, ?_, ?_, ?_, ?_, ?_⟩ <;> constructor <;> decide

theorem witness_ImmediateArithmetic :
    InExecuteAlone (.addl 15#8 0#8 1#32) (alone (.addl 15#8 0#8 1#32) State.reset) ∧
    InExecuteAlone (.subl 15#8 0#8 1#32) (alone (.subl 15#8 0#8 1#32) State.reset) := by
  refine ⟨?_, ?_⟩ <;> constructor <;> decide

theorem witness_ComparesWriteFlagsOnly :
    InExecuteAlone (.cmp 15#8 0#8) (alone (.cmp 15#8 0#8) State.reset) ∧
    InExecuteAlone (.cml 15#8 0#32) (alone (.cml 15#8 0#32) State.reset) := by
  refine ⟨?_, ?_⟩ <;> constructor <;> decide

theorem witness_MoveConstantAndNop :
    InExecuteAlone (.movc 15#8 0xFFFFFFFF#32) (alone (.movc 15#8 0xFFFFFFFF#32) State.reset) ∧
    InExecuteAlone .nop (alone .nop State.reset) := by
  refine ⟨?_, ?_⟩ <;> constructor <;> decide

/-- Cells 0 and 4095 in range, 4096 and -1 out of range. -/
theorem witness_LoadReadsTheAddressedCell :
    (InExecuteAlone (.load 15#8 0#8 0#32) (alone (.load 15#8 0#8 0#32) State.reset) ∧ Memory.wf (alone (.load 15#8 0#8 0#32) State.reset).dmem = true ∧
      (0 ≤ ((alone (.load 15#8 0#8 0#32) State.reset).E.rs1Value + 0#32).toInt ∧ ((alone (.load 15#8 0#8 0#32) State.reset).E.rs1Value + 0#32).toInt < Config.dmemSize)) ∧
    (InExecuteAlone (.load 15#8 0#8 4095#32) (alone (.load 15#8 0#8 4095#32) State.reset) ∧ Memory.wf (alone (.load 15#8 0#8 4095#32) State.reset).dmem = true ∧
      (0 ≤ ((alone (.load 15#8 0#8 4095#32) State.reset).E.rs1Value + 4095#32).toInt ∧ ((alone (.load 15#8 0#8 4095#32) State.reset).E.rs1Value + 4095#32).toInt < Config.dmemSize)) ∧
    (InExecuteAlone (.load 15#8 0#8 4096#32) (alone (.load 15#8 0#8 4096#32) State.reset) ∧ Memory.wf (alone (.load 15#8 0#8 4096#32) State.reset).dmem = true ∧
      ¬(0 ≤ ((alone (.load 15#8 0#8 4096#32) State.reset).E.rs1Value + 4096#32).toInt ∧ ((alone (.load 15#8 0#8 4096#32) State.reset).E.rs1Value + 4096#32).toInt < Config.dmemSize)) ∧
    (InExecuteAlone (.load 15#8 0#8 0xFFFFFFFF#32) (alone (.load 15#8 0#8 0xFFFFFFFF#32) State.reset) ∧ Memory.wf (alone (.load 15#8 0#8 0xFFFFFFFF#32) State.reset).dmem = true ∧
      ¬(0 ≤ ((alone (.load 15#8 0#8 0xFFFFFFFF#32) State.reset).E.rs1Value + 0xFFFFFFFF#32).toInt ∧ ((alone (.load 15#8 0#8 0xFFFFFFFF#32) State.reset).E.rs1Value + 0xFFFFFFFF#32).toInt < Config.dmemSize)) := by
  refine ⟨?_, ?_, ?_, ?_⟩ <;> refine ⟨?_, ?_, ?_⟩ <;> first | decide | (constructor <;> decide)

/-- Cells 0 and 4095 in range, 4096 and -1 out of range. -/
theorem witness_StoreWritesTheAddressedCell :
    (InExecuteAlone (.store 15#8 0#8 0#32) (alone (.store 15#8 0#8 0#32) State.reset) ∧ Memory.wf (alone (.store 15#8 0#8 0#32) State.reset).dmem = true ∧
      (0 ≤ ((alone (.store 15#8 0#8 0#32) State.reset).E.rs2Value + 0#32).toInt ∧ ((alone (.store 15#8 0#8 0#32) State.reset).E.rs2Value + 0#32).toInt < Config.dmemSize)) ∧
    (InExecuteAlone (.store 15#8 0#8 4095#32) (alone (.store 15#8 0#8 4095#32) State.reset) ∧ Memory.wf (alone (.store 15#8 0#8 4095#32) State.reset).dmem = true ∧
      (0 ≤ ((alone (.store 15#8 0#8 4095#32) State.reset).E.rs2Value + 4095#32).toInt ∧ ((alone (.store 15#8 0#8 4095#32) State.reset).E.rs2Value + 4095#32).toInt < Config.dmemSize)) ∧
    (InExecuteAlone (.store 15#8 0#8 4096#32) (alone (.store 15#8 0#8 4096#32) State.reset) ∧ Memory.wf (alone (.store 15#8 0#8 4096#32) State.reset).dmem = true ∧
      ¬(0 ≤ ((alone (.store 15#8 0#8 4096#32) State.reset).E.rs2Value + 4096#32).toInt ∧ ((alone (.store 15#8 0#8 4096#32) State.reset).E.rs2Value + 4096#32).toInt < Config.dmemSize)) ∧
    (InExecuteAlone (.store 15#8 0#8 0xFFFFFFFF#32) (alone (.store 15#8 0#8 0xFFFFFFFF#32) State.reset) ∧ Memory.wf (alone (.store 15#8 0#8 0xFFFFFFFF#32) State.reset).dmem = true ∧
      ¬(0 ≤ ((alone (.store 15#8 0#8 0xFFFFFFFF#32) State.reset).E.rs2Value + 0xFFFFFFFF#32).toInt ∧ ((alone (.store 15#8 0#8 0xFFFFFFFF#32) State.reset).E.rs2Value + 0xFFFFFFFF#32).toInt < Config.dmemSize)) := by
  refine ⟨?_, ?_, ?_, ?_⟩ <;> refine ⟨?_, ?_, ?_⟩ <;> first | decide | (constructor <;> decide)

/-- Cells 0 and 4095 in range, 4096 and -1 out of range. -/
theorem witness_LoadPostIncrementWritesBothRegisters :
    (InExecuteAlone (.loadp 0#8 0#8 0#32) (alone (.loadp 0#8 0#8 0#32) State.reset) ∧ Memory.wf (alone (.loadp 0#8 0#8 0#32) State.reset).dmem = true ∧
      (0 ≤ ((alone (.loadp 0#8 0#8 0#32) State.reset).E.rs1Value + 0#32).toInt ∧ ((alone (.loadp 0#8 0#8 0#32) State.reset).E.rs1Value + 0#32).toInt < Config.dmemSize)) ∧
    (InExecuteAlone (.loadp 0#8 0#8 4095#32) (alone (.loadp 0#8 0#8 4095#32) State.reset) ∧ Memory.wf (alone (.loadp 0#8 0#8 4095#32) State.reset).dmem = true ∧
      (0 ≤ ((alone (.loadp 0#8 0#8 4095#32) State.reset).E.rs1Value + 4095#32).toInt ∧ ((alone (.loadp 0#8 0#8 4095#32) State.reset).E.rs1Value + 4095#32).toInt < Config.dmemSize)) ∧
    (InExecuteAlone (.loadp 0#8 0#8 4096#32) (alone (.loadp 0#8 0#8 4096#32) State.reset) ∧ Memory.wf (alone (.loadp 0#8 0#8 4096#32) State.reset).dmem = true ∧
      ¬(0 ≤ ((alone (.loadp 0#8 0#8 4096#32) State.reset).E.rs1Value + 4096#32).toInt ∧ ((alone (.loadp 0#8 0#8 4096#32) State.reset).E.rs1Value + 4096#32).toInt < Config.dmemSize)) ∧
    (InExecuteAlone (.loadp 0#8 0#8 0xFFFFFFFF#32) (alone (.loadp 0#8 0#8 0xFFFFFFFF#32) State.reset) ∧ Memory.wf (alone (.loadp 0#8 0#8 0xFFFFFFFF#32) State.reset).dmem = true ∧
      ¬(0 ≤ ((alone (.loadp 0#8 0#8 0xFFFFFFFF#32) State.reset).E.rs1Value + 0xFFFFFFFF#32).toInt ∧ ((alone (.loadp 0#8 0#8 0xFFFFFFFF#32) State.reset).E.rs1Value + 0xFFFFFFFF#32).toInt < Config.dmemSize)) := by
  refine ⟨?_, ?_, ?_, ?_⟩ <;> refine ⟨?_, ?_, ?_⟩ <;> first | decide | (constructor <;> decide)

/-- Cells 0 and 4095 in range, 4096 and -1 out of range. -/
theorem witness_StorePostIncrementWritesCellAndBase :
    (InExecuteAlone (.storep 0#8 0#8 0#32) (alone (.storep 0#8 0#8 0#32) State.reset) ∧ Memory.wf (alone (.storep 0#8 0#8 0#32) State.reset).dmem = true ∧
      (0 ≤ ((alone (.storep 0#8 0#8 0#32) State.reset).E.rs2Value + 0#32).toInt ∧ ((alone (.storep 0#8 0#8 0#32) State.reset).E.rs2Value + 0#32).toInt < Config.dmemSize)) ∧
    (InExecuteAlone (.storep 0#8 0#8 4095#32) (alone (.storep 0#8 0#8 4095#32) State.reset) ∧ Memory.wf (alone (.storep 0#8 0#8 4095#32) State.reset).dmem = true ∧
      (0 ≤ ((alone (.storep 0#8 0#8 4095#32) State.reset).E.rs2Value + 4095#32).toInt ∧ ((alone (.storep 0#8 0#8 4095#32) State.reset).E.rs2Value + 4095#32).toInt < Config.dmemSize)) ∧
    (InExecuteAlone (.storep 0#8 0#8 4096#32) (alone (.storep 0#8 0#8 4096#32) State.reset) ∧ Memory.wf (alone (.storep 0#8 0#8 4096#32) State.reset).dmem = true ∧
      ¬(0 ≤ ((alone (.storep 0#8 0#8 4096#32) State.reset).E.rs2Value + 4096#32).toInt ∧ ((alone (.storep 0#8 0#8 4096#32) State.reset).E.rs2Value + 4096#32).toInt < Config.dmemSize)) ∧
    (InExecuteAlone (.storep 0#8 0#8 0xFFFFFFFF#32) (alone (.storep 0#8 0#8 0xFFFFFFFF#32) State.reset) ∧ Memory.wf (alone (.storep 0#8 0#8 0xFFFFFFFF#32) State.reset).dmem = true ∧
      ¬(0 ≤ ((alone (.storep 0#8 0#8 0xFFFFFFFF#32) State.reset).E.rs2Value + 0xFFFFFFFF#32).toInt ∧ ((alone (.storep 0#8 0#8 0xFFFFFFFF#32) State.reset).E.rs2Value + 0xFFFFFFFF#32).toInt < Config.dmemSize)) := by
  refine ⟨?_, ?_, ?_, ?_⟩ <;> refine ⟨?_, ?_, ?_⟩ <;> first | decide | (constructor <;> decide)

/-- `i` alone in Execute with given flags. -/
def aloneWith (i : Instr) (f : Flags) : State := { alone i State.reset with flags := f }

theorem witness_BranchesTestTheirFlag :
    (InExecuteAlone (.bz 8#32) (aloneWith (.bz 8#32) ⟨true, false, false⟩) ∧ (aloneWith (.bz 8#32) ⟨true, false, false⟩).flags.z = true) ∧
    (InExecuteAlone (.bz 8#32) (aloneWith (.bz 8#32) ⟨false, true, false⟩) ∧ (aloneWith (.bz 8#32) ⟨false, true, false⟩).flags.z = false) ∧
    (InExecuteAlone (.bnz 8#32) (aloneWith (.bnz 8#32) ⟨false, true, false⟩) ∧ (!(aloneWith (.bnz 8#32) ⟨false, true, false⟩).flags.z) = true) ∧
    (InExecuteAlone (.bnz 8#32) (aloneWith (.bnz 8#32) ⟨true, false, false⟩) ∧ (!(aloneWith (.bnz 8#32) ⟨true, false, false⟩).flags.z) = false) ∧
    (InExecuteAlone (.bp 8#32) (aloneWith (.bp 8#32) ⟨false, true, false⟩) ∧ (aloneWith (.bp 8#32) ⟨false, true, false⟩).flags.p = true) ∧
    (InExecuteAlone (.bp 8#32) (aloneWith (.bp 8#32) ⟨true, false, false⟩) ∧ (aloneWith (.bp 8#32) ⟨true, false, false⟩).flags.p = false) ∧
    (InExecuteAlone (.bnp 8#32) (aloneWith (.bnp 8#32) ⟨true, false, false⟩) ∧ (!(aloneWith (.bnp 8#32) ⟨true, false, false⟩).flags.p) = true) ∧
    (InExecuteAlone (.bnp 8#32) (aloneWith (.bnp 8#32) ⟨false, true, false⟩) ∧ (!(aloneWith (.bnp 8#32) ⟨false, true, false⟩).flags.p) = false) ∧
    (InExecuteAlone (.bn 8#32) (aloneWith (.bn 8#32) ⟨false, false, true⟩) ∧ (aloneWith (.bn 8#32) ⟨false, false, true⟩).flags.n = true) ∧
    (InExecuteAlone (.bn 8#32) (aloneWith (.bn 8#32) ⟨true, false, false⟩) ∧ (aloneWith (.bn 8#32) ⟨true, false, false⟩).flags.n = false) ∧
    (InExecuteAlone (.bnn 8#32) (aloneWith (.bnn 8#32) ⟨true, false, false⟩) ∧ (!(aloneWith (.bnn 8#32) ⟨true, false, false⟩).flags.n) = true) ∧
    (InExecuteAlone (.bnn 8#32) (aloneWith (.bnn 8#32) ⟨false, false, true⟩) ∧ (!(aloneWith (.bnn 8#32) ⟨false, false, true⟩).flags.n) = false) := by
  refine ⟨?_, ?_, ?_, ?_, ?_, ?_, ?_, ?_, ?_, ?_, ?_, ?_⟩ <;> refine ⟨?_, ?_⟩ <;>
    first | decide | (constructor <;> decide)

/-- JUMP in Execute, and two cycles later in Writeback. -/
theorem witness_JumpGoesToBasePlusImmediate :
    InExecuteAlone (.jump 15#8 4000#32) (alone (.jump 15#8 4000#32) State.reset) ∧
    (after 2 (alone (.jump 15#8 4000#32) State.reset)).W.valid = true ∧
    (after 2 (alone (.jump 15#8 4000#32) State.reset)).W.instr = some (.jump 15#8 4000#32) := by
  refine ⟨?_, by decide, by decide⟩
  constructor <;> decide

/-- A taken branch and NOP in Writeback, for `CountedOnly`; latches that hold an instruction, for `Forwards`; and a latch that
fails and one that passes its Decode checks, for `ListedAs`. -/
theorem witness_clauses_of_the_instruction_statements :
    ((after 2 (aloneWith (.bz 8#32) ⟨true, false, false⟩)).W.valid = true ∧
      (after 2 (aloneWith (.bz 8#32) ⟨true, false, false⟩)).W.instr = some (.bz 8#32)) ∧
    ((retiring .nop State.reset).W.valid = true ∧ (retiring .nop State.reset).W.instr = some .nop) ∧
    ((accessing (.loadp 1#8 2#8 0#32) State.reset).M.valid = true ∧
      (accessing (.loadp 1#8 2#8 0#32) State.reset).M.instr = some (.loadp 1#8 2#8 0#32)) ∧
    ((after 1 (boot [0x010F0F1000000000#64])).D.op = .number 0x01#8 ∧
      ∃ g ∈ Format.rrr.fields, Config.nregs ≤ ((after 1 (boot [0x010F0F1000000000#64])).D.field g).toNat) ∧
    ((after 1 (boot [0x010F0F0F00000000#64])).D.op = .number 0x01#8 ∧
      ∀ g ∈ Format.rrr.fields, ((after 1 (boot [0x010F0F0F00000000#64])).D.field g).toNat < Config.nregs) := by
  decide

theorem witness_JumpAndLinkWritesTheReturnAddress :
    InExecuteAlone (.jalr 15#8 15#8 4000#32) (alone (.jalr 15#8 15#8 4000#32) State.reset) ∧
    (alone (.jalr 15#8 15#8 4000#32) State.reset).codeRead
      ((alone (.jalr 15#8 15#8 4000#32) State.reset).E.rs1Value + 4000#32) =
        some (Instr.jalr 15#8 15#8 4000#32).toRecord ∧
    (Instr.jalr 15#8 15#8 4000#32).toRecord.instr = .ok (.jalr 15#8 15#8 4000#32) ∧
    Instr.wellFormed (.jalr 15#8 15#8 4000#32) = true := by
  refine ⟨?_, by decide, by decide, by decide⟩
  constructor <;> decide

/-- HALT in Execute; HALT about to be fetched, with and without a stall. -/
theorem witness_HaltEndsTheRun :
    InExecuteAlone .halt (alone .halt State.reset) ∧
    ((boot programHalt).fetchFromNextCycle = false ∧ (boot programHalt).F.valid = true ∧
      (boot programHalt).codeRead (boot programHalt).pc = some Instr.halt.toRecord ∧
      Instr.halt.toRecord.instr = .ok .halt ∧ (boot programHalt).stallPipeline = false) ∧
    ((after 3 (boot programLoadUse)).fetchFromNextCycle = false ∧ (after 3 (boot programLoadUse)).F.valid = true ∧
      (after 3 (boot programLoadUse)).codeRead (after 3 (boot programLoadUse)).pc = some Instr.halt.toRecord ∧
      (after 3 (boot programLoadUse)).stallPipeline = true) := by
  refine ⟨?_, by decide, by decide⟩
  constructor <;> decide

/-- Below `CODE_BASE`, misaligned, and just past the end of the program. -/
theorem witness_BadTargetFaultsWhenEvaluated :
    (InExecuteAlone (.bz 0xFFFFFFFC#32) (alone (.bz 0xFFFFFFFC#32) State.reset) ∧
      transferTarget (.bz 0xFFFFFFFC#32) (alone (.bz 0xFFFFFFFC#32) State.reset).E
        (alone (.bz 0xFFFFFFFC#32) State.reset).flags = some 3996#32 ∧
      ¬∃ k, k < (alone (.bz 0xFFFFFFFC#32) State.reset).code.length ∧ (BitVec.toNat 3996#32) = 4000 + 4 * k) ∧
    (InExecuteAlone (.bz 2#32) (alone (.bz 2#32) State.reset) ∧
      transferTarget (.bz 2#32) (alone (.bz 2#32) State.reset).E (alone (.bz 2#32) State.reset).flags = some 4002#32 ∧
      ¬∃ k, k < (alone (.bz 2#32) State.reset).code.length ∧ (BitVec.toNat 4002#32) = 4000 + 4 * k) ∧
    (InExecuteAlone (.bz 4#32) (alone (.bz 4#32) State.reset) ∧
      transferTarget (.bz 4#32) (alone (.bz 4#32) State.reset).E (alone (.bz 4#32) State.reset).flags = some 4004#32 ∧
      ¬∃ k, k < (alone (.bz 4#32) State.reset).code.length ∧ (BitVec.toNat 4004#32) = 4000 + 4 * k) := by
  have h1 : (alone (.bz 4#32) State.reset).code.length = 1 := by decide
  refine ⟨⟨?_, by decide, ?_⟩, ⟨?_, by decide, ?_⟩, ⟨?_, by decide, ?_⟩⟩
  · constructor <;> decide
  · rintro ⟨k, -, hk⟩
    simp at hk
    omega
  · constructor <;> decide
  · rintro ⟨k, -, hk⟩
    simp at hk
    omega
  · constructor <;> decide
  · rintro ⟨k, hk, he⟩
    rw [h1] at hk
    simp at he
    omega

/-- Cycle 4 of S1: hits from `M` and `W` and a miss; the stalled cycle of a load and its use: block. -/
theorem witness_ForwardingGivesTheValueWrittenBack :
    (let s := atDecode (after 3 (boot programS1))
     s.M.legal ∧ s.W.legal ∧ s.forward 0#8 = .hit 5#32 ∧ s.forward 1#8 = .hit 10#32 ∧ s.forward 15#8 = .miss) ∧
    (let s := atDecode (after 2 (boot programLoadUse))
     s.M.legal ∧ s.W.legal ∧ s.forward 1#8 = .block) := by
  refine ⟨⟨?_, ?_, by decide, by decide, by decide⟩, ?_, ?_, by decide⟩ <;> (unfold Latch.legal; decide)

/-! #### States that meet the invariant -/

theorem inv_S1_after_3 : (after 3 (boot programS1)).Inv := by
  constructor <;> (try unfold Latch.legal) <;> (try unfold Latch.holdsHalt) <;>
    first | decide | exact fun h => absurd h (by decide)

theorem inv_loadUse_after_2 : (after 2 (boot programLoadUse)).Inv := by
  constructor <;> (try unfold Latch.legal) <;> (try unfold Latch.holdsHalt) <;>
    first | decide | exact fun h => absurd h (by decide)

/-- A stalled state. -/
theorem inv_loadUse_after_3 : (after 3 (boot programLoadUse)).Inv := by
  constructor <;> (try unfold Latch.legal) <;> (try unfold Latch.holdsHalt) <;>
    first | decide | exact fun _ => ⟨by decide, ⟨.add, by decide⟩, by decide⟩

theorem inv_branch_after_2 : (after 2 (boot programBranch)).Inv := by
  constructor <;> (try unfold Latch.legal) <;> (try unfold Latch.holdsHalt) <;>
    first | decide | exact fun h => absurd h (by decide)

theorem inv_storeLoad_after_3 : (after 3 (boot programStoreLoad)).Inv := by
  constructor <;> (try unfold Latch.legal) <;> (try unfold Latch.holdsHalt) <;>
    first | decide | exact fun h => absurd h (by decide)

/-- HALT in Writeback. -/
theorem inv_halt_after_4 : (after 4 (boot programHalt)).Inv := by
  constructor <;> (try unfold Latch.legal) <;> (try unfold Latch.holdsHalt) <;>
    first | decide | exact fun h => absurd h (by decide)

theorem reachesDecode {s : State} (h1 : s.faulted = none) (h2 : s.halted = false)
    (h3 : answersNext (writebackStage s) = true) (h4 : (settle (writebackStage s)).halted = false)
    (h5 : answersNext (memoryStage (settle (writebackStage s))) = true)
    (h6 : answersNext (executeStage (settle (memoryStage (settle (writebackStage s))))) = true) :
    ReachesDecode s (atDecode s) :=
  ⟨h1, h2, _, _, next_settle h3, h4, next_settle h5, next_settle h6⟩

theorem witness_ForwardingMissMeansNotBusy :
    (after 3 (boot programS1)).Inv ∧ ReachesDecode (after 3 (boot programS1)) (atDecode (after 3 (boot programS1))) ∧
    (atDecode (after 3 (boot programS1))).forward 2#8 = .miss :=
  ⟨inv_S1_after_3, reachesDecode (by decide) (by decide) (by decide) (by decide) (by decide) (by decide), by decide⟩

/-- A cycle that stalls and one that does not. -/
theorem witness_StallExactlyOnLoadUse :
    ((after 2 (boot programLoadUse)).Inv ∧
      step (after 2 (boot programLoadUse)) = .next (settle (step (after 2 (boot programLoadUse)))) ∧
      (settle (step (after 2 (boot programLoadUse)))).stallPipeline = true) ∧
    ((after 3 (boot programS1)).Inv ∧ step (after 3 (boot programS1)) = .next (settle (step (after 3 (boot programS1)))) ∧
      (settle (step (after 3 (boot programS1)))).stallPipeline = false) :=
  ⟨⟨inv_loadUse_after_2, next_settle (by decide), by decide⟩, inv_S1_after_3, next_settle (by decide), by decide⟩

theorem witness_StallLastsOneCycle :
    (after 3 (boot programLoadUse)).Inv ∧ (after 3 (boot programLoadUse)).stallPipeline = true ∧
    step (after 3 (boot programLoadUse)) = .next (settle (step (after 3 (boot programLoadUse)))) :=
  ⟨inv_loadUse_after_3, by decide, next_settle (by decide)⟩

theorem witness_StalledCycleKeepsPcAndDecode :
    let s := after 2 (boot programLoadUse)
    step s = .next (settle (step s)) ∧ s.halted = false ∧ (settle (step s)).halted = false ∧
      (settle (step s)).stallPipeline = true ∧ s.F.valid = true ∧ s.fetchFromNextCycle = false ∧
      s.codeRead s.pc = some (Record.ofPacked 0x1900000000000000#64) :=
  ⟨next_settle (by decide), by decide, by decide, by decide, by decide, by decide, by decide⟩

theorem witness_TakenTransferFlushesTheFrontEnd :
    let s := after 2 (boot programBranch)
    s.Inv ∧ s.faulted = none ∧ s.halted = false ∧ s.E.valid = true ∧ s.E.instr = some (.bz 8#32) ∧
      transferTarget (.bz 8#32) s.E s.flags = some 4008#32 ∧ writebackStage s = .next (settle (writebackStage s)) ∧
      memoryStage (settle (writebackStage s)) = .next (settle (memoryStage (settle (writebackStage s)))) :=
  ⟨inv_branch_after_2, by decide, by decide, by decide, by decide, by decide, next_settle (by decide),
    next_settle (by decide)⟩

/-- BADFETCH; opcodes 0x00 and 0x1A; register 16 in `rd` first and in `rs1` behind a good `rd`; all fields at 15. -/
theorem witness_DecodeChecksInOrder :
    (let s := after 1 (boot [])
     ReachesDecode s (atDecode s) ∧ (atDecode s).D.valid = true ∧ (atDecode s).D.op = .badFetch) ∧
    (let s := after 1 (boot [0x0000000000000000#64])
     ReachesDecode s (atDecode s) ∧ (atDecode s).D.valid = true ∧ (atDecode s).D.op = .number 0x00#8 ∧
      ¬(1 ≤ (BitVec.toNat 0x00#8) ∧ (BitVec.toNat 0x00#8) ≤ 0x19)) ∧
    (let s := after 1 (boot [0x1A00000000000000#64])
     ReachesDecode s (atDecode s) ∧ (atDecode s).D.valid = true ∧ (atDecode s).D.op = .number 0x1A#8 ∧
      ¬(1 ≤ (BitVec.toNat 0x1A#8) ∧ (BitVec.toNat 0x1A#8) ≤ 0x19)) ∧
    (let s := after 1 (boot [0x0110101000000000#64])
     ReachesDecode s (atDecode s) ∧ (atDecode s).D.valid = true ∧ (atDecode s).D.op = .number 0x01#8 ∧
      Opcode.ofNumber 0x01#8 = some .add ∧ Opcode.add.format.fields = [] ++ .rd :: [.rs1, .rs2] ∧
      ¬((atDecode s).D.field .rd).toNat < Config.nregs) ∧
    (let s := after 1 (boot [0x010F101000000000#64])
     ReachesDecode s (atDecode s) ∧ (atDecode s).D.valid = true ∧ (atDecode s).D.op = .number 0x01#8 ∧
      Opcode.add.format.fields = [.rd] ++ .rs1 :: [.rs2] ∧
      (∀ g ∈ [Field.rd], ((atDecode s).D.field g).toNat < Config.nregs) ∧
      ¬((atDecode s).D.field .rs1).toNat < Config.nregs) ∧
    (let s := after 1 (boot [0x010F0F0F00000000#64])
     ReachesDecode s (atDecode s) ∧ (atDecode s).D.valid = true ∧ (atDecode s).D.op = .number 0x01#8 ∧
      ∀ g ∈ Opcode.add.format.fields, ((atDecode s).D.field g).toNat < Config.nregs) := by
  refine ⟨⟨?_, by decide, by decide⟩, ⟨?_, by decide, by decide, by decide⟩, ⟨?_, by decide, by decide, by decide⟩,
    ⟨?_, by decide, by decide, by decide, by decide, by decide⟩, ⟨?_, by decide, by decide, by decide, by decide, by decide⟩,
    ⟨?_, by decide, by decide, by decide⟩⟩ <;>
  exact reachesDecode (by decide) (by decide) (by decide) (by decide) (by decide) (by decide)

/-- The first cell past the end for a load, and -1 for a store. -/
theorem witness_DataAddressOutOfRangeFaults :
    (let s := accessing (.load 1#8 0#8 4096#32) State.reset
     s.faulted = none ∧ s.halted = false ∧ writebackStage s = .next (settle (writebackStage s)) ∧
      (settle (writebackStage s)).halted = false ∧ s.M.valid = true ∧ s.M.instr = some (.load 1#8 0#8 4096#32) ∧
      isLoad (Instr.load 1#8 0#8 4096#32).opcode = true ∧
      ¬(0 ≤ s.M.memoryAddress.toInt ∧ s.M.memoryAddress.toInt < Config.dmemSize)) ∧
    (let s := accessing (.store 1#8 0#8 0xFFFFFFFF#32) State.reset
     s.faulted = none ∧ s.halted = false ∧ writebackStage s = .next (settle (writebackStage s)) ∧
      (settle (writebackStage s)).halted = false ∧ s.M.valid = true ∧ s.M.instr = some (.store 1#8 0#8 0xFFFFFFFF#32) ∧
      isStore (Instr.store 1#8 0#8 0xFFFFFFFF#32).opcode = true ∧
      ¬(0 ≤ s.M.memoryAddress.toInt ∧ s.M.memoryAddress.toInt < Config.dmemSize)) := by
  refine ⟨⟨by decide, by decide, next_settle (by decide), by decide, by decide, by decide, by decide, by decide⟩,
    by decide, by decide, next_settle (by decide), by decide, by decide, by decide, by decide, by decide⟩

theorem witness_EveryFaultHasItsCause :
    (step (accessing (.load 1#8 0#8 4096#32) State.reset) = .fault (.invalidMemoryAddress 4000#32 4096#32) ∧
      (accessing (.load 1#8 0#8 4096#32) State.reset).faulted = none) ∧
    (step (after 1 (boot [])) = .fault (.invalidFetchAddress 4000#32) ∧ (after 1 (boot [])).faulted = none) ∧
    (step (after 1 (boot [0xFF00000000000000#64])) = .fault (.illegalOpcode 4000#32 0xFF#8) ∧
      (after 1 (boot [0xFF00000000000000#64])).faulted = none) ∧
    (step (after 1 (boot [0x010F0F1000000000#64])) = .fault (.invalidRegisterIndex 4000#32 .rs2 16#8) ∧
      (after 1 (boot [0x010F0F1000000000#64])).faulted = none) := by
  refine ⟨⟨?_, by decide⟩, ⟨?_, by decide⟩, ⟨?_, by decide⟩, ⟨?_, by decide⟩⟩ <;> exact fault_of (by decide)

/-- Cycle 5 of S1 writes R0 back and sets the flags. -/
theorem witness_RegistersChangeOnlyAtWriteback :
    step (after 4 (boot programS1)) = .next (settle (step (after 4 (boot programS1)))) ∧
    (settle (step (after 4 (boot programS1)))).readReg 0#8 ≠ (after 4 (boot programS1)).readReg 0#8 :=
  ⟨next_settle (by decide), by decide⟩

theorem witness_WritebackWritesExactlyTheDestinations :
    (let s := retiring (.loadp 1#8 2#8 0#32) State.reset
     s.W.valid = true ∧ s.W.instr = some (.loadp 1#8 2#8 0#32) ∧ s.W.rs1 ≠ s.W.rd ∧ s.W.writes 1#8 = true ∧
      s.W.writes 2#8 = true ∧ s.W.writes 3#8 = false) ∧
    (let s := retiring (.storep 1#8 2#8 0#32) State.reset
     s.W.valid = true ∧ s.W.instr = some (.storep 1#8 2#8 0#32) ∧ s.W.writes 2#8 = true ∧ s.W.writes 1#8 = false) := by
  decide

theorem witness_BusyIsSetOnlyByIssue :
    step (after 1 (boot programS1)) = .next (settle (step (after 1 (boot programS1)))) ∧
    (settle (step (after 1 (boot programS1)))).readBusy 0#8 = true ∧ (after 1 (boot programS1)).readBusy 0#8 = false :=
  ⟨next_settle (by decide), by decide, by decide⟩

theorem witness_FlagsChangeOnlyByFlagOps :
    step (after 4 (boot programS1)) = .next (settle (step (after 4 (boot programS1)))) ∧
    (settle (step (after 4 (boot programS1)))).flags ≠ (after 4 (boot programS1)).flags :=
  ⟨next_settle (by decide), by decide⟩

theorem witness_DataMemoryChangesOnlyByStores :
    let s := accessing (.store 1#8 0#8 4095#32) (start [(1#8, 9#32)] [])
    Memory.wf s.dmem = true ∧ step s = .next (settle (step s)) ∧
      (settle (step s)).memRead 4095#32 ≠ s.memRead 4095#32 :=
  ⟨by decide, next_settle (by decide), by decide⟩

/-- Also for `PcMovesOnlyByFetchOrRedirect`: a step that fetches, and one that redirects. -/
theorem witness_CodeMemoryNeverChanges :
    step (boot programS1) = .next (settle (step (boot programS1))) ∧
    (settle (step (boot programS1))).pc = (boot programS1).pc + 4#32 ∧
    step (after 2 (boot programBranch)) = .next (settle (step (after 2 (boot programBranch)))) ∧
    (settle (step (after 2 (boot programBranch)))).pc = 4008#32 :=
  ⟨next_settle (by decide), by decide, next_settle (by decide), by decide⟩

/-- A cycle that halts and one that does not. -/
theorem witness_CountersAndHaltedFollowWriteback :
    (step (after 4 (boot programHalt)) = .next (settle (step (after 4 (boot programHalt)))) ∧
      (after 4 (boot programHalt)).halted = false ∧ (settle (step (after 4 (boot programHalt)))).halted = true) ∧
    (step (boot programS1) = .next (settle (step (boot programS1))) ∧ (boot programS1).halted = false ∧
      (settle (step (boot programS1))).halted = false) :=
  ⟨⟨next_settle (by decide), by decide, by decide⟩, next_settle (by decide), by decide, by decide⟩

/-- The redirecting cycle of a taken branch. -/
theorem witness_StallAndRedirectNeverBothPending :
    step (after 2 (boot programBranch)) = .next (settle (step (after 2 (boot programBranch)))) ∧
    (after 2 (boot programBranch)).halted = false ∧ (settle (step (after 2 (boot programBranch)))).halted = false :=
  ⟨next_settle (by decide), by decide, by decide⟩

theorem witness_HaltingCycleEndsAfterWriteback :
    (after 4 (boot programHalt)).faulted = none ∧ (after 4 (boot programHalt)).halted = false ∧
    (after 4 (boot programHalt)).W.valid = true ∧ (after 4 (boot programHalt)).W.instr = some .halt := by decide

theorem witness_SkippedStagesWouldChangeNothing :
    (after 4 (boot programHalt)).Inv ∧ (after 4 (boot programHalt)).halted = false ∧
    (after 4 (boot programHalt)).W.holdsHalt ∧
    writebackStage (after 4 (boot programHalt)) = .next (settle (writebackStage (after 4 (boot programHalt)))) :=
  ⟨inv_halt_after_4, by decide, ⟨by decide, by decide⟩, next_settle (by decide)⟩

theorem witness_HaltedCorePerformsNoCycle :
    (after 5 (boot programHalt)).halted = true ∧ (after 5 (boot programHalt)).faulted = none := by decide

/-- A run that halts before its budget ends, and one that exhausts it. -/
theorem witness_RunIsRepeatedSteps :
    (boot programHalt).faulted = none ∧ runCore (boot programHalt) 6 = (.ended 5 1 true, after 5 (boot programHalt)) ∧
    runCore (boot programHalt) 2 = (.ended 2 0 false, after 2 (boot programHalt)) := by decide

/-- A second call that halts, and one that faults. -/
theorem witness_BudgetedRunsCompose :
    ((boot programHalt).faulted = none ∧ runCore (boot programHalt) 2 = (.ended 2 0 false, after 2 (boot programHalt)) ∧
      (runCore (after 2 (boot programHalt)) 4).1 = .ended 3 1 true) ∧
    (runCore (boot []) 1 = (.ended 1 0 false, after 1 (boot [])) ∧
      (runCore (after 1 (boot [])) 1).1 = .faulted (.invalidFetchAddress 4000#32) 0) := by decide

theorem witness_FaultKeepsTheStateAndRepeats :
    (boot []).faulted = none ∧
    runCore (boot []) 9 = (.faulted (.invalidFetchAddress 4000#32) 1,
      { after 1 (boot []) with faulted := some (.invalidFetchAddress 4000#32) }) := by decide

theorem witness_LoadBehindStoreReadsTheStoredWord :
    let s := after 3 (boot programStoreLoad)
    s.Inv ∧ s.halted = false ∧ s.M.valid = true ∧ s.M.instr = some (.store 0#8 1#8 4#32) ∧
      isStore (Instr.store 0#8 1#8 4#32).opcode = true ∧ s.E.valid = true ∧ s.E.instr = some (.load 2#8 1#8 4#32) ∧
      isLoad (Instr.load 2#8 1#8 4#32).opcode = true ∧ step s = .next (settle (step s)) ∧
      (settle (step s)).M.memoryAddress = s.M.memoryAddress ∧
      step (settle (step s)) = .next (settle (step (settle (step s)))) :=
  ⟨inv_storeLoad_after_3, by decide, by decide, by decide, by decide, by decide, by decide, by decide,
    next_settle (by decide), by decide, next_settle (by decide)⟩

/-- Two STOREP that end exactly at the last cell's increment. -/
theorem witness_PostIncrementRunStepsThroughEveryFourthCell :
    let s := { start [(0#8, 9#32), (1#8, 4088#32)] [] with
      code := [(Instr.storep 0#8 1#8 0#32).toRecord, (Instr.storep 0#8 1#8 0#32).toRecord] }
    (0#8 : RegIndex) ≠ 1#8 ∧ (BitVec.toNat 0#8) < Config.nregs ∧ (BitVec.toNat 1#8) < Config.nregs ∧ s.halted = false ∧
      Memory.wf s.dmem = true ∧
      (∀ n, n < 2 → s.codeRead (s.pc + BitVec.ofNat 32 (4 * n)) = some (Instr.storep 0#8 1#8 0#32).toRecord) ∧
      (s.readReg 1#8).toNat + 4 * 2 ≤ Config.dmemSize := by decide

theorem witness_InitMeetsTheInvariant : init (.ok []) = .ok State.reset := by decide

theorem witness_EveryStepKeepsTheInvariant :
    (after 3 (boot programS1)).Inv ∧ step (after 3 (boot programS1)) = .next (settle (step (after 3 (boot programS1)))) :=
  ⟨inv_S1_after_3, next_settle (by decide)⟩

theorem witness_NoRunIsRefused :
    (after 3 (boot programS1)).Inv ∧ init (.ok (programS1.map Record.ofPacked)) = .ok (boot programS1) :=
  ⟨inv_S1_after_3, by decide⟩

theorem witness_StraightLineHaltsInLengthPlusFour :
    (∀ i ∈ [Instr.movc 0#8 5#32, .add 1#8 0#8 0#8], i.wellFormed = true ∧ isLoad i.opcode = false ∧
      isStore i.opcode = false ∧ isBranch i.opcode = false ∧ i.opcode ≠ .jump ∧ i.opcode ≠ .jalr ∧ i.opcode ≠ .halt) ∧
    init (.ok ([Instr.movc 0#8 5#32, .add 1#8 0#8 0#8].map Instr.toRecord ++ [Instr.halt.toRecord])) =
      .ok { State.reset with
        code := [Instr.movc 0#8 5#32, .add 1#8 0#8 0#8].map Instr.toRecord ++ [Instr.halt.toRecord] } := by decide

theorem witness_PipelineRefinesSequentialExecution :
    init (.ok (programHalt.map Record.ofPacked)) = .ok (boot programHalt) ∧
    Host.Core.run core 5 (boot programHalt) = .next (after 5 (boot programHalt)) ∧
    (after 5 (boot programHalt)).halted = true :=
  ⟨by decide, next_settle (by decide), by decide⟩

end Sys2Proof.Tests
end

/-! SUPPORT. What a whole cycle does to the state, back end and front end, and the statements about the state that follow:
the invariant's step lemma and what may write registers, busy bits, flags and `pc`. -/

namespace Sys2Proof.Machine

/-! ### A latch handed from one stage to the next -/

/-- `m` holds what `l` held: the same `valid` bit, and the same record where that bit is set (40_pipeline.md R106). -/
structure Latch.PassedTo (l m : Latch) : Prop where
  valid : m.valid = l.valid
  record : l.valid = true → l.SameRecord m

theorem Latch.PassedTo.legal {l m : Latch} (h : l.PassedTo m) (hl : l.legal) : m.legal := by
  intro hm
  have hv : l.valid = true := h.valid ▸ hm
  rw [(h.record hv).instr]
  exact hl hv

theorem Latch.PassedTo.holdsHalt {l m : Latch} (h : l.PassedTo m) (hm : m.holdsHalt) : l.holdsHalt := by
  obtain ⟨hv, hop⟩ := hm
  have hv' : l.valid = true := h.valid ▸ hv
  exact ⟨hv', (h.record hv').opcode ▸ hop⟩

theorem Latch.PassedTo.writes {l m : Latch} (h : l.PassedTo m) {r : RegIndex} (hw : l.writes r = true) :
    m.writes r = true :=
  (Latch.writes_congr (h.record (Latch.writes_valid hw)) h.valid r).trans hw

theorem Latch.legal_of_invalid {l : Latch} (h : l.valid = false) : l.legal := by
  intro hv
  rw [h] at hv
  cases hv

theorem Latch.not_holdsHalt_of_invalid {l : Latch} (h : l.valid = false) : ¬ l.holdsHalt := by
  rintro ⟨hv, -⟩
  rw [h] at hv
  cases hv

theorem Latch.not_writes_of_invalid {l : Latch} (h : l.valid = false) (r : RegIndex) : l.writes r = false := by
  simp [Latch.writes, h]

/-! ### Transfers that are not made -/

theorem State.transfer_of_invalid {s : State} (h : s.E.valid = false) : s.transfer = none := by
  simp [State.transfer, h]

theorem State.transfer_of_halt {s : State} (h : s.E.holdsHalt) : s.transfer = none := by
  obtain ⟨hv, hop⟩ := h
  cases hi : s.E.instr with
  | none => simp [State.transfer, hi]
  | some i =>
    have hh : i = .halt := opcode_eq_halt.1 (Option.some.inj ((Latch.opcode_of_instr hi).symm.trans hop))
    simp [State.transfer, hv, hi, hh, transferTarget]

/-- A transfer is made by a legal instruction in `E` (43_control.md R210). -/
theorem State.transfer_eq_some {s : State} {x : Word} (h : s.transfer = some x) :
    ∃ i, s.E.valid = true ∧ s.E.instr = some i ∧ transferTarget i s.E s.flags = some x := by
  unfold State.transfer at h
  split at h
  · next i hv hi => exact ⟨i, hv, hi, h⟩
  · cases h

theorem State.transfer_congr {s t : State} (hE : t.E = s.E) (hf : t.flags = s.flags) : t.transfer = s.transfer := by
  simp only [State.transfer, hE, hf]

/-! ### Writeback, Memory and Execute together: from the start of a cycle to what Decode sees -/

theorem writebackStage_readReg {s t : State} (h : writebackStage s = .next t) {r : RegIndex}
    (hr : s.W.writes r = false) : t.readReg r = s.readReg r := by
  rcases writebackStage_cases h with ⟨-, ht⟩ | ⟨i, hv, hi, ht⟩ | ⟨-, -, ht⟩
  · cases ht
    rfl
  · cases ht
    exact (commit_other hv hi hr).1
  · cases ht

/-- What the three back-end stages do to a state `s` whose cycle reaches Decode with `u` (40_pipeline.md R101). -/
structure BackEndEffect (s u : State) : Prop where
  regs : ∀ r, s.W.writes r = false → u.readReg r = s.readReg r
  busy : ∀ r, u.readBusy r = true → s.readBusy r = true ∧ s.W.writes r = false
  halted : u.halted = false
  noHaltInW : ¬ s.W.holdsHalt
  clock : u.clock = s.clock
  completed : u.completed = s.completed + s.W.valid.toNat
  code : u.code = s.code
  faulted : u.faulted = none
  dmem : u.dmem = s.dmem ∨ (s.M.valid = true ∧ (∃ op, s.M.opcode = some op ∧ isStore op = true) ∧
    dataAddressOk s.M.memoryAddress = true ∧ u.dmem = (s.memWrite s.M.memoryAddress s.M.rs1Value).dmem)
  flags : u.flags = s.flags ∨
    (s.E.valid = true ∧ (∃ op, s.E.opcode = some op ∧ isFlagOp op = true) ∧ ∃ v, u.flags = flagsOf v)
  eEmpty : u.E.valid = false
  toM : s.E.PassedTo u.M
  toW : s.M.PassedTo u.W
  redirected : ∀ x, s.transfer = some x →
    u.pc = x ∧ u.fetchFromNextCycle = true ∧ u.D = { s.D with valid := false } ∧ u.F = { s.F with valid := true }
  straight : s.transfer = none →
    u.pc = s.pc ∧ u.fetchFromNextCycle = s.fetchFromNextCycle ∧ u.D = s.D ∧ u.F = s.F

theorem ReachesDecode.effect {s u : State} (h : ReachesDecode s u) : BackEndEffect s u := by
  obtain ⟨hnf, hrun, s1, s2, h1, hh1, h2, h3⟩ := h
  have w := writebackStage_frame h1
  have m := memoryStage_frame h2
  have e := executeStage_frame h3
  have hE : s2.E = s.E := m.E.trans w.E
  have hM : s1.M = s.M := w.M
  have hflags : s2.flags = s.flags := m.flags.trans w.flags
  have htr : s2.transfer = s.transfer := State.transfer_congr hE hflags
  refine
    { regs := fun r hr => ?regs
      busy := fun r hr => ?busy
      halted := e.halted.trans (m.halted.trans hh1)
      noHaltInW := fun hw => ?noHaltInW
      clock := e.clock.trans (m.clock.trans w.clock)
      completed := e.completed.trans (m.completed.trans w.completed)
      code := e.code.trans (m.code.trans w.code)
      faulted := e.faulted.trans (m.faulted.trans (w.faulted.trans hnf))
      dmem := ?dmem
      flags := ?flags
      eEmpty := e.eEmpty
      toM := ⟨e.mValid.trans (by rw [hE]), fun hv => ?toM⟩
      toW := ⟨?wValid, fun hv => ?toW⟩
      redirected := fun x hx => ?redirected
      straight := fun hn => ?straight }
  case regs =>
    rw [State.readReg_congr e.regs, State.readReg_congr m.regs, writebackStage_readReg h1 hr]
  case busy =>
    rw [State.readBusy_congr e.busy, State.readBusy_congr m.busy] at hr
    exact writebackStage_busy h1 hr
  case noHaltInW =>
    obtain ⟨hv, hop⟩ := hw
    have hhalt := w.halted
    simp [hh1, hv, hop] at hhalt
  case dmem =>
    rw [e.dmem, ← hM, ← w.dmem]
    simpa [State.memWrite, w.dmem] using memoryStage_dmem h2
  case flags =>
    rw [← hE, ← hflags]
    exact executeStage_flags h3
  case toM => rw [← hE] at hv ⊢; exact e.mRecord hv
  case wValid => rw [e.W, m.wValid, hM]
  case toW => rw [← hM] at hv ⊢; rw [e.W]; exact m.wRecord hv
  case redirected =>
    simpa only [m.D.trans w.D, m.F.trans w.F] using e.redirected x (htr.trans hx)
  case straight =>
    simpa only [m.D.trans w.D, m.F.trans w.F, m.pc.trans w.pc, m.fetchFromNextCycle.trans w.fetchFromNextCycle]
      using e.straight (htr.trans hn)

/-- A valid `D` has not been flushed, so no transfer was made and the front end is as it was (40_pipeline.md R122). -/
theorem BackEndEffect.front_of_decodeValid {s u : State} (h : BackEndEffect s u) (hD : u.D.valid = true) :
    u.pc = s.pc ∧ u.fetchFromNextCycle = s.fetchFromNextCycle ∧ u.D = s.D ∧ u.F = s.F := by
  cases hx : s.transfer with
  | none => exact h.straight hx
  | some x =>
    obtain ⟨-, -, hd, -⟩ := h.redirected x hx
    rw [hd] at hD
    cases hD

/-! ### Fetch and the cycle -/

/-- Fetch leaves `pc`, `D` and the fetch enable alone, or hands the instruction at `pc` to Decode and, if that is a HALT,
turns itself off (40_pipeline.md R145, R148, R150). -/
theorem fetchStage_front (s : State) :
    ((fetchStage s).pc = s.pc ∧ (fetchStage s).D = s.D ∧ (fetchStage s).F.valid = s.F.valid) ∨
    (s.fetchFromNextCycle = false ∧ s.F.valid = true ∧ s.stallPipeline = false ∧
      (fetchStage s).pc = nextPc s.pc ∧ (fetchStage s).D.valid = true ∧ (fetchStage s).D.pc = s.pc ∧
      ((fetchStage s).D.holdsHalt → (fetchStage s).F.valid = false)) := by
  rcases fetchStage_cases s with ⟨-, h⟩ | ⟨-, -, h⟩ | ⟨-, -, -, h⟩ | ⟨hr, hv, hst, h⟩ <;> rw [h]
  · exact .inl ⟨rfl, rfl, rfl⟩
  · exact .inl ⟨rfl, rfl, rfl⟩
  · exact .inl ⟨rfl, rfl, by simp⟩
  · exact .inr ⟨hr, hv, hst, rfl, by simp [hv], by simp, fun hh => by simpa [hv] using hh.2⟩

/-- `step_cases` with the back end in one piece: the machine was halted, it halts in this cycle, or the cycle reaches
Decode with `u` and Fetch with `v`. -/
theorem step_reaches {s t : State} (h : step s = .next t) :
    (s.halted = true ∧ t = s) ∨
    (s.halted = false ∧ ∃ s1, writebackStage s = .next s1 ∧ s1.halted = true ∧ t = s1.tick) ∨
    ∃ u v, ReachesDecode s u ∧ decodeStage u = .next v ∧ t = (fetchStage v).tick := by
  obtain ⟨hf, hhalted | hhalting | ⟨hrun, s1, s2, u, v, h1, hh1, h2, h3, h4, ht⟩⟩ := step_cases h
  · exact .inl hhalted
  · exact .inr (.inl hhalting)
  · exact .inr (.inr ⟨u, v, ⟨hf, hrun, s1, s2, h1, hh1, h2, h3⟩, h4, ht⟩)

/-! ### The front end behind a HALT -/

/-- With fetch off, Decode and Fetch leave fetch off and put nothing into `D` (40_pipeline.md R149). -/
theorem front_stays_off {u v : State} (hd : decodeStage u = .next v) (hF : u.F.valid = false) :
    (fetchStage v).F.valid = false ∧ (fetchStage v).D = v.D := by
  have hvF : v.F.valid = false := (decodeStage_frame hd).F ▸ hF
  rcases fetchStage_front v with ⟨-, hD, hv⟩ | ⟨-, hv, -⟩
  · exact ⟨hv.trans hvF, hD⟩
  · rw [hvF] at hv
    cases hv

/-- With fetch off and `D` empty, nothing enters `D` or `E`. -/
theorem front_stays_empty {u v : State} (hd : decodeStage u = .next v) (hF : u.F.valid = false)
    (hD : u.D.valid = false) :
    (fetchStage v).F.valid = false ∧ (fetchStage v).D.valid = false ∧ (fetchStage v).E = u.E := by
  obtain ⟨hF', hD'⟩ := front_stays_off hd hF
  rw [decodeStage_empty hD] at hd
  cases hd
  exact ⟨hF', (congrArg Latch.valid hD').trans hD, (fetchStage_frame _).E⟩

section InvariantStep

variable {s u v : State}

/-- A HALT that Decode sees has fetch off behind it (40_pipeline.md R150). -/
theorem State.Inv.fetchOff_of_haltInDecode (hI : s.Inv) (hb : BackEndEffect s u) (hD : u.D.holdsHalt) :
    u.F.valid = false := by
  obtain ⟨-, -, hd, hf⟩ := hb.front_of_decodeValid hD.1
  rw [hf]
  exact hI.haltInDecode (hd ▸ hD)

theorem haltInDecode_after_cycle (hI : s.Inv) (hb : BackEndEffect s u) (hd : decodeStage u = .next v)
    (hh : (fetchStage v).D.holdsHalt) : (fetchStage v).F.valid = false := by
  rcases fetchStage_front v with ⟨-, hD, hF⟩ | ⟨-, -, -, -, -, -, hoff⟩
  · rw [hD] at hh
    have hfr := decodeStage_frame hd
    rcases decodeStage_latches hd with ⟨-, hv, -⟩ | ⟨-, -, hv, -⟩ | ⟨hv, -⟩
    · exact absurd hh (Latch.not_holdsHalt_of_invalid hv)
    · exact absurd hh (Latch.not_holdsHalt_of_invalid hv)
    · rw [hF, hfr.F]
      exact hI.fetchOff_of_haltInDecode hb ⟨hv, hfr.dRecord.opcode ▸ hh.2⟩
  · exact hoff hh

theorem haltInExecute_after_cycle (hI : s.Inv) (hb : BackEndEffect s u) (hd : decodeStage u = .next v)
    (hh : (fetchStage v).E.holdsHalt) : (fetchStage v).F.valid = false ∧ (fetchStage v).D.valid = false := by
  rw [(fetchStage_frame v).E] at hh
  have hbubble : v.E = u.E → ¬ v.E.holdsHalt := fun he => he ▸ Latch.not_holdsHalt_of_invalid hb.eEmpty
  rcases decodeStage_latches hd with ⟨-, -, hE, -⟩ | ⟨hv, -, hvD, -, hrec, -⟩ | ⟨-, -, -, hE, -⟩
  · exact absurd hh (hbubble hE)
  · obtain ⟨hF, hD⟩ := front_stays_off hd (hI.fetchOff_of_haltInDecode hb ⟨hv, hrec.opcode ▸ hh.2⟩)
    exact ⟨hF, hD ▸ hvD⟩
  · exact absurd hh (hbubble hE)

/-- Behind a HALT that has left Decode nothing is fetched or issued: an empty front end that no transfer restarts stays
empty (40_pipeline.md R149, R150). -/
theorem front_empty_after_cycle (hb : BackEndEffect s u) (hd : decodeStage u = .next v) (htr : s.transfer = none)
    (hF : s.F.valid = false) (hD : s.D.valid = false) :
    (fetchStage v).F.valid = false ∧ (fetchStage v).D.valid = false ∧ (fetchStage v).E.valid = false := by
  obtain ⟨-, -, hdu, hfu⟩ := hb.straight htr
  obtain ⟨hF', hD', hE'⟩ := front_stays_empty hd (hfu ▸ hF) (hdu ▸ hD)
  exact ⟨hF', hD', hE' ▸ hb.eEmpty⟩

/-! ### The parts of the invariant after a full cycle -/

theorem memory_after_backEnd (hI : s.Inv) (hb : BackEndEffect s u) :
    Memory.wf u.dmem = true ∧ ∀ c ∈ u.dmem, c.1 < Config.dmemSize := by
  rcases hb.dmem with h | ⟨-, -, hok, h⟩ <;> rw [h]
  · exact ⟨hI.memoryCanonical, hI.memoryInRange⟩
  · refine ⟨State.memWrite_wf hI.memoryCanonical _ _, fun c hc => ?_⟩
    rcases mem_cellWrite hc with ha | hc
    · exact ha ▸ toNat_lt_of_dataAddressOk hok
    · exact hI.memoryInRange c hc

theorem flagsOneHot_after_backEnd (hI : s.Inv) (hb : BackEndEffect s u) : u.flags.oneHot = true := by
  rcases hb.flags with h | ⟨-, -, w, h⟩ <;> rw [h]
  · exact hI.flagsOneHot
  · exact flagsOf_oneHot w

/-- What Decode issues has passed its checks (40_pipeline.md R138, R142). -/
theorem executeLegal_after_decode (hd : decodeStage u = .next v) (hE : u.E.valid = false) : v.E.legal := by
  rcases decodeStage_latches hd with ⟨-, -, he, -⟩ | ⟨-, ⟨op, hc⟩, -, -, hrec, -⟩ | ⟨-, -, -, he, -⟩
  · exact he ▸ Latch.legal_of_invalid hE
  · intro _
    rw [hrec.instr, instr_of_checkDecode hc]
    rfl
  · exact he ▸ Latch.legal_of_invalid hE

theorem stalled_after_cycle (hb : BackEndEffect s u) (hd : decodeStage u = .next v)
    (hs : (fetchStage v).stallPipeline = true) :
    (fetchStage v).D.valid = true ∧ (∃ op, checkDecode (fetchStage v).D = .ok op) ∧
      (fetchStage v).E.valid = false := by
  rw [(fetchStage_frame v).stallPipeline] at hs
  rcases decodeStage_latches hd with ⟨-, -, -, h⟩ | ⟨-, -, -, -, -, h⟩ | ⟨-, ⟨op, hc⟩, hvD, hE, -⟩
  · rw [h] at hs; cases hs
  · rw [h] at hs; cases hs
  · have hD : (fetchStage v).D = v.D := by
      rcases fetchStage_front v with ⟨-, hD, -⟩ | ⟨-, -, hns, -⟩
      · exact hD
      · rw [hs] at hns; cases hns
    rw [hD, (fetchStage_frame v).E, hE, checkDecode_congr (decodeStage_frame hd).dRecord]
    exact ⟨hvD, ⟨op, hc⟩, hb.eEmpty⟩

/-- A busy bit left by Writeback belongs to an instruction that has moved on one latch; a new one to the instruction just
issued (40_pipeline.md R157). -/
theorem busyHasProducer_after_decode (hI : s.Inv) (hb : BackEndEffect s u) (hd : decodeStage u = .next v)
    {r : RegIndex} (hr : v.readBusy r = true) :
    v.E.writes r = true ∨ v.M.writes r = true ∨ v.W.writes r = true := by
  have hfr := decodeStage_frame hd
  rw [hfr.M, hfr.W]
  rcases decodeStage_busy hd hr with h | ⟨-, h⟩
  · obtain ⟨hs, hnW⟩ := hb.busy r h
    rcases hI.busyHasProducer r hs with h | h | h
    · exact .inr (.inl (hb.toM.writes h))
    · exact .inr (.inr (hb.toW.writes h))
    · rw [hnW] at h
      cases h
  · exact .inl h

/-- In a full cycle every instruction in flight moves on one latch, one is counted when it leaves `W`, and at most one enters
`E` (40_pipeline.md R112, R138). -/
theorem issuedAtMostOncePerCycle_after_cycle (hI : s.Inv) (hb : BackEndEffect s u) (hd : decodeStage u = .next v) :
    (fetchStage v).tick.completed + (fetchStage v).tick.inFlight ≤ (fetchStage v).tick.clock := by
  have hfr := decodeStage_frame hd
  have hff := fetchStage_frame v
  have hinv := hI.issuedAtMostOncePerCycle
  have hissue := Bool.toNat_le v.E.valid
  simp only [State.inFlight, State.tick_completed, State.tick_clock, State.tick_E, State.tick_M, State.tick_W,
    hff.completed, hff.clock, hff.E, hff.M, hff.W, hfr.completed, hfr.clock, hfr.M, hfr.W, hb.completed, hb.clock,
    hb.toM.valid, hb.toW.valid] at hinv ⊢
  omega

/-- A cycle in which every stage runs keeps the invariant. -/
theorem State.Inv.after_cycle (hI : s.Inv) (hb : BackEndEffect s u) (hd : decodeStage u = .next v) :
    (fetchStage v).tick.Inv := by
  have hfr := decodeStage_frame hd
  have hff := fetchStage_frame v
  have hmem := memory_after_backEnd hI hb
  have hM : (fetchStage v).M = u.M := hff.M.trans hfr.M
  have hW : (fetchStage v).W = u.W := hff.W.trans hfr.W
  have hdmem : (fetchStage v).dmem = u.dmem := hff.dmem.trans hfr.dmem
  exact
    { memoryCanonical := by simpa [hdmem] using hmem.1
      memoryInRange := by simpa [hdmem] using hmem.2
      flagsOneHot := by simpa [hff.flags, hfr.flags] using flagsOneHot_after_backEnd hI hb
      executeLegal := by simpa [hff.E] using executeLegal_after_decode hd hb.eEmpty
      memoryLegal := by simpa [hM] using hb.toM.legal hI.executeLegal
      writebackLegal := by simpa [hW] using hb.toW.legal hI.memoryLegal
      noPendingRedirect := hff.fetchFromNextCycle
      stalled := stalled_after_cycle hb hd
      haltInDecode := haltInDecode_after_cycle hI hb hd
      haltInExecute := haltInExecute_after_cycle hI hb hd
      haltInMemory := fun hh => by
        have hE : s.E.holdsHalt := hb.toM.holdsHalt (hM ▸ hh)
        obtain ⟨hF, hD⟩ := hI.haltInExecute hE
        exact front_empty_after_cycle hb hd (State.transfer_of_halt hE) hF hD
      haltInWriteback := fun hh => by
        obtain ⟨hF, hD, hE⟩ := hI.haltInMemory (hb.toW.holdsHalt (hW ▸ hh))
        obtain ⟨hF', hD', hE'⟩ := front_empty_after_cycle hb hd (State.transfer_of_invalid hE) hF hD
        exact ⟨hF', hD', hE', (congrArg Latch.valid hM).trans (hb.toM.valid.trans hE)⟩
      haltedEmpty := fun hh => by
        have hrun : (fetchStage v).halted = false := hff.halted.trans (hfr.halted.trans hb.halted)
        exact absurd (hrun.symm.trans hh) (by decide)
      busyHasProducer := fun r hr => by
        simp only [State.tick_E, State.tick_M, State.tick_W, hff.E, hff.M, hff.W]
        exact busyHasProducer_after_decode hI hb hd ((State.readBusy_congr hff.busy r).symm.trans hr)
      issuedAtMostOncePerCycle := issuedAtMostOncePerCycle_after_cycle hI hb hd }

end InvariantStep

/-- The cycle that writes HALT back keeps the invariant: behind that HALT nothing is in flight, so the machine it leaves is
empty and no register is busy (40_pipeline.md R103). -/
theorem State.Inv.after_haltingCycle {s s1 : State} (hI : s.Inv) (hrun : s.halted = false)
    (h1 : writebackStage s = .next s1) (hh : s1.halted = true) : s1.tick.Inv := by
  have w := writebackStage_frame h1
  have hW : s.W.holdsHalt := by simpa [w.halted, hrun, Latch.holdsHalt] using hh
  obtain ⟨hF, hD, hE, hM⟩ := hI.haltInWriteback hW
  have hnotBusy : ∀ r, s1.readBusy r ≠ true := by
    intro r hr
    obtain ⟨hs, hnW⟩ := writebackStage_busy h1 hr
    have hprod := hI.busyHasProducer r hs
    simp [Latch.not_writes_of_invalid hE, Latch.not_writes_of_invalid hM, hnW] at hprod
  have hcount := hI.issuedAtMostOncePerCycle
  exact
    { memoryCanonical := w.dmem ▸ hI.memoryCanonical
      memoryInRange := w.dmem ▸ hI.memoryInRange
      flagsOneHot := w.flags ▸ hI.flagsOneHot
      executeLegal := w.E ▸ hI.executeLegal
      memoryLegal := w.M ▸ hI.memoryLegal
      writebackLegal := Latch.legal_of_invalid w.wEmpty
      noPendingRedirect := w.fetchFromNextCycle ▸ hI.noPendingRedirect
      stalled := fun hs => by simpa [w.D, w.E] using hI.stalled (w.stallPipeline ▸ hs)
      haltInDecode := fun _ => w.F ▸ hF
      haltInExecute := fun _ => ⟨w.F ▸ hF, w.D ▸ hD⟩
      haltInMemory := fun _ => ⟨w.F ▸ hF, w.D ▸ hD, w.E ▸ hE⟩
      haltInWriteback := fun _ => ⟨w.F ▸ hF, w.D ▸ hD, w.E ▸ hE, w.M ▸ hM⟩
      haltedEmpty := fun _ => ⟨w.F ▸ hF, w.D ▸ hD, w.E ▸ hE, w.M ▸ hM, w.wEmpty⟩
      busyHasProducer := fun r hr => absurd hr (hnotBusy r)
      issuedAtMostOncePerCycle := by
        simp only [State.inFlight, State.tick_completed, State.tick_clock, State.tick_E, State.tick_M, State.tick_W,
          w.completed, w.clock, w.E, w.M, w.wEmpty, Bool.toNat_false] at hcount ⊢
        omega }

/-- Settles O51, by the three ways of a step. -/
theorem everyStepKeepsTheInvariant : Obligations.EveryStepKeepsTheInvariant := by
  intro s t hI h
  rcases step_reaches h with ⟨-, rfl⟩ | ⟨hrun, s1, h1, hh, rfl⟩ | ⟨u, v, hu, hd, rfl⟩
  · exact hI
  · exact hI.after_haltingCycle hrun h1 hh
  · exact hI.after_cycle hu.effect hd

/-- Settles O33: of the stages only Writeback writes registers, and it writes the destinations of the instruction in `W`. -/
theorem registersChangeOnlyAtWriteback : Obligations.RegistersChangeOnlyAtWriteback := by
  intro s t r h hne
  by_contra hr
  rw [Bool.not_eq_true] at hr
  refine hne ?_
  rcases step_reaches h with ⟨-, rfl⟩ | ⟨-, s1, h1, -, rfl⟩ | ⟨u, v, hu, hd, rfl⟩
  · rfl
  · exact writebackStage_readReg h1 hr
  · have hregs : (fetchStage v).tick.regs = u.regs := (fetchStage_frame v).regs.trans (decodeStage_frame hd).regs
    exact (State.readReg_congr hregs r).trans (hu.effect.regs r hr)

/-- Settles O35: Writeback only clears busy bits, Memory, Execute and Fetch touch none, and Decode sets those of the
instruction it issues. -/
theorem busyIsSetOnlyByIssue : Obligations.BusyIsSetOnlyByIssue := by
  intro s t r h hset hclear
  have hstill : s.readBusy r ≠ true := by simp [hclear]
  rcases step_reaches h with ⟨-, rfl⟩ | ⟨-, s1, h1, -, rfl⟩ | ⟨u, v, hu, hd, rfl⟩
  · exact absurd hset hstill
  · exact absurd (writebackStage_busy h1 hset).1 hstill
  · have hb := hu.effect
    have hff := fetchStage_frame v
    replace hset : v.readBusy r = true := (State.readBusy_congr hff.busy r).symm.trans hset
    rcases decodeStage_busy hd hset with hs | ⟨hDw, hEw⟩
    · exact absurd (hb.busy r hs).1 hstill
    · obtain ⟨-, -, hD, -⟩ := hb.front_of_decodeValid (Latch.writes_valid hDw)
      have hEv : v.E.valid = true := Latch.writes_valid hEw
      have hissued : u.D.SameRecord v.E := by
        rcases decodeStage_latches hd with ⟨-, -, hE, -⟩ | ⟨-, -, -, -, hrec, -⟩ | ⟨-, -, -, hE, -⟩
        · rw [hE, hb.eEmpty] at hEv; cases hEv
        · exact hrec
        · rw [hE, hb.eEmpty] at hEv; cases hEv
      rw [State.tick_E, hff.E, ← hD]
      exact ⟨hDw, hEv, hissued.pc, hissued.op⟩

/-- The flag computation is what R121 says (40_pipeline.md R121). -/
theorem flagsDescribe_flagsOf (v : Word) : FlagsDescribe v (flagsOf v) := by
  simp [FlagsDescribe, flagsOf]

/-- Settles O36: only Execute writes the flags, through `SetFlags`. -/
theorem flagsChangeOnlyByFlagOps : Obligations.FlagsChangeOnlyByFlagOps := by
  intro s t h hne
  rcases step_reaches h with ⟨-, rfl⟩ | ⟨-, s1, h1, -, rfl⟩ | ⟨u, v, hu, hd, rfl⟩
  · exact absurd rfl hne
  · exact absurd (writebackStage_frame h1).flags hne
  · have hflags : (fetchStage v).tick.flags = u.flags :=
      (fetchStage_frame v).flags.trans (decodeStage_frame hd).flags
    rw [hflags] at hne ⊢
    rcases hu.effect.flags with hsame | ⟨hv, hop, w, hw⟩
    · exact absurd hsame hne
    · rw [hw]
      exact ⟨hv, hop, ⟨w, flagsDescribe_flagsOf w⟩, flagsOf_oneHot w⟩

/-- Settles O39: a taken transfer in `E` sets `pc` and keeps Fetch from moving it; else only Fetch's handoff moves it. -/
theorem pcMovesOnlyByFetchOrRedirect : Obligations.PcMovesOnlyByFetchOrRedirect := by
  intro s t h
  rcases step_reaches h with ⟨-, rfl⟩ | ⟨-, s1, h1, -, rfl⟩ | ⟨u, v, hu, hd, rfl⟩
  · exact .inl rfl
  · exact .inl (writebackStage_frame h1).pc
  · have hb := hu.effect
    have hfr := decodeStage_frame hd
    simp only [State.tick_pc, State.tick_D]
    cases hx : s.transfer with
    | none =>
      have hpc : v.pc = s.pc := hfr.pc.trans (hb.straight hx).1
      rcases fetchStage_front v with ⟨h, -⟩ | ⟨-, -, -, h, hDv, hDpc, -⟩
      · exact .inl (h.trans hpc)
      · exact .inr (.inl ⟨h.trans (congrArg nextPc hpc), hDv, hDpc.trans hpc⟩)
    | some x =>
      obtain ⟨hpc, hff, -⟩ := hb.redirected x hx
      rcases fetchStage_front v with ⟨h, -⟩ | ⟨hnone, -⟩
      · rw [h, hfr.pc, hpc]
        exact .inr (.inr (State.transfer_eq_some hx))
      · rw [hfr.fetchFromNextCycle, hff] at hnone
        cases hnone

end Sys2Proof.Machine

/-! SUPPORT. The memories over a whole step: what may write a data cell, that nothing writes the code memory, and how a load
reads a store that is one instruction ahead of it. -/

namespace Sys2Proof.Machine

/-! ### The front end leaves the back end alone -/

/-- What Decode, Fetch and the clock leave of a state `u` that Decode sees (40_pipeline.md R137, R145). -/
structure FrontEndFrame (u t : State) : Prop where
  halted : t.halted = u.halted
  dmem : t.dmem = u.dmem
  code : t.code = u.code
  M : t.M = u.M
  W : t.W = u.W

theorem frontEnd_frame {u v : State} (h : decodeStage u = .next v) : FrontEndFrame u (fetchStage v).tick := by
  have d := decodeStage_frame h
  have f := fetchStage_frame v
  exact ⟨f.halted.trans d.halted, f.dmem.trans d.dmem, f.code.trans d.code, f.M.trans d.M, f.W.trans d.W⟩

/-- A step of a running machine without a HALT in `W` runs every stage (40_pipeline.md R103, R113). -/
theorem step_reachesDecode {s t : State} (h : step s = .next t) (hrun : s.halted = false) (hW : ¬ s.W.holdsHalt) :
    ∃ u, ReachesDecode s u ∧ FrontEndFrame u t := by
  rcases step_reaches h with ⟨hh, -⟩ | ⟨-, s1, h1, hh, -⟩ | ⟨u, v, hu, hd, rfl⟩
  · rw [hrun] at hh
    cases hh
  · have hhalt : s.W.holdsHalt := by simpa [(writebackStage_frame h1).halted, hrun, Latch.holdsHalt] using hh
    exact absurd hhalt hW
  · exact ⟨u, hu, frontEnd_frame hd⟩

/-! ### The two memories over a step -/

theorem State.codeRead_congr {s t : State} (h : t.code = s.code) (pc : Word) : t.codeRead pc = s.codeRead pc := by
  simp only [State.codeRead, h]

/-- A write that changes what cell `a` reads is a write to `a`, and `a` then reads the written word (20_memory.md R51). -/
theorem State.memWrite_changes {s : State} {a b v : Word} (hw : Memory.wf s.dmem = true)
    (hne : (s.memWrite b v).memRead a ≠ s.memRead a) : a = b ∧ (s.memWrite b v).memRead a = v := by
  have hab : a = b := by
    by_contra hab
    exact hne (s.memRead_memWrite_other v hab)
  exact ⟨hab, hab ▸ State.memRead_memWrite_same hw a v⟩

/-- Settles O37: of the stages only Memory writes data cells, and it writes one, for a store. -/
theorem dataMemoryChangesOnlyByStores : Obligations.DataMemoryChangesOnlyByStores := by
  intro s t a hw h hne
  rcases step_reaches h with ⟨-, rfl⟩ | ⟨-, s1, h1, -, rfl⟩ | ⟨u, v, hu, hd, rfl⟩
  · exact absurd rfl hne
  · exact absurd (State.memRead_congr (writebackStage_frame h1).dmem a) hne
  · have hdmem := (frontEnd_frame hd).dmem
    rcases hu.effect.dmem with hsame | ⟨hv, hop, -, hstored⟩
    · exact absurd (State.memRead_congr (hdmem.trans hsame) a) hne
    · rw [State.memRead_congr (hdmem.trans hstored)] at hne ⊢
      exact ⟨hv, hop, State.memWrite_changes hw hne⟩

/-- Settles O38: no stage writes the code memory. -/
theorem codeMemoryNeverChanges : Obligations.CodeMemoryNeverChanges := by
  intro s t h
  have hcode : t.code = s.code := by
    rcases step_reaches h with ⟨-, rfl⟩ | ⟨-, s1, h1, -, rfl⟩ | ⟨u, v, hu, hd, rfl⟩
    · rfl
    · exact (writebackStage_frame h1).code
    · exact (frontEnd_frame hd).code.trans hu.effect.code
  exact ⟨hcode, State.codeRead_congr hcode⟩

/-! ### The access of a known load or store -/

theorem isStore_of_isLoad {op : Opcode} (h : isLoad op = true) : isStore op = false := by
  revert h
  cases op <;> decide

/-- A store that passes its address check has written its cell (40_pipeline.md R115, R116). -/
theorem memoryAccess_of_isStore {i : Instr} {s t : State} (h : memoryAccess i s = .next t)
    (hs : isStore i.opcode = true) : t = s.memWrite s.M.memoryAddress s.M.rs1Value := by
  rcases memoryAccess_cases h with ⟨-, hn, -⟩ | ⟨hl, -, -⟩ | ⟨-, -, ht⟩ | ⟨-, -, ht⟩
  · simp [hn] at hs
  · simp [isStore_of_isLoad hl] at hs
  · cases ht
    rfl
  · cases ht

/-- A load that passes its address check holds the word of its cell (40_pipeline.md R115). -/
theorem memoryAccess_of_isLoad {i : Instr} {s t : State} (h : memoryAccess i s = .next t)
    (hl : isLoad i.opcode = true) :
    t = { s with M := { s.M with resultBuffer := s.memRead s.M.memoryAddress } } := by
  rcases memoryAccess_cases h with ⟨hn, -, -⟩ | ⟨-, -, ht⟩ | ⟨hs, -, -⟩ | ⟨-, -, ht⟩
  · simp [hn] at hl
  · cases ht
    rfl
  · simp [isStore_of_isLoad hl] at hs
  · cases ht

/-- A legal instruction in `M` makes its access and moves on to `W` (40_pipeline.md R115). -/
theorem memoryStage_access {i : Instr} {s t : State} (h : memoryStage s = .next t) (hv : s.M.valid = true)
    (hi : s.M.instr = some i) : ∃ u, memoryAccess i s = .next u ∧ t = passToW u := by
  simp only [memoryStage, hv, hi, if_true] at h
  obtain ⟨u, hu, ht⟩ := andThen_eq_next.1 h
  cases ht
  exact ⟨u, hu, rfl⟩

theorem ReachesDecode.store_dmem {i : Instr} {s u : State} (h : ReachesDecode s u) (hv : s.M.valid = true)
    (hi : s.M.instr = some i) (hs : isStore i.opcode = true) :
    u.dmem = (s.memWrite s.M.memoryAddress s.M.rs1Value).dmem := by
  obtain ⟨-, -, s1, s2, h1, -, h2, h3⟩ := h
  have w := writebackStage_frame h1
  obtain ⟨m, hm, rfl⟩ := memoryStage_access h2 (w.M ▸ hv) (w.M ▸ hi)
  rw [(executeStage_frame h3).dmem, passToW_dmem, memoryAccess_of_isStore hm hs]
  simp only [State.memWrite, w.M, w.dmem]

theorem ReachesDecode.load_result {i : Instr} {s u : State} (h : ReachesDecode s u) (hv : s.M.valid = true)
    (hi : s.M.instr = some i) (hl : isLoad i.opcode = true) :
    u.W.resultBuffer = s.memRead s.M.memoryAddress := by
  obtain ⟨-, -, s1, s2, h1, -, h2, h3⟩ := h
  have w := writebackStage_frame h1
  obtain ⟨m, hm, rfl⟩ := memoryStage_access h2 (w.M ▸ hv) (w.M ▸ hi)
  rw [(executeStage_frame h3).W, passToW_W, memoryAccess_of_isLoad hm hl]
  simp only [State.memRead, w.M, w.dmem]

/-! ### A load behind a store -/

theorem Latch.not_holdsHalt_of_isStore {l : Latch} {i : Instr} (hi : l.instr = some i)
    (hs : isStore i.opcode = true) : ¬ l.holdsHalt := by
  rintro ⟨-, hop⟩
  rw [Option.some.inj ((Latch.opcode_of_instr hi).symm.trans hop)] at hs
  cases hs

theorem Latch.PassedTo.instr {l m : Latch} (h : l.PassedTo m) (hv : l.valid = true) : m.instr = l.instr :=
  (h.record hv).instr

/-- Settles O48: the store writes its cell in the first cycle, while the load moves to `M`; in the second the load reads that
cell. No cycle halts: `E` is empty behind a HALT in `W`, and then `W` holds the store. -/
theorem loadBehindStoreReadsTheStoredWord : Obligations.LoadBehindStoreReadsTheStoredWord := by
  intro s t u i j hI hrun hMv hMi hstore hEv hEj hload hst haddr htu
  have hsW : ¬ s.W.holdsHalt := by
    intro hh
    obtain ⟨-, -, hE, -⟩ := hI.haltInWriteback hh
    rw [hE] at hEv
    cases hEv
  obtain ⟨d, hd, ft⟩ := step_reachesDecode hst hrun hsW
  have hb := hd.effect
  have htM : s.E.PassedTo t.M := ft.M ▸ hb.toM
  have htW : s.M.PassedTo t.W := ft.W ▸ hb.toW
  have htMv : t.M.valid = true := htM.valid.trans hEv
  have htMj : t.M.instr = some j := (htM.instr hEv).trans hEj
  have htWi : t.W.instr = some i := (htW.instr hMv).trans hMi
  obtain ⟨e, he, fu⟩ := step_reachesDecode htu (ft.halted.trans hb.halted) (Latch.not_holdsHalt_of_isStore htWi hstore)
  have huW : t.M.PassedTo u.W := fu.W ▸ he.effect.toW
  refine ⟨huW.valid.trans htMv, (huW.instr htMv).trans htMj, ?_⟩
  calc u.W.resultBuffer
      = t.memRead s.M.memoryAddress := by rw [fu.W, he.load_result htMv htMj hload, haddr]
    _ = (s.memWrite s.M.memoryAddress s.M.rs1Value).memRead s.M.memoryAddress :=
        State.memRead_congr (ft.dmem.trans (hd.store_dmem hMv hMi hstore)) _
    _ = s.M.rs1Value := State.memRead_memWrite_same hI.memoryCanonical _ _

end Sys2Proof.Machine

/-! SUPPORT. The encoding: the opcode numbers, the packed word as five adjacent bit fields, the encoder as a field-wise mask
of the record by its format, and the statements about decoder and encoder that follow (30_encoding.md R71 to R75). -/

namespace Sys2Proof

/-! ### Opcode numbers -/

theorem Opcode.number_of_ofNumber {n : OpNumber} {op : Opcode} (h : Opcode.ofNumber n = some op) : op.number = n := by
  apply BitVec.eq_of_toNat_eq
  unfold Opcode.ofNumber at h
  split at h <;> cases h <;> symm <;> assumption

/-- The numbers that name an opcode are 0x01 to 0x19 (30_encoding.md R74, R75). -/
theorem Opcode.number_bounds (op : Opcode) : 1 ≤ op.number.toNat ∧ op.number.toNat ≤ 0x19 := by
  cases op <;> decide

theorem Opcode.exists_ofNumber_of_bounds {n : OpNumber} (h : 1 ≤ n.toNat ∧ n.toNat ≤ 0x19) :
    ∃ op, Opcode.ofNumber n = some op := by
  obtain ⟨hlo, hhi⟩ := h
  unfold Opcode.ofNumber
  interval_cases n.toNat <;> exact ⟨_, rfl⟩

theorem Opcode.ofNumber_eq_none {n : OpNumber} (h : ¬(1 ≤ n.toNat ∧ n.toNat ≤ 0x19)) : Opcode.ofNumber n = none := by
  refine Option.eq_none_iff_forall_ne_some.2 fun op hop => h ?_
  rw [← Opcode.number_of_ofNumber hop]
  exact op.number_bounds

/-! ### The packed word as five adjacent fields -/

theorem toNat_append_eq_add {m n : Nat} (x : BitVec m) (y : BitVec n) :
    (x ++ y).toNat = x.toNat * 2 ^ n + y.toNat := by
  rw [BitVec.toNat_append, ← Nat.shiftLeft_add_eq_or_of_lt y.isLt, Nat.shiftLeft_eq]

/-- Packing puts every field at its place (30_encoding.md R73). -/
theorem Record.toNat_toPacked (r : Record) :
    r.toPacked.toNat = r.opcode.toNat * 2 ^ 56 + r.rd.toNat * 2 ^ 48 + r.rs1.toNat * 2 ^ 40 + r.rs2.toNat * 2 ^ 32 +
      r.imm.toNat := by
  simp only [Record.toPacked, toNat_append_eq_add]
  omega

theorem Record.toNat_opcode_ofPacked (w : Packed) : (Record.ofPacked w).opcode.toNat = w.toNat / 2 ^ 56 := by
  simp only [Record.ofPacked, BitVec.extractLsb'_toNat, Nat.shiftRight_eq_div_pow]
  omega

/-- The operand fields are the slices of R73 by arithmetic; the opcode needs no modulus (`toNat_opcode_ofPacked`). -/
theorem Record.toNat_operands_ofPacked (w : Packed) :
    (Record.ofPacked w).rd.toNat = w.toNat / 2 ^ 48 % 2 ^ 8 ∧
    (Record.ofPacked w).rs1.toNat = w.toNat / 2 ^ 40 % 2 ^ 8 ∧
    (Record.ofPacked w).rs2.toNat = w.toNat / 2 ^ 32 % 2 ^ 8 ∧
    (Record.ofPacked w).imm.toNat = w.toNat % 2 ^ 32 := by
  simp [Record.ofPacked, Nat.shiftRight_eq_div_pow]

@[simp] theorem Record.ofPacked_toPacked (r : Record) : Record.ofPacked r.toPacked = r := by
  have hop := Record.toNat_opcode_ofPacked r.toPacked
  obtain ⟨hrd, hrs1, hrs2, himm⟩ := Record.toNat_operands_ofPacked r.toPacked
  rw [Record.toNat_toPacked] at hop hrd hrs1 hrs2 himm
  rw [Record.mk.injEq]
  refine ⟨?_, ?_, ?_, ?_, ?_⟩ <;> apply BitVec.eq_of_toNat_eq <;> omega

@[simp] theorem Record.toPacked_ofPacked (w : Packed) : (Record.ofPacked w).toPacked = w := by
  apply BitVec.eq_of_toNat_eq
  obtain ⟨hrd, hrs1, hrs2, himm⟩ := Record.toNat_operands_ofPacked w
  rw [Record.toNat_toPacked, Record.toNat_opcode_ofPacked, hrd, hrs1, hrs2, himm]
  omega

/-! ### The decoder -/

theorem decode_toPacked (r : Record) : decode r.toPacked = r.instr := by
  rw [decode, Record.ofPacked_toPacked]

theorem Record.instr_of_ofNumber {r : Record} {op : Opcode} (h : Opcode.ofNumber r.opcode = some op) :
    r.instr = .ok (op.instr r.rd r.rs1 r.rs2 r.imm) := by
  simp [Record.instr, h]

theorem Record.instr_of_ofNumber_none {r : Record} (h : Opcode.ofNumber r.opcode = none) :
    r.instr = .error (.illegalOpcode r.opcode) := by
  simp [Record.instr, h]

/-- A record that is an instruction holds the number of its opcode, and the instruction is built from its fields. -/
theorem Record.of_instr_eq_ok {r : Record} {i : Instr} (h : r.instr = .ok i) :
    r.opcode = i.opcode.number ∧ i = i.opcode.instr r.rd r.rs1 r.rs2 r.imm := by
  cases hop : Opcode.ofNumber r.opcode with
  | none =>
    rw [Record.instr_of_ofNumber_none hop] at h
    cases h
  | some op =>
    rw [Record.instr_of_ofNumber hop] at h
    cases h
    simp [Opcode.number_of_ofNumber hop]

/-- The family `Laws.RecordRoundTrip`, for every instruction. -/
theorem Instr.instr_toRecord : (i : Instr) → i.toRecord.instr = .ok i
  | .add rd rs1 rs2 => Laws.RecordRoundTrip.add rd rs1 rs2
  | .sub rd rs1 rs2 => Laws.RecordRoundTrip.sub rd rs1 rs2
  | .mul rd rs1 rs2 => Laws.RecordRoundTrip.mul rd rs1 rs2
  | .addl rd rs1 imm => Laws.RecordRoundTrip.addl rd rs1 imm
  | .subl rd rs1 imm => Laws.RecordRoundTrip.subl rd rs1 imm
  | .and rd rs1 rs2 => Laws.RecordRoundTrip.and rd rs1 rs2
  | .or rd rs1 rs2 => Laws.RecordRoundTrip.or rd rs1 rs2
  | .xor rd rs1 rs2 => Laws.RecordRoundTrip.xor rd rs1 rs2
  | .cmp rs1 rs2 => Laws.RecordRoundTrip.cmp rs1 rs2
  | .cml rs1 imm => Laws.RecordRoundTrip.cml rs1 imm
  | .movc rd imm => Laws.RecordRoundTrip.movc rd imm
  | .nop => Laws.RecordRoundTrip.nop
  | .load rd rs1 imm => Laws.RecordRoundTrip.load rd rs1 imm
  | .store rs1 rs2 imm => Laws.RecordRoundTrip.store rs1 rs2 imm
  | .loadp rd rs1 imm => Laws.RecordRoundTrip.loadp rd rs1 imm
  | .storep rs1 rs2 imm => Laws.RecordRoundTrip.storep rs1 rs2 imm
  | .jump rs1 imm => Laws.RecordRoundTrip.jump rs1 imm
  | .jalr rd rs1 imm => Laws.RecordRoundTrip.jalr rd rs1 imm
  | .bz imm => Laws.RecordRoundTrip.bz imm
  | .bnz imm => Laws.RecordRoundTrip.bnz imm
  | .bp imm => Laws.RecordRoundTrip.bp imm
  | .bnp imm => Laws.RecordRoundTrip.bnp imm
  | .bn imm => Laws.RecordRoundTrip.bn imm
  | .bnn imm => Laws.RecordRoundTrip.bnn imm
  | .halt => Laws.RecordRoundTrip.halt

theorem decodeTableWord_toNat {w : Packed} {i : Instr} (h : decode w = .ok i) : decodeTableWord 64 w.toNat = some i := by
  simp [decodeTableWord, Nat.mod_eq_of_lt w.isLt, h]

/-! ### The encoder as a mask of the record -/

/-- The field-wise `and` of two records. -/
def Record.mask (r m : Record) : Record where
  opcode := r.opcode &&& m.opcode
  rd := r.rd &&& m.rd
  rs1 := r.rs1 &&& m.rs1
  rs2 := r.rs2 &&& m.rs2
  imm := r.imm &&& m.imm

/-- The formats with an immediate (30_encoding.md R71). -/
def Format.usesImm : Format → Bool
  | .rri | .ri | .di | .ssi | .i => true
  | .rrr | .rr | .n => false

/-- All ones or 0 as a mask. -/
def onesIf (b : Bool) (n : Nat) : BitVec n := if b then BitVec.allOnes n else 0#n

@[simp] theorem and_onesIf_true {n : Nat} (x : BitVec n) : x &&& onesIf true n = x := BitVec.and_allOnes
@[simp] theorem and_onesIf_false {n : Nat} (x : BitVec n) : x &&& onesIf false n = 0#n := BitVec.and_zero

/-- The record with ones in exactly the fields a format uses. -/
def Format.usedRecord (f : Format) : Record where
  opcode := onesIf true 8
  rd := onesIf (f.fields.contains .rd) 8
  rs1 := onesIf (f.fields.contains .rs1) 8
  rs2 := onesIf (f.fields.contains .rs2) 8
  imm := onesIf f.usesImm 32

theorem Format.toPacked_usedRecord (f : Format) : f.usedRecord.toPacked = f.usedBits := by
  cases f <;> decide

theorem Record.toPacked_mask (r m : Record) : (r.mask m).toPacked = r.toPacked &&& m.toPacked := by
  simp only [Record.toPacked, Record.mask]
  rw [BitVec.and_append, BitVec.and_append, BitVec.and_append, BitVec.and_append]

/-- The record written for an opcode's instruction is the record it came from, without the fields the format does not use
(30_encoding.md R71, R73). -/
theorem Opcode.toRecord_instr (op : Opcode) (rd rs1 rs2 : RegIndex) (imm : Word) :
    (op.instr rd rs1 rs2 imm).toRecord = Record.mask ⟨op.number, rd, rs1, rs2, imm⟩ op.format.usedRecord := by
  cases op <;>
    simp [Opcode.instr, Instr.toRecord, Record.mask, Opcode.format, Format.usedRecord, Format.fields, Format.usesImm]

theorem Record.toRecord_of_instr_eq_ok {r : Record} {i : Instr} (h : r.instr = .ok i) :
    i.toRecord = r.mask i.opcode.format.usedRecord := by
  obtain ⟨hop, hi⟩ := Record.of_instr_eq_ok h
  calc i.toRecord
      = (i.opcode.instr r.rd r.rs1 r.rs2 r.imm).toRecord := congrArg Instr.toRecord hi
    _ = r.mask i.opcode.format.usedRecord := by rw [Opcode.toRecord_instr, ← hop]

/-! ### The statements about decoder and encoder -/

theorem decode_encode (i : Instr) : decode (encode i) = .ok i :=
  (decode_toPacked i.toRecord).trans i.instr_toRecord

theorem encode_of_decode {w : Packed} {i : Instr} (h : decode w = .ok i) :
    encode i = w &&& i.opcode.format.usedBits := by
  calc encode i
      = ((Record.ofPacked w).mask i.opcode.format.usedRecord).toPacked :=
        congrArg Record.toPacked (Record.toRecord_of_instr_eq_ok h)
    _ = w &&& i.opcode.format.usedBits := by
        rw [Record.toPacked_mask, Record.toPacked_ofPacked, Format.toPacked_usedRecord]

/-- What the encoder writes decodes to the instruction, so re-encoding it clears its unused bits: they are 0 already. -/
theorem encode_and_not_usedBits (i : Instr) : encode i &&& ~~~i.opcode.format.usedBits = 0#64 := by
  rw [encode_of_decode (decode_encode i), BitVec.and_assoc, BitVec.and_not_self]
  exact BitVec.and_zero

/-- Settles O1: the packed word is unpacked to the record it was packed from, and that record is read as the instruction. -/
theorem decodeReturnsTheEncodedInstruction : Obligations.DecodeReturnsTheEncodedInstruction := fun i =>
  ⟨decode_encode i, decodeTableWord_toNat (decode_encode i)⟩

/-- Settles O2: slicing and packing by arithmetic, and the unused bits by the round trip. -/
theorem packedWordHasTheTableLayout : Obligations.PackedWordHasTheTableLayout :=
  ⟨fun w => ⟨Record.toNat_opcode_ofPacked w, Record.toNat_operands_ofPacked w⟩, Record.toNat_toPacked,
    encode_and_not_usedBits⟩

/-- Settles O3: the opcode field is the top byte, and the numbers that name an opcode are 0x01 to 0x19. -/
theorem decodeAcceptsExactlyTheListedOpcodes : Obligations.DecodeAcceptsExactlyTheListedOpcodes := by
  intro w
  rw [← Record.toNat_opcode_ofPacked w]
  constructor
  · intro hlisted
    obtain ⟨op, hop⟩ := Opcode.exists_ofNumber_of_bounds hlisted
    refine ⟨_, Record.instr_of_ofNumber hop, ?_⟩
    rw [Machine.opcode_instr, Opcode.number_of_ofNumber hop]
  · intro hunlisted
    rw [BitVec.ofNat_toNat, BitVec.setWidth_eq]
    exact Record.instr_of_ofNumber_none (Opcode.ofNumber_eq_none hunlisted)

/-- Settles O4: decoding keeps exactly the fields the format uses, and encoding writes 0 into the others. -/
theorem encodeClearsExactlyTheUnusedFields : Obligations.EncodeClearsExactlyTheUnusedFields := fun _ _ => encode_of_decode

end Sys2Proof

/-! SUPPORT. One cycle seen from its stages: the step of a running machine, what Fetch delivers, when a cycle halts, stalls or
flushes, and the statements about the front end and the run control that follow (40_pipeline.md R101 to R103, R117, R140 to
R155). -/

namespace Sys2Proof.Machine

/-! ### The step of a running machine -/

/-- Past a Writeback that does not halt, a step is the later stages (40_pipeline.md R101). -/
theorem step_eq_laterStages {s s1 : State} (hf : s.faulted = none) (hrun : s.halted = false)
    (h1 : writebackStage s = .next s1) (hh1 : s1.halted = false) : step s = laterStages s1 := by
  simp [step, runCycle, hf, hrun, cycle, h1, hh1]

/-- Settles O7, by the order of the stages. -/
theorem stepRunsTheInstructionInExecute : Obligations.StepRunsTheInstructionInExecute := by
  intro s s1 hf hrun h1 hh1
  rw [step_eq_laterStages hf hrun h1 hh1]
  refine ⟨fun f h2 => by simp [laterStages, h2], fun s2 i h2 hv hi => ?_⟩
  have hE : s2.E = s.E := (memoryStage_frame h2).E.trans (writebackStage_frame h1).E
  refine ⟨hE, fun s3 he => ?_⟩
  have h3 : executeStage s2 = .next (passToM s3) := by simp [executeStage, hE, hv, hi, he]
  exact ⟨fun f h4 => by simp [laterStages, h2, h3, h4], fun s4 h4 => by simp [laterStages, h2, h3, h4]⟩

theorem memoryAccess_of_badAddress {i : Instr} {s : State} (hls : isLoad i.opcode = true ∨ isStore i.opcode = true)
    (hbad : dataAddressOk s.M.memoryAddress = false) :
    memoryAccess i s = .fault (.invalidMemoryAddress s.M.pc s.M.memoryAddress) := by
  rcases memoryAccess_cases (i := i) (s := s) rfl with ⟨hl, hs, -⟩ | ⟨-, hok, -⟩ | ⟨-, hok, -⟩ | ⟨-, -, h⟩
  · simp [hl, hs] at hls
  · simp [hbad] at hok
  · simp [hbad] at hok
  · exact h

/-- Settles O31: Memory faults on the latch that Writeback has left alone, and the stages behind it are not evaluated. -/
theorem dataAddressOutOfRangeFaults : Obligations.DataAddressOutOfRangeFaults := by
  intro s s1 i hf hrun h1 hh1 hv hi hls hbad
  have hM : s1.M = s.M := (writebackStage_frame h1).M
  have haddr : dataAddressOk s1.M.memoryAddress = false := by simpa [dataAddressOk, hM] using hbad
  have h2 : memoryStage s1 = .fault (.invalidMemoryAddress s.M.pc s.M.memoryAddress) := by
    simp [memoryStage, memoryAccess_of_badAddress hls haddr, hM, hv, hi]
  rw [step_eq_laterStages hf hrun h1 hh1, laterStages, h2, andThen_fault]

/-! ### Fetch -/

/-- HALT is told by its number 0x19 (30_encoding.md R74). -/
theorem Latch.opcode_eq_halt_iff {l : Latch} : l.opcode = some .halt ↔ l.op = .number 0x19#8 := by
  unfold Latch.opcode
  cases l.op with
  | badFetch => simp
  | number n =>
    simp only [LatchOp.number.injEq]
    exact ⟨fun h => (Opcode.number_of_ofNumber h).symm, fun h => h ▸ rfl⟩

/-- A latch is the one Fetch fills at `pc` when it holds the record of the slot that `pc` names, or BADFETCH and zero fields,
and zero value fields (40_pipeline.md R145, R146, R147). -/
theorem eq_fetchedLatch {s : State} {l : Latch} (hv : l.valid = true) (hpc : l.pc = s.pc) (h1 : l.rs1Value = 0#32)
    (h2 : l.rs2Value = 0#32) (hr : l.resultBuffer = 0#32) (ha : l.memoryAddress = 0#32)
    (hslot : (∃ (k : Nat) (r : Record), s.code[k]? = some r ∧ s.pc.toNat = 4000 + 4 * k ∧
        l.op = .number r.opcode ∧ l.rd = r.rd ∧ l.rs1 = r.rs1 ∧ l.rs2 = r.rs2 ∧ l.imm = r.imm) ∨
      (¬(∃ k, k < s.code.length ∧ s.pc.toNat = 4000 + 4 * k) ∧
        l.op = .badFetch ∧ l.rd = 0#8 ∧ l.rs1 = 0#8 ∧ l.rs2 = 0#8 ∧ l.imm = 0#32)) :
    l = fetchedLatch true s.pc (s.codeRead s.pc) := by
  cases l
  rcases hslot with ⟨k, r, hk, hat, hrec⟩ | ⟨hnone, hrec⟩
  · obtain ⟨hlt, hget⟩ := List.getElem?_eq_some_iff.1 hk
    have hread : s.codeRead s.pc = some r := (State.codeRead_slot hlt hat).trans (congrArg some hget)
    simp_all [fetchedLatch, Latch.empty]
  · have hread : s.codeRead s.pc = none := State.codeRead_eq_none.2 hnone
    simp_all [fetchedLatch, Latch.empty]

/-- Fetch with nothing pending hands the slot at `pc` to Decode (40_pipeline.md R145, R148). -/
theorem fetchStage_handOff {v : State} (hr : v.fetchFromNextCycle = false) (hF : v.F.valid = true)
    (hst : v.stallPipeline = false) : fetchStage v = handOff (fillF v) := by
  simp [fetchStage, hr, hF, hst]

/-- Settles O9, by the four ways of Fetch. -/
theorem fetchDeliversTheSlotAtPc : Obligations.FetchDeliversTheSlotAtPc := by
  intro s
  refine ⟨fun h => by simp [fetchStage, h], fun h hF => fetchStage_off hF h, ?_⟩
  intro hr hF l hv hpc h1 h2 hb ha hslot
  have hl : fetchedLatch s.F.valid s.pc (s.codeRead s.pc) = l := by
    rw [hF]
    exact (eq_fetchedLatch hv hpc h1 h2 hb ha hslot).symm
  constructor
  · intro hst
    simp [fetchStage, hr, hF, hst, fillF, ← hl]
  · intro hst
    have hoff : (l.valid && !decide (l.opcode = some .halt)) = decide (l.op ≠ .number 0x19#8) := by
      simp [hv, Latch.opcode_eq_halt_iff]
    rw [fetchStage_handOff hr hF hst]
    simp only [handOff, fillF, hl, hoff]
    rfl

/-! ### Counters, HALT and the front end's state -/

/-- Settles O40: Writeback counts and sets `halted`, and the clock ticks once on either way of a running step. -/
theorem countersAndHaltedFollowWriteback : Obligations.CountersAndHaltedFollowWriteback := by
  intro s t h hrun
  rcases step_reaches h with ⟨hh, -⟩ | ⟨-, s1, h1, -, rfl⟩ | ⟨u, v, hu, hd, rfl⟩
  · simp [hrun] at hh
  · have w := writebackStage_frame h1
    simp [w.clock, w.completed, w.halted, hrun]
  · have hb := hu.effect
    have d := decodeStage_frame hd
    have f := fetchStage_frame v
    have hnot : ¬(s.W.valid = true ∧ s.W.opcode = some .halt) := hb.noHaltInW
    simp [f.clock, d.clock, hb.clock, f.completed, d.completed, hb.completed, f.halted, d.halted, hb.halted, hnot]

/-- Settles O41: Fetch consumes the redirect of its cycle. -/
theorem stallAndRedirectNeverBothPending : Obligations.StallAndRedirectNeverBothPending := by
  intro s t h hrun hrun'
  rcases step_reaches h with ⟨hh, -⟩ | ⟨-, s1, -, hh1, rfl⟩ | ⟨u, v, -, -, rfl⟩
  · simp [hrun] at hh
  · simp [hh1] at hrun'
  · have hnone : (fetchStage v).tick.fetchFromNextCycle = false := (fetchStage_frame v).fetchFromNextCycle
    unfold State.frontState
    rw [hnone]
    cases (fetchStage v).tick.stallPipeline
    · exact .inl rfl
    · exact .inr rfl

/-- Settles O42: Writeback sets `halted`, which ends the cycle. -/
theorem haltingCycleEndsAfterWriteback : Obligations.HaltingCycleEndsAfterWriteback := by
  intro s hf hrun hv hi
  have h1 : writebackStage s = .next (retire .halt s) := by simp [writebackStage, hv, hi, commit]
  rw [step_of_halting hf hrun h1 (by simp)]
  simp [State.tick, retire]

/-- A cycle that halts wrote a HALT back, behind which nothing is in flight (40_pipeline.md R103, R150). -/
theorem State.Inv.empty_of_halting {s s1 : State} (hI : s.Inv) (hrun : s.halted = false)
    (h1 : writebackStage s = .next s1) (hh1 : s1.halted = true) :
    s.F.valid = false ∧ s.D.valid = false ∧ s.E.valid = false ∧ s.M.valid = false :=
  hI.haltInWriteback (by simpa [(writebackStage_frame h1).halted, hrun, Latch.holdsHalt] using hh1)

/-- In an invariant state a stalled instruction waits in `D`. -/
theorem State.Inv.notStalled_of_decodeEmpty {s : State} (hI : s.Inv) (hD : s.D.valid = false) :
    s.stallPipeline = false := by
  by_contra hst
  obtain ⟨hv, -⟩ := hI.stalled (by simpa using hst)
  simp [hD] at hv

theorem Latch.setValid_of_eq {l : Latch} {b : Bool} (h : l.valid = b) : { l with valid := b } = l := by
  subst h
  rfl

theorem memoryStage_idle {s : State} (hM : s.M.valid = false) (hW : s.W.valid = false) : memoryStage s = .next s := by
  rw [memoryStage_empty hM, Latch.setValid_of_eq hW]

theorem executeStage_idle {s : State} (hE : s.E.valid = false) (hM : s.M.valid = false) : executeStage s = .next s := by
  rw [executeStage_empty hE, Latch.setValid_of_eq hM]

theorem decodeStage_idle {s : State} (hD : s.D.valid = false) (hst : s.stallPipeline = false) :
    decodeStage s = .next s := by
  rw [decodeStage_empty hD, ← hst]

/-- Settles O43: behind a HALT in `W` every latch is empty, no stall is pending and fetch is off, so no stage has work. -/
theorem skippedStagesWouldChangeNothing : Obligations.SkippedStagesWouldChangeNothing := by
  intro s s1 hI _ hW h1
  obtain ⟨hF, hD, hE, hM⟩ := hI.haltInWriteback hW
  have w := writebackStage_frame h1
  have hst : s1.stallPipeline = false := w.stallPipeline.trans (hI.notStalled_of_decodeEmpty hD)
  rw [laterStages, memoryStage_idle (w.M ▸ hM) w.wEmpty, andThen_next, executeStage_idle (w.E ▸ hE) (w.M ▸ hM),
    andThen_next, decodeStage_idle (w.D ▸ hD) hst, andThen_next,
    fetchStage_off (w.F ▸ hF) (w.fetchFromNextCycle.trans hI.noPendingRedirect)]

/-! ### Stall and flush -/

/-- Settles O25: a busy register has a producer in flight, which by Decode stands in `M` or `W` and is seen by the forwarding
unit. -/
theorem forwardingMissMeansNotBusy : Obligations.ForwardingMissMeansNotBusy := by
  intro s u r hI hu hmiss
  have hb := hu.effect
  obtain ⟨hM, hW⟩ := forward_eq_miss_iff.1 hmiss
  by_contra hbusy
  obtain ⟨hs, hsW⟩ := hb.busy r (by simpa using hbusy)
  rcases hI.busyHasProducer r hs with h | h | h
  · simp [hb.toM.writes h] at hM
  · simp [hb.toW.writes h] at hW
  · simp [h] at hsW

/-- In a cycle from an invariant state Decode's operands are ready exactly when none is blocked (40_pipeline.md R143). -/
theorem ReachesDecode.ready_iff {s u : State} (hI : s.Inv) (hu : ReachesDecode s u) (fs : List Field) :
    (u.resolveOperands fs).2 = true ↔ ∀ f ∈ fs, u.forward (u.D.field f) ≠ .block :=
  State.resolveOperands_ready_iff (fun r => forwardingMissMeansNotBusy s u r hI hu) fs

theorem transferTarget_of_isLoad {i : Instr} (h : isLoad i.opcode = true) (l : Latch) (f : Flags) :
    transferTarget i l f = none := by
  cases i <;> simp_all [transferTarget, isLoad, Instr.opcode]

theorem State.transfer_of_isLoad {s : State} {op : Opcode} (hop : s.E.opcode = some op) (hl : isLoad op = true) :
    s.transfer = none := by
  unfold State.transfer
  split
  · next i _ hi =>
    have hiop : i.opcode = op := Option.some.inj ((Latch.opcode_of_instr hi).symm.trans hop)
    exact transferTarget_of_isLoad (hiop ▸ hl) s.E s.flags
  · rfl

/-- The load-use condition of R144 on the state before the cycle. -/
def LoadUse (s : State) : Prop :=
  s.D.valid = true ∧ s.E.valid = true ∧ (∃ op, s.E.opcode = some op ∧ isLoad op = true) ∧
    ∃ op, s.D.opcode = some op ∧ ∃ f ∈ srcFields op, s.D.field f = s.E.rd

/-- What a blocked operand in Decode says about the state before the cycle (40_pipeline.md R131, R144). -/
theorem loadUse_iff_blocked {s u : State} {op : Opcode} (hu : ReachesDecode s u) (hD : u.D.valid = true)
    (hop : u.D.opcode = some op) : LoadUse s ↔ ∃ f ∈ srcFields op, u.forward (u.D.field f) = .block := by
  have hb := hu.effect
  obtain ⟨-, -, hDs, -⟩ := hb.front_of_decodeValid hD
  rw [hDs] at hD hop ⊢
  simp only [forward_eq_block_iff]
  constructor
  · rintro ⟨-, hE, ⟨o, ho, hl⟩, op', hop', f, hf, hr⟩
    cases hop.symm.trans hop'
    have hrec := hb.toM.record hE
    exact ⟨f, hf, hb.toM.valid.trans hE, o, hrec.opcode.trans ho, hl, hrec.rd.trans hr.symm⟩
  · rintro ⟨f, hf, hM, o, ho, hl, hr⟩
    have hE : s.E.valid = true := hb.toM.valid.symm.trans hM
    have hrec := hb.toM.record hE
    exact ⟨hD, hE, ⟨o, hrec.opcode.symm.trans ho, hl⟩, op, hop, f, hf, hr.symm.trans hrec.rd⟩

/-- A full cycle stalls exactly on a load and its immediate use (40_pipeline.md R144). -/
theorem stalled_iff_loadUse {s u v : State} (hI : s.Inv) (hu : ReachesDecode s u) (hd : decodeStage u = .next v) :
    v.stallPipeline = true ↔ LoadUse s := by
  rcases decodeStage_cases hd with ⟨hD, hv⟩ | ⟨f, -, -, hv⟩ | ⟨op, hD, hc, hr, hv⟩ | ⟨op, hD, hc, hr, hv⟩ <;> cases hv
  · refine ⟨fun h => (by cases h), ?_⟩
    rintro ⟨hDs, -, ⟨op, hop, hl⟩, -⟩
    obtain ⟨-, -, hDu, -⟩ := hu.effect.straight (State.transfer_of_isLoad hop hl)
    simp [hDu, hDs] at hD
  · rw [loadUse_iff_blocked hu hD (checkDecode_ok_iff.1 hc).1]
    simpa using (hu.ready_iff hI _).1 hr
  · rw [loadUse_iff_blocked hu hD (checkDecode_ok_iff.1 hc).1]
    have hblocked : ¬ ∀ f ∈ srcFields op, u.forward (u.D.field f) ≠ .block := fun hall => by
      simp [(hu.ready_iff hI _).2 hall] at hr
    simpa using hblocked

/-- Settles O26: a full cycle stalls on a blocked operand; a halted or halting machine has nothing in `D`. -/
theorem stallExactlyOnLoadUse : Obligations.StallExactlyOnLoadUse := by
  intro s t hI h
  change t.stallPipeline = true ↔ LoadUse s
  have hempty : s.D.valid = false → (s.stallPipeline = true ↔ LoadUse s) := fun hD => by
    simp [hI.notStalled_of_decodeEmpty hD, LoadUse, hD]
  rcases step_reaches h with ⟨hh, rfl⟩ | ⟨hrun, s1, h1, hh1, rfl⟩ | ⟨u, v, hu, hd, rfl⟩
  · obtain ⟨-, hD, -⟩ := hI.haltedEmpty hh
    exact hempty hD
  · have w := writebackStage_frame h1
    obtain ⟨-, hD, -⟩ := hI.empty_of_halting hrun h1 hh1
    rw [State.tick_stallPipeline, w.stallPipeline]
    exact hempty hD
  · rw [State.tick_stallPipeline, (fetchStage_frame v).stallPipeline]
    exact stalled_iff_loadUse hI hu hd

/-- Nothing is in `D` when a step of an invariant state does not run every stage. -/
theorem State.Inv.step_reachesDecode {s t : State} (hI : s.Inv) (h : step s = .next t) (hD : s.D.valid = true) :
    ∃ u v, ReachesDecode s u ∧ decodeStage u = .next v ∧ t = (fetchStage v).tick := by
  rcases step_reaches h with ⟨hh, -⟩ | ⟨hrun, s1, h1, hh1, -⟩ | hfull
  · obtain ⟨-, hD', -⟩ := hI.haltedEmpty hh
    simp [hD'] at hD
  · obtain ⟨-, hD', -⟩ := hI.empty_of_halting hrun h1 hh1
    simp [hD'] at hD
  · exact hfull

/-- Settles O27: a stall leaves a bubble in `E`, so that no load blocks the next cycle. -/
theorem stallLastsOneCycle : Obligations.StallLastsOneCycle := by
  intro s t hI hst h
  obtain ⟨hD, -, hE⟩ := hI.stalled hst
  obtain ⟨u, v, hu, hd, rfl⟩ := hI.step_reachesDecode h hD
  have hns : v.stallPipeline = false := by
    by_contra hs
    obtain ⟨-, hE', -⟩ := (stalled_iff_loadUse hI hu hd).1 (by simpa using hs)
    simp [hE] at hE'
  obtain ⟨-, -, hDu, -⟩ := hu.effect.straight (State.transfer_of_invalid hE)
  have f := fetchStage_frame v
  rcases decodeStage_latches hd with ⟨hv, -⟩ | ⟨-, -, -, hv, hrec, -⟩ | ⟨-, -, -, -, hs⟩
  · simp [hDu, hD] at hv
  · rw [hDu] at hrec
    exact ⟨f.stallPipeline.trans hns, by simpa [f.E] using hv, by simpa [f.E] using hrec.pc,
      by simpa [f.E] using hrec.op⟩
  · simp [hs] at hns

/-- Fetch in a stalled cycle keeps `pc` and `D`, and refills `F` from the slot at `pc` (40_pipeline.md R149). -/
theorem fetchStage_stalled {v : State} (hst : v.stallPipeline = true) :
    (fetchStage v).pc = v.pc ∧ (fetchStage v).D = v.D ∧
      (v.F.valid = true → v.fetchFromNextCycle = false →
        (fetchStage v).F = fetchedLatch true v.pc (v.codeRead v.pc)) := by
  rcases fetchStage_cases v with ⟨hr, h⟩ | ⟨-, hF, h⟩ | ⟨-, hF, -, h⟩ | ⟨-, -, hns, -⟩
  · rw [h]
    exact ⟨rfl, rfl, fun _ hn => by simp [hr] at hn⟩
  · rw [h]
    exact ⟨rfl, rfl, fun hv => by simp [hF] at hv⟩
  · rw [h]
    exact ⟨rfl, rfl, fun _ _ => by rw [fillF_F, hF]⟩
  · simp [hst] at hns

/-- Settles O28: a stall leaves the instruction in `D`, so that no transfer was taken, and Fetch refills `F` only. -/
theorem stalledCycleKeepsPcAndDecode : Obligations.StalledCycleKeepsPcAndDecode := by
  intro s t h hrun hrun' hst
  rcases step_reaches h with ⟨hh, -⟩ | ⟨-, s1, -, hh1, rfl⟩ | ⟨u, v, hu, hd, rfl⟩
  · simp [hrun] at hh
  · simp [hh1] at hrun'
  · have hb := hu.effect
    have d := decodeStage_frame hd
    have f := fetchStage_frame v
    replace hst : v.stallPipeline = true := f.stallPipeline.symm.trans hst
    rcases decodeStage_latches hd with ⟨-, -, -, hs⟩ | ⟨-, -, -, -, -, hs⟩ | ⟨hD, -, hvD, hvE, -⟩
    · simp [hst] at hs
    · simp [hst] at hs
    · obtain ⟨hpc, hr, hDs, hF⟩ := hb.front_of_decodeValid hD
      obtain ⟨hpc', hD', hF'⟩ := fetchStage_stalled hst
      have hrec := d.dRecord
      rw [hDs] at hrec
      simp only [State.tick_pc, State.tick_F, State.tick_D, State.tick_E, hD', f.E]
      refine ⟨hpc'.trans (d.pc.trans hpc), fun hsF hsr => ?_, hvD, hrec.pc, hrec.op, hrec.rd, hrec.rs1, hrec.rs2,
        hrec.imm, hvE ▸ hb.eEmpty⟩
      have hcode : v.codeRead v.pc = s.codeRead s.pc := by
        rw [State.codeRead_congr (d.code.trans hb.code), d.pc, hpc]
      rw [hF' (by rw [d.F, hF, hsF]) (by rw [d.fetchFromNextCycle, hr, hsr]), hcode, d.pc, hpc]
      exact ⟨by simp, by simp, fun r hread => by simp [hread, fetchedLatch]⟩

/-- A transfer accesses no data, writes no flags and does not halt (43_control.md R210 to R218). -/
theorem kind_of_transferTarget {i : Instr} {l : Latch} {f : Flags} {x : Word} (h : transferTarget i l f = some x) :
    isLoad i.opcode = false ∧ isStore i.opcode = false ∧ isFlagOp i.opcode = false := by
  cases i <;> simp_all [transferTarget, isLoad, isStore, isFlagOp, Instr.opcode]

/-- An instruction that accesses no data passes Memory (40_pipeline.md R115). -/
theorem memoryStage_of_noAccess {i : Instr} {s : State} (hv : s.M.valid = true) (hi : s.M.instr = some i)
    (hl : isLoad i.opcode = false) (hs : isStore i.opcode = false) : memoryStage s = .next (passToW s) := by
  have hacc : memoryAccess i s = .next s := by
    rcases memoryAccess_cases (i := i) (s := s) rfl with ⟨-, -, h⟩ | ⟨hl', -⟩ | ⟨hs', -⟩ | ⟨hls, -⟩
    · exact h
    · simp [hl] at hl'
    · simp [hs] at hs'
    · simp [hl, hs] at hls
  simp [memoryStage, hv, hi, hacc]

/-- Writeback of a running machine halts only by a HALT in `W` (40_pipeline.md R113). -/
theorem writebackStage_running {s s1 : State} (h1 : writebackStage s = .next s1) (hrun : s.halted = false)
    (hW : ¬ s.W.holdsHalt) : s1.halted = false := by
  rw [(writebackStage_frame h1).halted, hrun, Bool.false_or]
  simpa [Latch.holdsHalt] using hW

/-- The state `t` after the cycle in which the instruction `i` in `E` of `s` transfers to `target`; Execute found the state
`s2` (40_pipeline.md R122, R154). -/
structure TransferTaken (i : Instr) (target : Word) (s s2 t : State) : Prop where
  pc : t.pc = target
  decodeEmpty : t.D.valid = false
  executeEmpty : t.E.valid = false
  fetchOn : t.F.valid = true
  noRedirect : t.fetchFromNextCycle = false
  notStalled : t.stallPipeline = false
  memoryValid : t.M.valid = true
  memoryHolds : t.M.instr = some i
  busy : t.busy = s2.busy
  regs : t.regs = s2.regs
  dmem : t.dmem = s2.dmem
  flags : t.flags = s.flags
  W : t.W = s2.W
  running : t.halted = false
  notFaulted : t.faulted = none

/-- The redirect squashes `D`, so Decode has nothing to check, and Fetch consumes the redirect (40_pipeline.md R122, R145). -/
theorem step_of_transfer {s s1 s2 : State} {i : Instr} {target : Word} (hf : s.faulted = none) (hrun : s.halted = false)
    (h1 : writebackStage s = .next s1) (hh1 : s1.halted = false) (h2 : memoryStage s1 = .next s2)
    (hE : s.E.valid = true) (hi : s.E.instr = some i) (htgt : transferTarget i s.E s.flags = some target) :
    ∃ t, step s = .next t ∧ TransferTaken i target s s2 t := by
  have w := writebackStage_frame h1
  have m := memoryStage_frame h2
  have hE2 : s2.E = s.E := m.E.trans w.E
  have hfl : s2.flags = s.flags := m.flags.trans w.flags
  have htr : s2.transfer = some target := by simp [State.transfer, hE2, hfl, hE, hi, htgt]
  obtain ⟨e, he⟩ := exec_next i s2
  have h3 : executeStage s2 = .next (passToM e) := by simp [executeStage, hE2, hE, hi, he]
  have x := executeStage_frame h3
  obtain ⟨hpc, hred, hD, hF⟩ := x.redirected target htr
  have hDv : (passToM e).D.valid = false := congrArg Latch.valid hD
  have hflags : (passToM e).flags = s.flags := by
    rcases executeStage_flags h3 with h | ⟨-, ⟨op, hop, hfo⟩, -⟩
    · exact h.trans hfl
    · rw [hE2, Latch.opcode_of_instr hi] at hop
      obtain ⟨-, -, hno⟩ := kind_of_transferTarget htgt
      cases hop
      simp [hno] at hfo
  have hE2v : s2.E.valid = true := hE2 ▸ hE
  refine ⟨_, step_of_stages hf hrun h1 hh1 h2 h3 (decodeStage_empty hDv), ?_⟩
  rw [fetchStage, if_pos hred]
  exact
    { pc := hpc
      decodeEmpty := hDv
      executeEmpty := x.eEmpty
      fetchOn := congrArg Latch.valid hF
      noRedirect := rfl
      notStalled := rfl
      memoryValid := x.mValid.trans hE2v
      memoryHolds := (x.mRecord hE2v).instr.trans (hE2 ▸ hi)
      busy := x.busy
      regs := x.regs
      dmem := x.dmem
      flags := hflags
      W := x.W
      running := x.halted.trans (m.halted.trans hh1)
      notFaulted := x.faulted.trans (m.faulted.trans (w.faulted.trans hf)) }

/-- In the next cycle the transfer passes Memory, Decode is still empty, and Fetch hands over the target
(40_pipeline.md R145, R154). -/
theorem TransferTaken.fetches_target {i : Instr} {target x : Word} {s s2 t : State} {l : Latch} {f : Flags}
    (h : TransferTaken i target s s2 t) (hx : transferTarget i l f = some x) (hlegal : t.W.legal)
    (hW : ¬ t.W.holdsHalt) :
    ∃ u, step t = .next u ∧ u.D.valid = true ∧ u.D.pc = target ∧ u.pc = target + 4#32 := by
  obtain ⟨hl, hs, -⟩ := kind_of_transferTarget hx
  obtain ⟨a, h1⟩ := writebackStage_next_of_legal hlegal
  have w := writebackStage_frame h1
  have h2 : memoryStage a = .next (passToW a) :=
    memoryStage_of_noAccess (w.M ▸ h.memoryValid) (w.M ▸ h.memoryHolds) hl hs
  have m := memoryStage_frame h2
  have hE : (passToW a).E.valid = false := m.E ▸ w.E ▸ h.executeEmpty
  obtain ⟨c, h3⟩ : ∃ c, executeStage (passToW a) = .next c := ⟨_, executeStage_empty hE⟩
  obtain ⟨hpc, hred, hD, hF⟩ := (executeStage_frame h3).straight (State.transfer_of_invalid hE)
  have h4 := decodeStage_empty (s := c) (hD ▸ m.D ▸ w.D ▸ h.decodeEmpty)
  have hFv : c.F.valid = true := hF ▸ m.F ▸ w.F ▸ h.fetchOn
  have hcpc : c.pc = target := hpc.trans (w.pc.trans h.pc)
  have hh1 := writebackStage_running h1 h.running hW
  refine ⟨_, step_of_stages h.notFaulted h.running h1 hh1 h2 h3 h4, ?_⟩
  rw [fetchStage_handOff (v := { c with stallPipeline := false })
    (hred.trans (w.fetchFromNextCycle.trans h.noRedirect)) hFv rfl]
  simp [hFv, hcpc, nextPc, Config.insnWidth]

/-- Settles O29: behind a transfer in `E` neither `W` nor `M` holds a HALT, so two full cycles follow. -/
theorem takenTransferFlushesTheFrontEnd : Obligations.TakenTransferFlushesTheFrontEnd := by
  intro s s1 s2 i target hI hf hrun hE hi htgt h1 h2
  have w := writebackStage_frame h1
  have m := memoryStage_frame h2
  have hW : ¬ s.W.holdsHalt := fun hh => by
    obtain ⟨-, -, hE', -⟩ := hI.haltInWriteback hh
    simp [hE] at hE'
  have hM : ¬ s.M.holdsHalt := fun hh => by
    obtain ⟨-, -, hE'⟩ := hI.haltInMemory hh
    simp [hE] at hE'
  obtain ⟨t, hst, ht⟩ := step_of_transfer hf hrun h1 (writebackStage_running h1 hrun hW) h2 hE hi htgt
  have hMW : s.M.PassedTo t.W := by
    rw [ht.W, ← w.M]
    exact ⟨m.wValid, m.wRecord⟩
  obtain ⟨u, hstu, hDv, hDpc, hpc⟩ :=
    ht.fetches_target htgt (hMW.legal hI.memoryLegal) fun hh => hM (hMW.holdsHalt hh)
  exact ⟨t, u, hst, hstu, ht.pc, ht.decodeEmpty, ht.executeEmpty, ht.fetchOn, ht.noRedirect, ht.notStalled,
    ht.memoryValid, ht.memoryHolds, ht.busy, ht.regs, ht.dmem, ht.flags, hDv, hDpc, hpc⟩

/-! ### No run is refused -/

/-- From an invariant state no step is refused: the later stages see legal latches, and Decode and Fetch refuse nothing. -/
theorem State.Inv.step_ne_refused {s : State} (hI : s.Inv) (r : Refusal) : step s ≠ .refused r := by
  intro h
  unfold step runCycle at h
  split at h
  · cases h
  split at h
  · cases h
  rcases andThen_eq_refused.1 h with h1 | ⟨s1, h1, h⟩
  · obtain ⟨t, ht⟩ := writebackStage_next_of_legal hI.writebackLegal
    cases ht.symm.trans h1
  have w := writebackStage_frame h1
  split at h
  · cases h
  rcases andThen_eq_refused.1 h with h2 | ⟨s2, h2, h⟩
  · rcases memoryStage_cases h2 with ⟨-, h⟩ | ⟨_, _, -, -, -, h⟩ | ⟨_, -, -, -, -, h⟩ | ⟨hv, hi, -⟩
    · cases h
    · cases h
    · cases h
    · have := hI.memoryLegal (w.M ▸ hv)
      simp [← w.M, hi] at this
  have m := memoryStage_frame h2
  rcases andThen_eq_refused.1 h with h3 | ⟨s3, -, h⟩
  · obtain ⟨t, ht⟩ := executeStage_next_of_legal (s := s2) (m.E ▸ w.E ▸ hI.executeLegal)
    cases ht.symm.trans h3
  rcases andThen_eq_refused.1 h with h4 | ⟨s4, -, h⟩
  · rcases decodeStage_cases h4 with ⟨-, h⟩ | ⟨_, -, -, h⟩ | ⟨_, -, -, -, h⟩ | ⟨_, -, -, -, h⟩ <;> cases h
  · cases h

theorem State.Inv.run_ne_refused {s : State} (hI : s.Inv) (n : Nat) (r : Refusal) :
    Host.Core.run core n s ≠ .refused r := by
  induction n generalizing s with
  | zero => rw [run_zero]; simp
  | succ n ih =>
    cases h : step s with
    | next t =>
      rw [run_succ_next h]
      exact ih (everyStepKeepsTheInvariant s t hI h)
    | fault f => rw [run_succ_fault h]; simp
    | refused r' => exact absurd h (hI.step_ne_refused r')

/-- What `init` constructs (70_reset_and_hazards.md R270, R271). -/
theorem init_eq_ok {program : List Record} {s : State} (h : init (.ok program) = .ok s) :
    s = { State.reset with code := program } := by
  unfold init at h
  split at h
  · cases h
  · next p hp =>
    cases hp
    split at h <;> cases h
    rfl

/-- The reset state with any program meets the invariant (70_reset_and_hazards.md R270). -/
theorem reset_inv (program : List Record) : State.Inv { State.reset with code := program } where
  memoryCanonical := rfl
  memoryInRange := fun _ hc => by cases hc
  flagsOneHot := rfl
  executeLegal := Latch.legal_of_invalid rfl
  memoryLegal := Latch.legal_of_invalid rfl
  writebackLegal := Latch.legal_of_invalid rfl
  noPendingRedirect := rfl
  stalled := fun h => by cases h
  haltInDecode := fun h => by cases h.1
  haltInExecute := fun h => by cases h.1
  haltInMemory := fun h => by cases h.1
  haltInWriteback := fun h => by cases h.1
  haltedEmpty := fun h => by cases h
  busyHasProducer := fun r h => by
    simp only [State.readBusy, State.reset, Vector.getElem?_replicate] at h
    split at h <;> cases h
  issuedAtMostOncePerCycle := Nat.le_refl 0

theorem init_inv {program : List Record} {s : State} (h : init (.ok program) = .ok s) : s.Inv :=
  init_eq_ok h ▸ reset_inv program

/-- Settles O52: `init` meets the invariant, and from it no step is refused. -/
theorem noRunIsRefused : Obligations.NoRunIsRefused :=
  ⟨fun _ r hI => hI.step_ne_refused r, fun _ _ n r h => (init_inv h).run_ne_refused n r⟩

end Sys2Proof.Machine

/-! SUPPORT. Register values in flight: what Writeback leaves in a register is what the forwarding unit answers for it, the
operand values that Decode reads, and the statements about forwarding, Writeback and issue that follow
(40_pipeline.md R110, R130 to R139). -/

namespace Sys2Proof.Machine

/-! ### The register file after a latch is written back -/

/-- A register read from a register file; `State.readReg` is this read of the state's own. -/
def readFrom (regs : Vector Word Config.nregs) (r : RegIndex) : Word := regs[r.toNat]?.getD 0#32

theorem State.readReg_eq_readFrom (s : State) (r : RegIndex) : s.readReg r = readFrom s.regs r := rfl

/-- The register file after the latch `l` is written back: what `commit` does to it (40_pipeline.md R110). -/
def Latch.committed (l : Latch) (regs : Vector Word Config.nregs) : Vector Word Config.nregs :=
  match l.valid, l.instr with
  | true, some i => (commit i { State.reset with regs := regs, W := l }).regs
  | _, _ => regs

/-- `commit` writes registers from `W` and the register file alone. -/
theorem commit_regs_congr {i : Instr} {s t : State} (hW : t.W = s.W) (hregs : t.regs = s.regs) :
    (commit i t).regs = (commit i s).regs := by
  cases i <;> simp [commit, hW, hregs]

theorem Latch.committed_of_invalid {l : Latch} (h : l.valid = false) (regs : Vector Word Config.nregs) :
    l.committed regs = regs := by
  simp [Latch.committed, h]

theorem Latch.committed_of_instr_none {l : Latch} (h : l.instr = none) (regs : Vector Word Config.nregs) :
    l.committed regs = regs := by
  simp [Latch.committed, h]

theorem committed_of_instr {s : State} {i : Instr} (hv : s.W.valid = true) (hi : s.W.instr = some i) :
    s.W.committed s.regs = (commit i s).regs := by
  simp only [Latch.committed, hv, hi]
  exact commit_regs_congr rfl rfl

theorem writebackStage_regs {s t : State} (h : writebackStage s = .next t) : t.regs = s.W.committed s.regs := by
  rcases writebackStage_cases h with ⟨hv, ht⟩ | ⟨i, hv, hi, ht⟩ | ⟨-, -, ht⟩ <;> cases ht
  · exact (Latch.committed_of_invalid hv _).symm
  · exact (committed_of_instr hv hi).symm

/-- `commitInFlight` writes back `W` and then `M`. -/
theorem commitInFlight_regs (s : State) : s.commitInFlight.regs = s.M.committed (s.W.committed s.regs) := by
  have hcommit : ∀ (l : Latch) (t : State), (match l.valid, l.instr with
      | true, some i => commit i { t with W := l }
      | _, _ => t).regs = l.committed t.regs := by
    intro l t
    cases hv : l.valid with
    | false => simp [Latch.committed_of_invalid hv]
    | true =>
      cases hi : l.instr with
      | none => simp [Latch.committed_of_instr_none hi]
      | some i => exact (committed_of_instr (s := { t with W := l }) hv hi).symm
  exact (hcommit s.M _).trans (congrArg s.M.committed (hcommit s.W s))

/-! ### What Writeback writes is what the forwarding unit answers -/

/-- The value of an answer of the forwarding unit, `d` where it gives none. -/
def Forwarded.valueOr (d : Word) : Forwarded → Word
  | .hit v => v
  | .block => d
  | .miss => d

@[simp] theorem Forwarded.valueOr_hit (d v : Word) : (Forwarded.hit v).valueOr d = v := rfl
@[simp] theorem Forwarded.valueOr_block (d : Word) : Forwarded.block.valueOr d = d := rfl
@[simp] theorem Forwarded.valueOr_miss (d : Word) : Forwarded.miss.valueOr d = d := rfl

/-- What Writeback leaves in a register is what the tests of the `W` latch answer for it (40_pipeline.md R110, R132). -/
theorem commit_readReg {i : Instr} {s : State} (hv : s.W.valid = true) (hi : s.W.instr = some i) (r : RegIndex) :
    (commit i s).readReg r = ((forwardFromW s.W r).getD .miss).valueOr (s.readReg r) := by
  have hlt := fun f (hf : f ∈ dstFields i.opcode) => Latch.field_lt hi (dstFields_subset _ hf)
  unfold forwardFromW
  rw [hv, Latch.opcode_of_instr hi]
  cases i <;> simp only [Instr.opcode, dstFields, List.mem_cons, List.not_mem_nil, or_false, forall_eq_or_imp,
      forall_eq, Latch.field] at hlt <;>
    simp [commit, State.readReg_commitReg, Instr.opcode, destRd, hlt, eq_comm (a := r),
      apply_ite (Option.getD · Forwarded.miss), apply_ite (Forwarded.valueOr (s.readReg r))]

theorem readFrom_committed {l : Latch} (hl : l.legal) (regs : Vector Word Config.nregs) (r : RegIndex) :
    readFrom (l.committed regs) r = ((forwardFromW l r).getD .miss).valueOr (readFrom regs r) := by
  cases hv : l.valid with
  | false => simp [Latch.committed_of_invalid hv, forwardFromW, hv]
  | true =>
    obtain ⟨i, hi⟩ := Option.isSome_iff_exists.1 (hl hv)
    have hcommit := commit_readReg (s := { State.reset with regs := regs, W := l }) hv hi r
    rwa [State.readReg_eq_readFrom, ← committed_of_instr (s := { State.reset with regs := regs, W := l }) hv hi]
      at hcommit

/-- Where `M` does not block, its tests are those of `W` (40_pipeline.md R131, R132). -/
theorem forwardFromW_eq_forwardFromM {l : Latch} {r : RegIndex} (h : forwardFromM l r ≠ some .block) :
    forwardFromW l r = forwardFromM l r := by
  revert h
  unfold forwardFromM forwardFromW
  cases l.valid <;> cases l.opcode with
    | none => simp
    | some op => cases op <;> simp [destRd, isLoad] <;> intro h <;> simp [h]

theorem forwardFromM_ne_miss (l : Latch) (r : RegIndex) : forwardFromM l r ≠ some .miss := by
  unfold forwardFromM
  split
  · repeat' split
    all_goals simp
  · simp

/-- The value Decode takes for a register: the forwarded one, else the register file's (40_pipeline.md R137). -/
def State.operand (s : State) (r : RegIndex) : Word := (s.forward r).valueOr (s.readReg r)

/-- The value of an unblocked operand is the register's own once `W` and then the instruction in `M` are written back. That
one may be a later latch `m` of it, which forwards what `M` does. -/
theorem readFrom_committed_eq_operand {s : State} {m : Latch} {r : RegIndex} (hm : m.legal) (hW : s.W.legal)
    (hfw : forwardFromW m r = forwardFromM s.M r) (hblock : s.forward r ≠ .block) :
    readFrom (m.committed (s.W.committed s.regs)) r = s.operand r := by
  rw [readFrom_committed hm, readFrom_committed hW, hfw, State.operand, State.readReg_eq_readFrom]
  unfold State.forward at hblock ⊢
  cases hM : forwardFromM s.M r with
  | none => cases forwardFromW s.W r <;> rfl
  | some a =>
    cases a with
    | hit v => rfl
    | block => simp [hM] at hblock
    | miss => exact absurd hM (forwardFromM_ne_miss _ _)

/-- Settles O24: the tests of `M` and `W` in order give what `W` and then `M` leave in the register. -/
theorem forwardingGivesTheValueWrittenBack : Obligations.ForwardingGivesTheValueWrittenBack := by
  intro s r hM hW
  have hvalue : s.forward r ≠ .block → s.commitInFlight.readReg r = s.operand r := fun hb => by
    have hbM : forwardFromM s.M r ≠ some .block := fun h => hb (by simp [State.forward, h])
    rw [State.readReg_eq_readFrom, commitInFlight_regs,
      readFrom_committed_eq_operand hM hW (forwardFromW_eq_forwardFromM hbM) hb]
  refine ⟨fun v hv => ?_, fun hmiss => ?_, forward_eq_block_iff⟩
  · rw [hvalue (by simp [hv]), State.operand, hv, Forwarded.valueOr_hit]
  · obtain ⟨hMw, hWw⟩ := forward_eq_miss_iff.1 hmiss
    exact ⟨hMw, hWw, by rw [hvalue (by simp [hmiss]), State.operand, hmiss, Forwarded.valueOr_miss]⟩

/-! ### Writeback, register by register -/

section Destinations

variable {l : Latch} {op : Opcode}

theorem forwardFromW_rd (hv : l.valid = true) (hop : l.opcode = some op) (h : Field.rd ∈ dstFields op) :
    forwardFromW l l.rd = some (.hit l.resultBuffer) := by
  simp [forwardFromW, hv, hop, (destRd_iff op).2 h]

/-- Only LOADP has `rs1` as a destination, and its `rd` is tested first (40_pipeline.md R111, R132). -/
theorem forwardFromW_rs1 (hv : l.valid = true) (hop : l.opcode = some op) (h : Field.rs1 ∈ dstFields op)
    (hne : l.rs1 ≠ l.rd) : forwardFromW l l.rs1 = some (.hit l.rs1Value) := by
  cases op <;> simp [dstFields] at h
  simp [forwardFromW, hv, hop, destRd, hne.symm]

/-- Only STOREP has `rs2` as a destination. -/
theorem forwardFromW_rs2 (hv : l.valid = true) (hop : l.opcode = some op) (h : Field.rs2 ∈ dstFields op) :
    forwardFromW l l.rs2 = some (.hit l.rs2Value) := by
  cases op <;> simp [dstFields] at h
  simp [forwardFromW, hv, hop, destRd]

end Destinations

/-- Settles O34, from what `commit` leaves in a register and in a busy bit. -/
theorem writebackWritesExactlyTheDestinations : Obligations.WritebackWritesExactlyTheDestinations := by
  intro s i hv hi
  have hop := Latch.opcode_of_instr hi
  have hread : ∀ {r : RegIndex} {v : Word}, forwardFromW s.W r = some (.hit v) → (commit i s).readReg r = v :=
    fun h => by rw [commit_readReg hv hi, h, Option.getD_some, Forwarded.valueOr_hit]
  refine ⟨retire i (commit i s), by simp [writebackStage, hv, hi], fun r hr => commit_other hv hi hr, fun r hr => ?_,
    fun h => hread (forwardFromW_rd hv hop h), fun h hne => hread (forwardFromW_rs1 hv hop h hne),
    fun h => hread (forwardFromW_rs2 hv hop h), by simp, by simp, by simp⟩
  obtain ⟨-, f, hf, rfl⟩ := (Latch.writes_iff hop r).1 hr
  exact commit_clears hi hf

/-! ### Operands -/

/-- The value field of a latch for a source operand; there is none for `rd` (10_state.md R34). -/
def Latch.value (l : Latch) : Field → Word
  | .rd => 0#32
  | .rs1 => l.rs1Value
  | .rs2 => l.rs2Value

theorem Latch.value_setValue_same (l : Latch) {f : Field} (hf : f ≠ .rd) (v : Word) : (l.setValue f v).value f = v := by
  cases f with
  | rd => exact absurd rfl hf
  | rs1 => rfl
  | rs2 => rfl

theorem Latch.value_setValue_other (l : Latch) {f g : Field} (h : g ≠ f) (v : Word) :
    (l.setValue f v).value g = l.value g := by
  cases f <;> cases g <;> simp_all [Latch.value, Latch.setValue]

theorem State.resolveOperand_value_other {s : State} {f g : Field} (h : g ≠ f) :
    (s.resolveOperand f).1.D.value g = s.D.value g := by
  unfold State.resolveOperand
  split
  · exact s.D.value_setValue_other h _
  · rfl
  · exact s.D.value_setValue_other h _

theorem State.resolveOperand_value_same {s : State} {f : Field} (hf : f ≠ .rd) (hr : (s.resolveOperand f).2 = true) :
    (s.resolveOperand f).1.D.value f = s.operand (s.D.field f) := by
  unfold State.resolveOperand at hr ⊢
  unfold State.operand
  split at hr
  · next v h => simpa [h] using s.D.value_setValue_same hf _
  · cases hr
  · next h => simpa [h] using s.D.value_setValue_same hf _

theorem State.operand_congr {s t : State} (hM : t.M = s.M) (hW : t.W = s.W) (hregs : t.regs = s.regs) (r : RegIndex) :
    t.operand r = s.operand r := by
  rw [State.operand, State.operand, State.forward_congr hM hW, State.readReg_congr hregs]

theorem State.resolveOperands_value_other {s : State} {fs : List Field} {g : Field} (h : g ∉ fs) :
    (s.resolveOperands fs).1.D.value g = s.D.value g := by
  induction fs generalizing s with
  | nil => rfl
  | cons f fs ih =>
    obtain ⟨hgf, hg⟩ := not_or.1 (mt List.mem_cons.2 h)
    exact (ih hg).trans (State.resolveOperand_value_other hgf)

/-- When a source set is ready, each of its value fields holds the operand's value (40_pipeline.md R137). -/
theorem State.resolveOperands_value {s : State} {fs : List Field} (hrd : Field.rd ∉ fs)
    (hr : (s.resolveOperands fs).2 = true) {g : Field} (hg : g ∈ fs) :
    (s.resolveOperands fs).1.D.value g = s.operand (s.D.field g) := by
  induction fs generalizing s with
  | nil => cases hg
  | cons f fs ih =>
    obtain ⟨hf, hrd⟩ := not_or.1 (mt List.mem_cons.2 hrd)
    obtain ⟨hr1, hr2⟩ := Bool.and_eq_true_iff.1 hr
    by_cases hgfs : g ∈ fs
    · rw [State.resolveOperands, ih hrd hr2 hgfs, (s.resolveOperand_D f).field g]
      exact State.operand_congr (by simp) (by simp) (by simp) _
    · obtain rfl : g = f := (List.mem_cons.1 hg).resolve_right hgfs
      exact (State.resolveOperands_value_other hgfs).trans (State.resolveOperand_value_same (Ne.symm hf) hr1)

/-! ### Fetch and issue with nothing in flight -/

theorem Opcode.ofNumber_number (op : Opcode) : Opcode.ofNumber op.number = some op := by
  cases op <;> rfl

/-- A well-formed record passes the Decode checks from any address (40_pipeline.md R142). -/
theorem checkDecode_fetchedLatch {r : Record} {i : Instr} (hi : r.instr = .ok i) (hw : i.wellFormed = true) (b : Bool)
    (pc : Word) : checkDecode (fetchedLatch b pc (some r)) = .ok i.opcode := by
  obtain ⟨hop, hinstr⟩ := Record.of_instr_eq_ok hi
  rw [hinstr] at hw
  refine checkDecode_ok_iff.2 ⟨?_, (wellFormed_instr_iff i.opcode (fetchedLatch b pc (some r))).1 hw⟩
  simp [fetchedLatch, Latch.opcode, hop, Opcode.ofNumber_number]

theorem instr_fetchedLatch {r : Record} {i : Instr} (hi : r.instr = .ok i) (hw : i.wellFormed = true) (b : Bool)
    (pc : Word) : (fetchedLatch b pc (some r)).instr = some i := by
  rw [instr_of_checkDecode (checkDecode_fetchedLatch hi hw b pc)]
  exact congrArg some (Record.of_instr_eq_ok hi).2.symm

theorem State.operand_of_empty {s : State} (hM : s.M.valid = false) (hW : s.W.valid = false) (r : RegIndex) :
    s.forward r = .miss ∧ s.operand r = s.readReg r := by
  have hmiss : s.forward r = .miss :=
    forward_eq_miss_iff.2 ⟨Latch.not_writes_of_invalid hM r, Latch.not_writes_of_invalid hW r⟩
  exact ⟨hmiss, by rw [State.operand, hmiss, Forwarded.valueOr_miss]⟩

/-- From a quiescent state only Fetch has work: it hands the slot at `pc` to Decode. -/
theorem Quiescent.step_eq {s : State} (h : Quiescent s) : step s = .next (handOff (fillF s)).tick := by
  rw [step_of_stages h.notFaulted h.running (writebackStage_empty h.writebackEmpty) h.running
    (memoryStage_idle h.memoryEmpty h.writebackEmpty) (executeStage_idle h.executeEmpty h.memoryEmpty)
    (decodeStage_idle h.decodeEmpty h.notStalled), fetchStage_handOff h.noRedirect h.fetchOn h.notStalled]

/-- Issue marks exactly the destinations busy where nothing was (40_pipeline.md R138). -/
theorem State.readBusy_markBusy_iff {s : State} {fs : List Field} (hbusy : ∀ x, s.readBusy x = false)
    (hlt : ∀ f ∈ fs, (s.D.field f).toNat < Config.nregs) (x : RegIndex) :
    (s.markBusy fs).readBusy x = true ↔ ∃ f ∈ fs, s.D.field f = x := by
  constructor
  · intro h
    exact (State.readBusy_markBusy h).resolve_left (by simp [hbusy x])
  · rintro ⟨f, hf, rfl⟩
    exact State.markBusy_of_mem hf (hlt f hf)

/-- The state `u` after the instruction with opcode `op` has issued from `D` of `t` with nothing else in flight
(40_pipeline.md R137, R138). -/
structure IssuedAlone (op : Opcode) (t u : State) : Prop where
  valid : u.E.valid = true
  record : t.D.SameRecord u.E
  values : ∀ f ∈ srcFields op, u.E.value f = t.readReg (t.D.field f)
  busy : ∀ x, u.readBusy x = true ↔ ∃ f ∈ dstFields op, u.E.field f = x
  memoryEmpty : u.M.valid = false
  writebackEmpty : u.W.valid = false
  regs : u.regs = t.regs
  flags : u.flags = t.flags
  dmem : u.dmem = t.dmem
  clock : u.clock = t.clock + 1
  completed : u.completed = t.completed

/-- With no other instruction in flight and no register busy there is nothing to forward and nothing to wait for. -/
theorem step_issues_alone {t : State} {op : Opcode} (hf : t.faulted = none) (hrun : t.halted = false)
    (hD : t.D.valid = true) (hE : t.E.valid = false) (hM : t.M.valid = false) (hW : t.W.valid = false)
    (hbusy : ∀ x, t.readBusy x = false) (hc : checkDecode t.D = .ok op) :
    ∃ u, step t = .next u ∧ IssuedAlone op t u := by
  have hready : (t.resolveOperands (srcFields op)).2 = true :=
    (State.resolveOperands_ready_iff (fun r _ => hbusy r) _).2 fun f _ => by
      simp [(State.operand_of_empty hM hW (t.D.field f)).1]
  have hd : decodeStage t = .next (issue op (t.resolveOperands (srcFields op)).1) := by
    simp [decodeStage, hD, hc, hready]
  have hrec := t.resolveOperands_D (srcFields op)
  have hnone : ∀ x, (t.resolveOperands (srcFields op)).1.readBusy x = false := fun x => by
    by_contra hb
    have hx := State.resolveOperands_busy (Bool.eq_true_of_not_eq_false hb)
    simp [hbusy x] at hx
  have hlt : ∀ g ∈ dstFields op, ((t.resolveOperands (srcFields op)).1.D.field g).toNat < Config.nregs := fun g hg => by
    rw [hrec.field]
    exact (checkDecode_ok_iff.1 hc).2 g (dstFields_subset _ hg)
  have d := decodeStage_frame hd
  refine ⟨_, step_of_stages hf hrun (writebackStage_empty hW) hrun (memoryStage_idle hM hW)
    (executeStage_idle hE hM) hd, ?_⟩
  generalize hv : issue op (t.resolveOperands (srcFields op)).1 = v at d
  have f := fetchStage_frame v
  have hvE : (fetchStage v).tick.E = (t.resolveOperands (srcFields op)).1.D := by
    subst hv
    exact f.E
  exact
    { valid := by rw [hvE, State.resolveOperands_D_valid, hD]
      record := hvE ▸ hrec
      values := fun g hg => by
        rw [hvE, State.resolveOperands_value (rd_not_mem_srcFields _) hready hg, (State.operand_of_empty hM hW _).2]
      busy := fun x => by
        rw [hvE, ← State.readBusy_markBusy_iff hnone hlt x, ← State.readBusy_congr (issue_busy op _) x, hv]
        exact Bool.eq_iff_iff.1 (State.readBusy_congr f.busy x)
      memoryEmpty := by rw [State.tick_M, f.M, d.M, hM]
      writebackEmpty := by rw [State.tick_W, f.W, d.W, hW]
      regs := f.regs.trans d.regs
      flags := f.flags.trans d.flags
      dmem := f.dmem.trans d.dmem
      clock := congrArg (· + 1) (f.clock.trans d.clock)
      completed := f.completed.trans d.completed }

/-- Settles O8: Fetch hands the record to Decode, which issues it alone. -/
theorem fetchedInstructionReachesExecute : Obligations.FetchedInstructionReachesExecute := by
  intro s i r hq hread hi hw
  have hst := hq.step_eq
  have hD : (handOff (fillF s)).tick.D = fetchedLatch true s.pc (some r) := by simp [hread, hq.fetchOn]
  have hc : checkDecode (handOff (fillF s)).tick.D = .ok i.opcode := hD ▸ checkDecode_fetchedLatch hi hw true s.pc
  obtain ⟨u, hu, h⟩ := step_issues_alone (t := (handOff (fillF s)).tick) hq.notFaulted hq.running
    (by rw [hD, fetchedLatch_valid]) hq.executeEmpty hq.memoryEmpty hq.writebackEmpty hq.notBusy hc
  have hrec := h.record
  have hval := h.values
  rw [hD] at hrec hval
  exact ⟨_, u, hst, hu, by rw [hD, fetchedLatch_valid], by rw [hD, fetchedLatch_pc], rfl, h.valid,
    by rw [hrec.instr, instr_fetchedLatch hi hw], by rw [hrec.pc, fetchedLatch_pc], hval .rs1, hval .rs2, h.busy,
    h.memoryEmpty, h.writebackEmpty, h.regs, h.flags, h.dmem, h.clock, h.completed⟩

end Sys2Proof.Machine

/-! SUPPORT. The pipeline refines sequential execution (40_pipeline.md R156). The architectural state of a pipeline is drained:
it is the one that remains once the instructions in `W`, `M` and `E` have retired in that order. No stage changes the drained
state but the issue of an instruction, which changes it as the sequential reference does. -/

namespace Sys2Proof.Machine

/-! ### What Execute and Memory make of a latch -/

/-- `exec` writes `E` from `E` alone (40_pipeline.md R120; log 6). -/
theorem exec_E_congr {i : Instr} {s t s' t' : State} (h : exec i s = .next t) (h' : exec i s' = .next t')
    (hE : s'.E = s.E) : t'.E = t.E := by
  cases i <;> cases h <;> cases h' <;> simp [hE]

/-- `exec` writes the flags from `E` and the flags alone. -/
theorem exec_flags_congr {i : Instr} {s t s' t' : State} (h : exec i s = .next t) (h' : exec i s' = .next t')
    (hE : s'.E = s.E) (hf : s'.flags = s.flags) : t'.flags = t.flags := by
  cases i <;> cases h <;> cases h' <;> simp [hE, hf]

/-- The latch that `exec` makes of the latch `l`. -/
def Latch.executed (l : Latch) : Latch :=
  match l.instr with
  | some i =>
    match exec i { State.reset with E := l } with
    | .next t => t.E
    | _ => l
  | none => l

/-- The flags that `exec` leaves for the instruction in the latch `l`. -/
def Latch.flagsAfter (l : Latch) (f : Flags) : Flags :=
  match l.valid, l.instr with
  | true, some i =>
    match exec i { State.reset with E := l, flags := f } with
    | .next t => t.flags
    | _ => f
  | _, _ => f

theorem executed_of_exec {i : Instr} {s t : State} (hi : s.E.instr = some i) (h : exec i s = .next t) :
    s.E.executed = t.E := by
  obtain ⟨t', ht'⟩ := exec_next i { State.reset with E := s.E }
  simp only [Latch.executed, hi, ht']
  exact exec_E_congr h ht' rfl

theorem flagsAfter_of_exec {i : Instr} {s t : State} (hv : s.E.valid = true) (hi : s.E.instr = some i)
    (h : exec i s = .next t) : s.E.flagsAfter s.flags = t.flags := by
  obtain ⟨t', ht'⟩ := exec_next i { State.reset with E := s.E, flags := s.flags }
  simp only [Latch.flagsAfter, hv, hi, ht']
  exact exec_flags_congr h ht' rfl rfl

theorem Latch.flagsAfter_of_invalid {l : Latch} (h : l.valid = false) (f : Flags) : l.flagsAfter f = f := by
  simp [Latch.flagsAfter, h]

/-- Execute keeps the record and the `valid` bit of its latch. -/
theorem Latch.executed_keeps (l : Latch) : l.SameRecord l.executed ∧ l.executed.valid = l.valid := by
  cases hi : l.instr with
  | none => simp [Latch.executed, hi, Latch.SameRecord.refl]
  | some i =>
    obtain ⟨t, ht⟩ := exec_next i { State.reset with E := l }
    have fr := exec_frame ht
    rw [executed_of_exec (s := { State.reset with E := l }) hi ht]
    exact ⟨fr.record, fr.valid⟩

theorem executeStage_executed {s t : State} (h : executeStage s = .next t) :
    (s.E.valid = true → t.M = s.E.executed) ∧ t.flags = s.E.flagsAfter s.flags := by
  rcases executeStage_cases h with ⟨hv, ht⟩ | ⟨i, u, hv, hi, hu, ht⟩ | ⟨-, -, ht⟩ <;> cases ht
  · exact ⟨fun hv' => by simp [hv] at hv', (Latch.flagsAfter_of_invalid hv _).symm⟩
  · exact ⟨fun _ => (executed_of_exec hi hu).symm, (flagsAfter_of_exec hv hi hu).symm⟩

/-- The latch `l` after its data access, the loaded word in its result (40_pipeline.md R115). -/
def Latch.accessed (l : Latch) (dmem : List DataCell) : Latch :=
  if l.opcode.any isLoad then { l with resultBuffer := cellRead dmem l.memoryAddress.toNat } else l

/-- The data memory after the access of the latch `l` (40_pipeline.md R115, R116). -/
def Latch.stored (l : Latch) (dmem : List DataCell) : List DataCell :=
  if l.valid && l.opcode.any isStore then cellWrite dmem l.memoryAddress.toNat l.rs1Value else dmem

/-- The access of the latch `l`, if it makes one, passes the address check (40_pipeline.md R117). -/
def Latch.accessOk (l : Latch) : Prop :=
  l.valid = true → ∀ op, l.opcode = some op → isLoad op = true ∨ isStore op = true →
    dataAddressOk l.memoryAddress = true

theorem Latch.accessed_keeps (l : Latch) (dmem : List DataCell) :
    l.SameRecord (l.accessed dmem) ∧ (l.accessed dmem).valid = l.valid := by
  unfold Latch.accessed
  split
  · exact ⟨⟨rfl, rfl, rfl, rfl, rfl, rfl⟩, rfl⟩
  · exact ⟨.refl l, rfl⟩

theorem Latch.stored_of_invalid {l : Latch} (h : l.valid = false) (dmem : List DataCell) : l.stored dmem = dmem := by
  simp [Latch.stored, h]

theorem Latch.accessOk_of_invalid {l : Latch} (h : l.valid = false) : l.accessOk := by
  intro hv
  simp [h] at hv

theorem memoryStage_accessed {s t : State} (h : memoryStage s = .next t) :
    (s.M.valid = true → t.W = s.M.accessed s.dmem) ∧ t.dmem = s.M.stored s.dmem ∧ s.M.accessOk := by
  rcases memoryStage_cases h with ⟨hv, ht⟩ | ⟨i, u, hv, hi, hu, ht⟩ | ⟨i, -, -, -, -, ht⟩ | ⟨-, -, ht⟩ <;> cases ht
  · exact ⟨fun hv' => by simp [hv] at hv', (Latch.stored_of_invalid hv _).symm, Latch.accessOk_of_invalid hv⟩
  · have hop := Latch.opcode_of_instr hi
    rcases memoryAccess_cases hu with ⟨hl, hs, h⟩ | ⟨hl, hok, h⟩ | ⟨hs, hok, h⟩ | ⟨-, -, h⟩ <;> cases h
    · exact ⟨by simp [Latch.accessed, hop, hl], by simp [Latch.stored, hop, hs],
        fun _ op hop' hls => by cases hop.symm.trans hop'; simp [hl, hs] at hls⟩
    · exact ⟨by simp [Latch.accessed, hop, hl, State.memRead], by simp [Latch.stored, hop, isStore_of_isLoad hl],
        fun _ _ _ _ => hok⟩
    · have hl : isLoad i.opcode = false := by
        cases hl : isLoad i.opcode
        · rfl
        · simp [isStore_of_isLoad hl] at hs
      exact ⟨by simp [Latch.accessed, hop, hl], by simp [Latch.stored, hop, hs, hv, State.memWrite],
        fun _ _ _ _ => hok⟩

theorem memoryStage_next_of_accessOk {s : State} (hl : s.M.legal) (hok : s.M.accessOk) :
    ∃ t, memoryStage s = .next t := by
  rcases memoryStage_cases (s := s) rfl with ⟨-, h⟩ | ⟨i, u, -, -, -, h⟩ | ⟨i, hv, hi, hls, hbad, -⟩ | ⟨hv, hi, -⟩
  · exact ⟨_, h⟩
  · exact ⟨_, h⟩
  · simp [hok hv _ (Latch.opcode_of_instr hi) hls] at hbad
  · have := hl hv
    simp [hi] at this

/-- Registers and data memory after the latch `l`, past Execute, has gone through Memory and Writeback. -/
def Latch.finished (l : Latch) (a : Vector Word Config.nregs × List DataCell) :
    Vector Word Config.nregs × List DataCell :=
  ((l.accessed a.2).committed a.1, l.stored a.2)

theorem Latch.finished_of_invalid {l : Latch} (h : l.valid = false)
    (a : Vector Word Config.nregs × List DataCell) : l.finished a = a := by
  rw [Latch.finished, Latch.stored_of_invalid h, Latch.committed_of_invalid ((l.accessed_keeps a.2).2.trans h)]

theorem forwardFromW_congr {l m : Latch} {r : RegIndex} (hrec : l.SameRecord m) (hv : m.valid = l.valid)
    (h1 : m.rs1Value = l.rs1Value) (h2 : m.rs2Value = l.rs2Value) (hb : l.rd = r → m.resultBuffer = l.resultBuffer) :
    forwardFromW m r = forwardFromW l r := by
  unfold forwardFromW
  rw [hv, hrec.opcode, hrec.rd, hrec.rs1, hrec.rs2, h1, h2]
  by_cases hr : l.rd = r
  · rw [hb hr]
  · simp [hr]

/-- An unblocked test of `M` answers what the test of `W` will answer, whatever the access loads: only a load's `rd` takes the
loaded word (40_pipeline.md R131, R132). -/
theorem forwardFromW_accessed {l : Latch} {r : RegIndex} (h : forwardFromM l r ≠ some .block) (dmem : List DataCell) :
    forwardFromW (l.accessed dmem) r = forwardFromM l r := by
  rw [← forwardFromW_eq_forwardFromM h]
  cases hv : l.valid with
  | false => simp [forwardFromW, (l.accessed_keeps dmem).2, hv]
  | true =>
    unfold Latch.accessed
    split
    · next hl =>
      obtain ⟨op, hop, hload⟩ := (Option.any_eq_true _ _).1 hl
      have hrd : l.rd ≠ r := fun hr => h (by cases op <;> simp_all [forwardFromM, destRd, isLoad])
      exact forwardFromW_congr ⟨rfl, rfl, rfl, rfl, rfl, rfl⟩ rfl rfl rfl fun hr => absurd hr hrd
    · rfl

/-! ### The drained state -/

/-- The architectural state: what sequential execution is about, and what a pipeline leaves when it drains. -/
structure Arch where
  regs      : Vector Word Config.nregs
  flags     : Flags
  dmem      : List DataCell
  pc        : Word
  code      : List Record
  completed : Nat
  halted    : Bool

def State.arch (s : State) : Arch where
  regs := s.regs
  flags := s.flags
  dmem := s.dmem
  pc := s.pc
  code := s.code
  completed := s.completed
  halted := s.halted

def Latch.isHalt (l : Latch) : Bool := l.valid && decide (l.opcode = some .halt)

/-- The transfer that the latch `l` makes in Execute; `State.transfer` is that of `E`. -/
def Latch.transfer (l : Latch) (f : Flags) : Option Word := State.transfer { State.reset with E := l, flags := f }

theorem State.transfer_eq (s : State) : s.transfer = s.E.transfer s.flags := rfl

/-- The address of the next instruction to issue: the target of the transfer in `E`, else the instruction in `D`, else the
one that Fetch is about to read. -/
def State.nextIssue (s : State) : Word := s.transfer.getD (if s.D.valid then s.D.pc else s.pc)

/-- The state after the instructions in `W`, `M` and `E` have retired. -/
def State.drained (s : State) : Arch where
  regs := (s.E.executed.finished (s.M.finished (s.W.committed s.regs, s.dmem))).1
  flags := s.E.flagsAfter s.flags
  dmem := (s.E.executed.finished (s.M.finished (s.W.committed s.regs, s.dmem))).2
  pc := s.nextIssue
  code := s.code
  completed := s.completed + s.inFlight
  halted := s.halted || s.E.isHalt || s.M.isHalt || s.W.isHalt

theorem Latch.isHalt_of_invalid {l : Latch} (h : l.valid = false) : l.isHalt = false := by
  simp [Latch.isHalt, h]

theorem Latch.isHalt_congr {l m : Latch} (hrec : l.SameRecord m) (hv : m.valid = l.valid) : m.isHalt = l.isHalt := by
  rw [Latch.isHalt, Latch.isHalt, hv, hrec.opcode]

theorem Latch.executed_valid_of_invalid {l : Latch} (h : l.valid = false) : l.executed.valid = false :=
  l.executed_keeps.2.trans h

/-- With nothing in flight the drained state is the machine's own. -/
theorem State.drained_of_empty {s : State} (hD : s.D.valid = false) (hE : s.E.valid = false) (hM : s.M.valid = false)
    (hW : s.W.valid = false) : s.drained = s.arch := by
  simp only [State.drained, State.arch, State.nextIssue, State.transfer_of_invalid hE, State.inFlight, hD, hE, hM, hW,
    Latch.finished_of_invalid (Latch.executed_valid_of_invalid hE), Latch.finished_of_invalid hM,
    Latch.committed_of_invalid hW, Latch.flagsAfter_of_invalid hE, Latch.isHalt_of_invalid hE,
    Latch.isHalt_of_invalid hM, Latch.isHalt_of_invalid hW]
  simp

/-! ### The stages behind Decode drain nothing -/

theorem State.nextIssue_congr {s t : State} (hE : t.E = s.E) (hf : t.flags = s.flags) (hD : t.D = s.D)
    (hpc : t.pc = s.pc) : t.nextIssue = s.nextIssue := by
  rw [State.nextIssue, State.nextIssue, State.transfer_congr hE hf, hD, hpc]

theorem writebackStage_drained {s t : State} (h : writebackStage s = .next t) : t.drained = s.drained := by
  have w := writebackStage_frame h
  simp only [State.drained, State.nextIssue_congr w.E w.flags w.D w.pc, State.inFlight, w.E, w.M, w.flags, w.dmem,
    w.code, w.completed, w.halted, w.wEmpty, writebackStage_regs h, Latch.committed_of_invalid w.wEmpty,
    Latch.isHalt_of_invalid w.wEmpty]
  congr 1
  · simp only [Bool.toNat_false]
    omega
  · simp only [Latch.isHalt, Bool.decide_and, Bool.decide_eq_true, Bool.or_false]
    ac_rfl

theorem memoryStage_drained {s t : State} (h : memoryStage s = .next t) (hW : s.W.valid = false) :
    t.drained = s.drained := by
  have m := memoryStage_frame h
  obtain ⟨hacc, hdmem, -⟩ := memoryStage_accessed h
  have hfin : (t.W.committed t.regs, t.dmem) = s.M.finished (s.regs, s.dmem) := by
    rw [Latch.finished, m.regs, hdmem]
    cases hv : s.M.valid with
    | true => rw [hacc hv]
    | false =>
      rw [Latch.committed_of_invalid (m.wValid.trans hv), Latch.committed_of_invalid ((s.M.accessed_keeps _).2.trans hv)]
  have hhalt : t.W.isHalt = s.M.isHalt := by
    cases hv : s.M.valid with
    | true => exact Latch.isHalt_congr (m.wRecord hv) m.wValid
    | false => rw [Latch.isHalt_of_invalid hv, Latch.isHalt_of_invalid (m.wValid.trans hv)]
  simp only [State.drained, State.nextIssue_congr m.E m.flags m.D m.pc, State.inFlight, m.E, m.flags, m.code,
    m.completed, m.halted, m.mEmpty, hW, m.wValid, hfin, hhalt, Latch.finished_of_invalid m.mEmpty,
    Latch.committed_of_invalid hW, Latch.isHalt_of_invalid m.mEmpty, Latch.isHalt_of_invalid hW]
  simp only [Bool.or_false, Bool.toNat_false, Nat.add_zero]

theorem executeStage_drained {s t : State} (h : executeStage s = .next t) (hM : s.M.valid = false) :
    t.drained = s.drained := by
  have x := executeStage_frame h
  obtain ⟨hex, hflags⟩ := executeStage_executed h
  have hfin : ∀ a, t.M.finished a = s.E.executed.finished a := fun a => by
    cases hv : s.E.valid with
    | true => rw [hex hv]
    | false =>
      rw [Latch.finished_of_invalid (x.mValid.trans hv), Latch.finished_of_invalid (Latch.executed_valid_of_invalid hv)]
  have hhalt : t.M.isHalt = s.E.isHalt := by
    cases hv : s.E.valid with
    | true => exact Latch.isHalt_congr (x.mRecord hv) x.mValid
    | false => rw [Latch.isHalt_of_invalid hv, Latch.isHalt_of_invalid (x.mValid.trans hv)]
  have hnext : t.nextIssue = s.nextIssue := by
    rw [State.nextIssue, State.nextIssue, State.transfer_of_invalid x.eEmpty]
    cases htr : s.transfer with
    | some y =>
      obtain ⟨hpc, -, hD, -⟩ := x.redirected y htr
      simp [hpc, hD]
    | none =>
      obtain ⟨hpc, -, hD, -⟩ := x.straight htr
      rw [hpc, hD]
  simp only [State.drained, hnext, State.inFlight, x.regs, x.dmem, x.code, x.completed, x.halted, x.W, x.eEmpty, hM,
    x.mValid, hfin, hhalt, hflags, Latch.finished_of_invalid (Latch.executed_valid_of_invalid x.eEmpty),
    Latch.finished_of_invalid hM, Latch.flagsAfter_of_invalid x.eEmpty, Latch.isHalt_of_invalid x.eEmpty,
    Latch.isHalt_of_invalid hM]
  simp only [Bool.or_false, Bool.toNat_false, Nat.add_zero, Nat.zero_add]

/-- Fetch and the clock keep the drained state: what Fetch hands over is what was next to issue. -/
theorem fetchStage_drained {s : State} (hD : s.stallPipeline = false → s.D.valid = false) :
    (fetchStage s).tick.drained = s.drained := by
  have f := fetchStage_frame s
  have hnext : (fetchStage s).nextIssue = s.nextIssue := by
    rw [State.nextIssue, State.nextIssue, State.transfer_congr f.E f.flags]
    rcases fetchStage_front s with ⟨hpc, hD', -⟩ | ⟨-, -, hst, -, hDv, hDpc, -⟩
    · rw [hpc, hD']
    · rw [hDv, hDpc, hD hst]
      rfl
  change (fetchStage s).drained = s.drained
  simp only [State.drained, hnext, State.inFlight, f.regs, f.dmem, f.flags, f.code, f.completed, f.halted, f.E, f.M, f.W]

/-- The effect of one instruction, issued in the latch `l`, on the architectural state. -/
def Arch.retire (a : Arch) (l : Latch) : Arch where
  regs := (l.executed.finished (a.regs, a.dmem)).1
  flags := l.flagsAfter a.flags
  dmem := (l.executed.finished (a.regs, a.dmem)).2
  pc := (l.transfer a.flags).getD (nextPc l.pc)
  code := a.code
  completed := a.completed + 1
  halted := a.halted || l.isHalt

/-- Decode without an issue keeps the drained state. -/
theorem drained_of_not_issued {s t : State} (h : decodeStage s = .next t) (hE : t.E = s.E) (hD : t.D.valid = s.D.valid) :
    t.drained = s.drained := by
  have d := decodeStage_frame h
  have hnext : t.nextIssue = s.nextIssue := by
    rw [State.nextIssue, State.nextIssue, State.transfer_congr hE d.flags, hD, d.dRecord.pc, d.pc]
  simp only [State.drained, hnext, State.inFlight, d.regs, d.dmem, d.flags, d.code, d.completed, d.halted, d.M, d.W, hE]

/-- Issue retires the issued latch from the drained state. -/
theorem drained_of_issued {s t : State} (h : decodeStage s = .next t) (hsE : s.E.valid = false)
    (htD : t.D.valid = false) (htE : t.E.valid = true) (hpc : s.pc = nextPc t.E.pc) :
    t.drained = s.drained.retire t.E := by
  have d := decodeStage_frame h
  have hnext : t.nextIssue = (t.E.transfer s.flags).getD (nextPc t.E.pc) := by
    rw [State.nextIssue, State.transfer_eq, htD, d.flags, d.pc, hpc]
    rfl
  simp only [State.drained, Arch.retire, hnext, State.inFlight, d.regs, d.dmem, d.flags, d.code, d.completed, d.halted,
    d.M, d.W, hsE, htE, Latch.finished_of_invalid (Latch.executed_valid_of_invalid hsE),
    Latch.flagsAfter_of_invalid hsE, Latch.isHalt_of_invalid hsE]
  congr 1
  · simp only [Bool.toNat_false, Bool.toNat_true]
    omega
  · simp only [Bool.or_false]
    ac_rfl

/-! ### The sequential reference retires one latch -/

theorem issuedAlone_sameRecord (s : State) (op : Opcode) (l : Latch) : l.SameRecord (s.issuedAlone op l) :=
  ⟨rfl, rfl, rfl, rfl, rfl, rfl⟩

/-- Execute, Memory and Writeback in a row retire the latch in `E`. -/
theorem stages_retire {p : State} (hv : p.E.valid = true) (hlegal : p.E.legal) (hok : p.E.executed.accessOk)
    (hpc : p.pc = nextPc p.E.pc) :
    ∃ a b c, executeStage p = .next a ∧ memoryStage a = .next b ∧ writebackStage b = .next c ∧
      c.arch = p.arch.retire p.E := by
  obtain ⟨a, ha⟩ := executeStage_next_of_legal hlegal
  have x := executeStage_frame ha
  obtain ⟨hex, hflags⟩ := executeStage_executed ha
  have hEM : p.E.PassedTo a.M := ⟨x.mValid, x.mRecord⟩
  obtain ⟨b, hb⟩ := memoryStage_next_of_accessOk (hEM.legal hlegal) (hex hv ▸ hok)
  have m := memoryStage_frame hb
  obtain ⟨hacc, hdmem, -⟩ := memoryStage_accessed hb
  have hMv : a.M.valid = true := x.mValid.trans hv
  have hMW : a.M.PassedTo b.W := ⟨m.wValid, m.wRecord⟩
  obtain ⟨c, hc⟩ := writebackStage_next_of_legal (hMW.legal (hEM.legal hlegal))
  have w := writebackStage_frame hc
  refine ⟨a, b, c, ha, hb, hc, ?_⟩
  have hregs : c.regs = (p.E.executed.accessed p.dmem).committed p.regs := by
    rw [writebackStage_regs hc, hacc hMv, m.regs, x.regs, x.dmem, hex hv]
  have hcpc : a.pc = (p.E.transfer p.flags).getD (nextPc p.E.pc) := by
    rw [← State.transfer_eq, ← hpc]
    cases htr : p.transfer with
    | some y => exact (x.redirected y htr).1
    | none => exact (x.straight htr).1
  have hhalt : decide (b.W.valid = true ∧ b.W.opcode = some .halt) = p.E.isHalt := by
    rw [m.wValid, hMv, (m.wRecord hMv).opcode, (x.mRecord hv).opcode]
    simp [Latch.isHalt, hv]
  have hhalted : c.halted = (p.halted || p.E.isHalt) := by rw [w.halted, hhalt, m.halted, x.halted]
  have hcompleted : c.completed = p.completed + 1 := by
    rw [w.completed, m.wValid, hMv, m.completed, x.completed, Bool.toNat_true]
  simp only [State.arch, Arch.retire, Latch.finished, hregs, w.flags, m.flags, hflags, w.dmem, hdmem, hex hv, x.dmem,
    w.pc, m.pc, hcpc, w.code, m.code, x.code, hcompleted, hhalted]

/-- One instruction of the sequential reference retires the latch it issues (40_pipeline.md R156). -/
theorem seqStep_retires {q : State} {op : Opcode} {l : Latch} (hrun : q.halted = false)
    (hc : checkDecode (fetchedLatch true q.pc (q.codeRead q.pc)) = .ok op)
    (hl : q.issuedAlone op (fetchedLatch true q.pc (q.codeRead q.pc)) = l) (hok : l.executed.accessOk) :
    ∃ q', seqStep q = .next q' ∧ q'.arch = q.arch.retire l := by
  have hv : l.valid = true := by rw [← hl]; exact fetchedLatch_valid _ _ _
  have hpc : l.pc = q.pc := by rw [← hl]; exact fetchedLatch_pc _ _ _
  have hlegal : l.legal := fun _ => by
    rw [← hl, (issuedAlone_sameRecord q op _).instr, instr_of_checkDecode hc]
    rfl
  obtain ⟨a, b, c, h1, h2, h3, harch⟩ :=
    stages_retire (p := { q with pc := nextPc q.pc, E := l }) hv hlegal hok (congrArg nextPc hpc.symm)
  refine ⟨{ c with fetchFromNextCycle := false, D := { c.D with valid := false } }, ?_, harch⟩
  unfold seqStep
  rw [if_neg (by simp [hrun]), hc]
  simp only [hl, h1, h2, h3, andThen_next]

/-! ### What waits in Decode came from the slot its address names -/

/-- The latch `l` is what Fetch filled from the slot contents `r`, but for the values of its source operands
(40_pipeline.md R145, R147). -/
structure FetchedFrom (r : Option Record) (l : Latch) : Prop where
  record : (fetchedLatch true l.pc r).SameRecord l
  result : l.resultBuffer = 0#32
  address : l.memoryAddress = 0#32
  unread : ∀ op, l.opcode = some op → ∀ g, g ∉ srcFields op → l.value g = 0#32

/-- The instruction in `D` came from the slot that its address names, and `pc` has moved on by one slot. -/
def State.DecodeFetched (s : State) : Prop :=
  s.D.valid = true → s.pc = nextPc s.D.pc ∧ FetchedFrom (s.codeRead s.D.pc) s.D

theorem fetchedFrom_fetchedLatch (r : Option Record) (pc : Word) : FetchedFrom r (fetchedLatch true pc r) := by
  cases r with
  | none => exact ⟨.refl _, rfl, rfl, fun _ _ g _ => by cases g <;> rfl⟩
  | some r => exact ⟨.refl _, rfl, rfl, fun _ _ g _ => by cases g <;> rfl⟩

theorem Latch.setValue_keeps (l : Latch) (f : Field) (v : Word) :
    (l.setValue f v).resultBuffer = l.resultBuffer ∧ (l.setValue f v).memoryAddress = l.memoryAddress := by
  cases f <;> exact ⟨rfl, rfl⟩

theorem State.resolveOperand_keeps (s : State) (f : Field) :
    (s.resolveOperand f).1.D.resultBuffer = s.D.resultBuffer ∧
      (s.resolveOperand f).1.D.memoryAddress = s.D.memoryAddress := by
  unfold State.resolveOperand
  split
  · exact s.D.setValue_keeps f _
  · exact ⟨rfl, rfl⟩
  · exact s.D.setValue_keeps f _

theorem State.resolveOperands_keeps (s : State) (fs : List Field) :
    (s.resolveOperands fs).1.D.resultBuffer = s.D.resultBuffer ∧
      (s.resolveOperands fs).1.D.memoryAddress = s.D.memoryAddress := by
  induction fs generalizing s with
  | nil => exact ⟨rfl, rfl⟩
  | cons f fs ih =>
    obtain ⟨h1, h2⟩ := s.resolveOperand_keeps f
    obtain ⟨h3, h4⟩ := ih (s.resolveOperand f).1
    exact ⟨h3.trans h1, h4.trans h2⟩

/-- Reading the operands changes only the values of the source operands (40_pipeline.md R137). -/
theorem FetchedFrom.resolveOperands {r : Option Record} {s : State} {op : Opcode} (h : FetchedFrom r s.D)
    (hop : s.D.opcode = some op) : FetchedFrom r (s.resolveOperands (srcFields op)).1.D := by
  have hrec := s.resolveOperands_D (srcFields op)
  obtain ⟨hres, haddr⟩ := s.resolveOperands_keeps (srcFields op)
  refine ⟨?_, hres.trans h.result, haddr.trans h.address, fun op' hop' g hg => ?_⟩
  · rw [hrec.pc]
    exact h.record.trans hrec
  · rw [hrec.opcode, hop] at hop'
    cases hop'
    exact (State.resolveOperands_value_other hg).trans (h.unread op hop g hg)

/-- The latch that the sequential reference issues, told by its operand values. -/
theorem FetchedFrom.eq_issuedAlone {r : Option Record} {q : State} {l : Latch} {op : Opcode} (h : FetchedFrom r l)
    (hv : l.valid = true) (hop : l.opcode = some op) (hval : ∀ g ∈ srcFields op, l.value g = q.readReg (l.field g)) :
    q.issuedAlone op (fetchedLatch true l.pc r) = l := by
  have hsource : ∀ g, q.sourceValue op (fetchedLatch true l.pc r) g = l.value g := fun g => by
    unfold State.sourceValue
    split
    · next hg => rw [hval g hg, h.record.field g]
    · next hg => exact (h.unread op hop g hg).symm
  have h1 : q.sourceValue op (fetchedLatch true l.pc r) .rs1 = l.rs1Value := hsource .rs1
  have h2 : q.sourceValue op (fetchedLatch true l.pc r) .rs2 = l.rs2Value := hsource .rs2
  have hzero : (fetchedLatch true l.pc r).resultBuffer = 0#32 ∧ (fetchedLatch true l.pc r).memoryAddress = 0#32 := by
    cases r <;> exact ⟨rfl, rfl⟩
  obtain ⟨hres, haddr⟩ := hzero
  have hrec := h.record
  unfold State.issuedAlone
  rw [h1, h2, hres, ← h.result, haddr, ← h.address, ← hrec.op, ← hrec.rd, ← hrec.rs1, ← hrec.rs2, ← hrec.imm,
    fetchedLatch_valid, fetchedLatch_pc, ← hv]

theorem State.DecodeFetched.of_backEnd {s u : State} (h : s.DecodeFetched) (hb : BackEndEffect s u) :
    u.DecodeFetched := by
  intro hv
  obtain ⟨hpc, -, hD, -⟩ := hb.front_of_decodeValid hv
  rw [hpc, hD, State.codeRead_congr hb.code]
  exact h (hD ▸ hv)

theorem State.DecodeFetched.of_decode {u v : State} (h : u.DecodeFetched) (hd : decodeStage u = .next v) :
    v.DecodeFetched := by
  intro hv
  have d := decodeStage_frame hd
  rcases decodeStage_cases hd with ⟨hD, ht⟩ | ⟨f, -, -, ht⟩ | ⟨op, -, -, -, ht⟩ | ⟨op, hD, hc, -, ht⟩
  · cases ht
    simp [hD] at hv
  · cases ht
  · cases ht
    simp at hv
  · obtain ⟨hpc, hfrom⟩ := h hD
    rw [State.codeRead_congr d.code, d.dRecord.pc, d.pc]
    cases ht
    exact ⟨hpc, hfrom.resolveOperands (checkDecode_ok_iff.1 hc).1⟩

theorem State.DecodeFetched.of_fetch {v : State} (h : v.DecodeFetched) : (fetchStage v).tick.DecodeFetched := by
  rcases fetchStage_cases v with ⟨-, hf⟩ | ⟨-, -, hf⟩ | ⟨-, -, -, hf⟩ | ⟨-, hF, -, hf⟩ <;> rw [hf]
  · exact h
  · exact h
  · exact h
  · intro _
    simp only [State.tick_pc, State.tick_D, handOff_pc, handOff_D, fillF_pc, fillF_F, hF, fetchedLatch_pc, true_and]
    exact fetchedFrom_fetchedLatch _ _

/-! ### The simulation -/

/-- What Decode sees has the drained state of the start of the cycle. -/
theorem ReachesDecode.drained {s u : State} (h : ReachesDecode s u) : u.drained = s.drained := by
  obtain ⟨-, -, s1, s2, h1, -, h2, h3⟩ := h
  rw [executeStage_drained h3 (memoryStage_frame h2).mEmpty, memoryStage_drained h2 (writebackStage_frame h1).wEmpty,
    writebackStage_drained h1]

/-- Behind a HALT in flight Decode sees nothing, so the drained state of a cycle that issues is not halted. -/
theorem drained_running {s u : State} (hI : s.Inv) (hb : BackEndEffect s u) (hD : u.D.valid = true) :
    u.drained.halted = false := by
  obtain ⟨-, -, hDs, -⟩ := hb.front_of_decodeValid hD
  have hsD : s.D.valid = true := hDs ▸ hD
  have hM : ¬ u.M.holdsHalt := fun hh => by
    obtain ⟨-, hD'⟩ := hI.haltInExecute (hb.toM.holdsHalt hh)
    simp [hsD] at hD'
  have hW : ¬ u.W.holdsHalt := fun hh => by
    obtain ⟨-, hD', -⟩ := hI.haltInMemory (hb.toW.holdsHalt hh)
    simp [hsD] at hD'
  simp_all [State.drained, hb.halted, Latch.isHalt, Latch.holdsHalt, hb.eEmpty]

/-- The operand that Decode takes is the register's value once the instructions ahead have retired. -/
theorem readFrom_drained {u : State} {r : RegIndex} (hE : u.E.valid = false) (hM : u.M.legal) (hW : u.W.legal)
    (hblock : u.forward r ≠ .block) : readFrom u.drained.regs r = u.operand r := by
  have hacc : u.M.PassedTo (u.M.accessed u.dmem) := ⟨(u.M.accessed_keeps _).2, fun _ => (u.M.accessed_keeps _).1⟩
  have hblockM : forwardFromM u.M r ≠ some .block := fun h => hblock (by simp [State.forward, h])
  rw [State.drained, Latch.finished_of_invalid (Latch.executed_valid_of_invalid hE)]
  exact readFrom_committed_eq_operand (hacc.legal hM) hW (forwardFromW_accessed hblockM _) hblock

/-- An issue in the pipeline is a step of the sequential reference from the drained state. -/
theorem seqStep_of_issued {s u v q : State} {op : Opcode} (hI : s.Inv) (hu : ReachesDecode s u)
    (hfetched : u.DecodeFetched) (hD : u.D.valid = true) (hc : checkDecode u.D = .ok op)
    (hready : (u.resolveOperands (srcFields op)).2 = true) (hd : decodeStage u = .next v)
    (hv : v = issue op (u.resolveOperands (srcFields op)).1) (hq : q.arch = u.drained)
    (hok : v.E.executed.accessOk) :
    ∃ q', seqStep q = .next q' ∧ q'.arch = v.drained ∧ q'.completed = q.completed + 1 := by
  have hb := hu.effect
  have hrun : q.halted = false := (congrArg Arch.halted hq).trans (drained_running hI hb hD)
  obtain ⟨hpc, hfrom⟩ := hfetched hD
  have hop := (checkDecode_ok_iff.1 hc).1
  have hvE : v.E = (u.resolveOperands (srcFields op)).1.D := by rw [hv, issue_E]
  have hvEv : v.E.valid = true := by rw [hvE, State.resolveOperands_D_valid, hD]
  have hqregs : q.regs = u.drained.regs := congrArg Arch.regs hq
  have hrec : u.D.SameRecord v.E := hvE ▸ u.resolveOperands_D (srcFields op)
  -- the reference fetches what stands in `D`
  have hqpc : q.pc = v.E.pc := by
    rw [hrec.pc]
    calc q.pc = u.nextIssue := congrArg Arch.pc hq
      _ = u.D.pc := by rw [State.nextIssue, State.transfer_of_invalid hb.eEmpty, hD]; rfl
  have hfromE : FetchedFrom (q.codeRead q.pc) v.E := by
    rw [hqpc, hrec.pc, State.codeRead_congr (s := u) (congrArg Arch.code hq), hvE]
    exact hfrom.resolveOperands hop
  have hcq : checkDecode (fetchedLatch true v.E.pc (q.codeRead q.pc)) = .ok op := by
    rw [← checkDecode_congr hfromE.record, checkDecode_congr hrec, hc]
  -- and reads the operands that Decode takes
  have hval : ∀ g ∈ srcFields op, v.E.value g = q.readReg (v.E.field g) := fun g hg => by
    rw [hrec.field, State.readReg_eq_readFrom, hqregs,
      readFrom_drained hb.eEmpty (hb.toM.legal hI.executeLegal) (hb.toW.legal hI.memoryLegal)
        ((hu.ready_iff hI _).1 hready g hg), hvE]
    exact State.resolveOperands_value (rd_not_mem_srcFields op) hready hg
  have hissued := hfromE.eq_issuedAlone hvEv (hrec.opcode.trans hop) hval
  rw [← hqpc] at hissued hcq
  obtain ⟨q', hq', harch⟩ := seqStep_retires hrun hcq hissued hok
  refine ⟨q', hq', ?_, congrArg Arch.completed harch⟩
  rw [harch, hq, drained_of_issued hd hb.eEmpty (by rw [hv]; rfl) hvEv (by rw [hpc, hrec.pc])]

/-- A run that reaches HALT has made every access of what was in `M` or `E` before it, so no address check failed. -/
theorem accessOk_of_run {n : Nat} {s t : State} (hI : s.Inv) (h : Host.Core.run core n s = .next t)
    (hh : t.halted = true) : s.M.accessOk ∧ s.E.executed.accessOk := by
  have hempty : ∀ {s : State}, s.E.valid = false → s.M.valid = false → s.M.accessOk ∧ s.E.executed.accessOk :=
    fun hE hM => ⟨Latch.accessOk_of_invalid hM, Latch.accessOk_of_invalid (Latch.executed_valid_of_invalid hE)⟩
  induction n generalizing s with
  | zero =>
    cases h
    obtain ⟨-, -, hE, hM, -⟩ := hI.haltedEmpty hh
    exact hempty hE hM
  | succ n ih =>
    obtain ⟨s', hs, hr⟩ := run_succ_eq_next.1 h
    obtain ⟨hM', -⟩ := ih (everyStepKeepsTheInvariant s s' hI hs) hr
    obtain ⟨-, ⟨hhalted, -⟩ | ⟨hrun, s1, h1, hh1, -⟩ | ⟨-, s1, s2, u, v, h1, -, h2, h3, hd, rfl⟩⟩ := step_cases hs
    · obtain ⟨-, -, hE, hM, -⟩ := hI.haltedEmpty hhalted
      exact hempty hE hM
    · obtain ⟨-, -, hE, hM⟩ := hI.empty_of_halting hrun h1 hh1
      exact hempty hE hM
    · have w := writebackStage_frame h1
      have hE2 : s2.E = s.E := (memoryStage_frame h2).E.trans w.E
      obtain ⟨-, -, hMok⟩ := memoryStage_accessed h2
      refine ⟨w.M ▸ hMok, ?_⟩
      cases hv : s.E.valid with
      | false => exact Latch.accessOk_of_invalid (Latch.executed_valid_of_invalid hv)
      | true =>
        have hM : (fetchStage v).tick.M = s.E.executed := by
          rw [(frontEnd_frame hd).M, ← hE2]
          exact (executeStage_executed h3).1 (hE2 ▸ hv)
        exact hM ▸ hM'

/-- A step of the pipeline is no step or one step of the sequential reference on the drained state. -/
theorem step_simulates {s t q : State} (hI : s.Inv) (hfetched : s.DecodeFetched) (h : step s = .next t)
    (hok : t.E.executed.accessOk) (hq : q.arch = s.drained) :
    t.DecodeFetched ∧ (q.arch = t.drained ∨
      ∃ q', seqStep q = .next q' ∧ q'.arch = t.drained ∧ q'.completed = q.completed + 1) := by
  rcases step_reaches h with ⟨-, rfl⟩ | ⟨hrun, s1, h1, hh1, rfl⟩ | ⟨u, v, hu, hd, rfl⟩
  · exact ⟨hfetched, .inl hq⟩
  · have w := writebackStage_frame h1
    obtain ⟨-, hD, -⟩ := hI.empty_of_halting hrun h1 hh1
    refine ⟨fun hv => ?_, .inl (hq.trans (writebackStage_drained h1).symm)⟩
    simp [w.D, hD] at hv
  · have hb := hu.effect
    have hfu := hfetched.of_backEnd hb
    rw [← hu.drained] at hq
    refine ⟨(hfu.of_decode hd).of_fetch, ?_⟩
    rcases decodeStage_cases hd with ⟨hD, hv⟩ | ⟨f, -, -, hv⟩ | ⟨op, hD, hc, hr, hv⟩ | ⟨op, hD, hc, hr, hv⟩
    · have hkeeps : v.E = u.E ∧ v.D = u.D := by cases hv; exact ⟨rfl, rfl⟩
      have hvD : v.D.valid = false := hkeeps.2 ▸ hD
      rw [fetchStage_drained fun _ => hvD, drained_of_not_issued hd hkeeps.1 (congrArg Latch.valid hkeeps.2)]
      exact .inl hq
    · cases hv
    · have hveq : v = issue op (u.resolveOperands (srcFields op)).1 := by cases hv; rfl
      rw [State.tick_E, (fetchStage_frame v).E] at hok
      have hstep := seqStep_of_issued hI hu hfu hD hc hr hd hveq hq hok
      rw [fetchStage_drained fun _ => by rw [hveq]; rfl]
      exact .inr hstep
    · have hvD : v.stallPipeline = true := by cases hv; rfl
      have hkeeps : v.E = u.E ∧ v.D.valid = u.D.valid := by cases hv; simp
      rw [fetchStage_drained fun hns => by simp [hvD] at hns, drained_of_not_issued hd hkeeps.1 hkeeps.2]
      exact .inl hq

theorem seqRun_succ {q q' : State} (h : seqStep q = .next q') (k : Nat) : seqRun (k + 1) q = seqRun k q' := by
  rw [seqRun, h, andThen_next]

/-- A run that reaches HALT ends in the state of as many sequential steps as instructions it has completed. -/
theorem run_refines {n : Nat} {s t q : State} (hI : s.Inv) (hfetched : s.DecodeFetched) (hq : q.arch = s.drained)
    (h : Host.Core.run core n s = .next t) (hh : t.halted = true) :
    ∃ k u, seqRun k q = .next u ∧ u.arch = t.arch ∧ t.completed = q.completed + k := by
  induction n generalizing s q with
  | zero =>
    cases h
    obtain ⟨-, hD, hE, hM, hW⟩ := hI.haltedEmpty hh
    rw [State.drained_of_empty hD hE hM hW] at hq
    exact ⟨0, q, rfl, hq, (congrArg Arch.completed hq).symm⟩
  | succ n ih =>
    obtain ⟨s', hs, hr⟩ := run_succ_eq_next.1 h
    have hI' := everyStepKeepsTheInvariant s s' hI hs
    obtain ⟨-, hok⟩ := accessOk_of_run hI' hr hh
    obtain ⟨hfetched', hsame | ⟨q', hstep, hq', hone⟩⟩ := step_simulates hI hfetched hs hok hq
    · exact ih hI' hfetched' hsame hr
    · obtain ⟨k, u, hk, hu, hcount⟩ := ih hI' hfetched' hq' hr
      refine ⟨k + 1, u, (seqRun_succ hstep k).trans hk, hu, ?_⟩
      omega

/-- Settles O54: the state after `init` is its own drained state, and so is a halted one. -/
theorem pipelineRefinesSequentialExecution : Obligations.PipelineRefinesSequentialExecution := by
  intro program s t n hinit h hh
  have hI := init_inv hinit
  have hs := init_eq_ok hinit
  have hD : s.D.valid = false := by rw [hs]; rfl
  obtain ⟨k, u, hk, harch, hcount⟩ := run_refines hI (fun hv => by simp [hD] at hv)
    (State.drained_of_empty hD (by rw [hs]; rfl) (by rw [hs]; rfl) (by rw [hs]; rfl)).symm h hh
  have hzero : s.completed = 0 := by rw [hs]; rfl
  rw [hzero, Nat.zero_add] at hcount
  exact ⟨u, hcount ▸ hk, (congrArg Arch.halted harch).trans hh, congrArg Arch.completed harch,
    congrArg Arch.regs harch, congrArg Arch.flags harch, congrArg Arch.dmem harch⟩

end Sys2Proof.Machine

/-! SUPPORT. One instruction of the table alone in the pipeline: its table entries, what it forwards, its three cycles with their
frame, and the statements about arithmetic, logic, compare, move and NOP that follow (41_alu.md). -/

namespace Sys2Proof.Machine

/-! ### The opcode table's entries -/

theorem ofNumber_number (op : Opcode) : Opcode.ofNumber op.number = some op := by
  cases op <;> rfl

/-- The first field that names no register is the one Decode reports (40_pipeline.md R142; 60_exceptions.md R248). -/
theorem checkDecode_of_badField {l : Latch} {op : Opcode} {f : Field} (hop : l.op = .number op.number)
    (hb : badField op l = some f) : checkDecode l = .error (.invalidRegisterIndex l.pc f (l.field f)) := by
  simp [checkDecode, hop, ofNumber_number, hb]

theorem exists_badField {l : Latch} {op : Opcode} (h : ∃ g ∈ op.format.fields, Config.nregs ≤ (l.field g).toNat) :
    ∃ f ∈ op.format.fields, badField op l = some f := by
  obtain ⟨g, hg, hbad⟩ := h
  have hsome : (badField op l).isSome = true :=
    List.find?_isSome.2 ⟨g, hg, by simpa [RegIndex.inRange] using hbad⟩
  obtain ⟨f, hf⟩ := Option.isSome_iff_exists.1 hsome
  exact ⟨f, List.mem_of_find?_eq_some hf, hf⟩

/-- Every instruction has the entries of its opcode, and Decode checks exactly the fields of its format. -/
theorem listedAs (i : Instr) :
    ListedAs i i.opcode.number i.opcode.format (srcFields i.opcode) (dstFields i.opcode) where
  hasNumber := rfl
  hasFormat := rfl
  sources := rfl
  destinations := rfl
  passes l hop hall := checkDecode_ok_iff.2 ⟨by simp [Latch.opcode, hop, ofNumber_number], hall⟩
  fails l hop h := by
    obtain ⟨f, hf, hb⟩ := exists_badField h
    exact ⟨f, hf, checkDecode_of_badField hop hb⟩

/-! ### Forwarding of a known instruction -/

/-- The `rd` of a latch is the one its instruction was written with. -/
theorem Latch.rd_of_instr {l : Latch} {i : Instr} (hi : l.instr = some i) (hf : Field.rd ∈ i.opcode.format.fields) :
    l.rd = i.toRecord.rd := by
  obtain ⟨-, hinstr, -⟩ := Latch.instr_eq_some.1 hi
  rw [hinstr, Opcode.toRecord_instr]
  simp [Record.mask, Format.usedRecord, hf]

/-- An instruction that does not block forwards from `W` what it forwards from `M` (40_pipeline.md R131, R132). -/
theorem Forwards.of_fromM {i : Instr} {answer : Latch → RegIndex → Option Forwarded}
    (hM : ∀ (l : Latch) (r : RegIndex), l.valid = true → l.instr = some i → forwardFromM l r = answer l r)
    (hb : ∀ l r, answer l r ≠ some .block) : Forwards i answer answer where
  inM := hM
  inW l r hv hi := by
    rw [← hM l r hv hi]
    exact forwardFromW_eq_forwardFromM (hM l r hv hi ▸ hb l r)

/-- Without a destination nothing is forwarded (40_pipeline.md R131, R132). -/
theorem forwards_nothing {i : Instr} (hd : dstFields i.opcode = []) : Forwards i nothing nothing := by
  refine .of_fromM (fun l r hv hi => ?_) fun _ _ => nofun
  have hop := Latch.opcode_of_instr hi
  generalize i.opcode = op at hd hop
  cases op <;> simp [dstFields] at hd <;> simp [forwardFromM, hv, hop, destRd, isLoad, nothing]

/-- A result that Memory does not load is forwarded for `rd` (40_pipeline.md R131, R132). -/
theorem forwards_result {i : Instr} (hd : dstFields i.opcode = [.rd]) (hl : isLoad i.opcode = false) :
    Forwards i (resultFor i.toRecord.rd) (resultFor i.toRecord.rd) := by
  refine .of_fromM (fun l r hv hi => ?_) fun l r => by simp [resultFor]
  have hop := Latch.opcode_of_instr hi
  rw [← Latch.rd_of_instr hi (dstFields_subset _ (hd ▸ List.mem_singleton_self _))]
  generalize i.opcode = op at hd hl hop
  cases op <;> simp [dstFields, isLoad] at hd hl <;>
    simp [forwardFromM, hv, hop, destRd, isLoad, resultFor, eq_comm (a := r)]

/-! ### Memory and Writeback of an instruction without an access or without a destination -/

theorem noDataAccess {i : Instr} (hl : isLoad i.opcode = false) (hs : isStore i.opcode = false) : NoDataAccess i := by
  intro s
  rcases memoryAccess_cases (i := i) (s := s) rfl with ⟨-, -, h⟩ | ⟨hl', -⟩ | ⟨hs', -⟩ | ⟨hls, -⟩
  · exact h
  · simp [hl] at hl'
  · simp [hs] at hs'
  · simp [hl, hs] at hls

/-- A data access keeps the record and the `valid` bit of its latch (40_pipeline.md R115). -/
theorem memoryAccess_record {i : Instr} {s t : State} (h : memoryAccess i s = .next t) :
    s.M.SameRecord t.M ∧ t.M.valid = s.M.valid := by
  rcases memoryAccess_cases h with ⟨-, -, e⟩ | ⟨-, -, e⟩ | ⟨-, -, e⟩ | ⟨-, -, e⟩ <;> cases e <;>
    exact ⟨⟨rfl, rfl, rfl, rfl, rfl, rfl⟩, rfl⟩

theorem commit_of_noDestination {i : Instr} (hd : dstFields i.opcode = []) (s : State) : commit i s = s := by
  cases i <;> simp [dstFields, Instr.opcode] at hd <;> rfl

theorem countedOnly {i : Instr} (hd : dstFields i.opcode = []) (hne : i ≠ .halt) : CountedOnly i := by
  intro s hv hi
  simp [writebackStage, hv, hi, commit_of_noDestination hd, retire, hne]

/-! ### Three cycles of an instruction alone, with their frame -/

/-- Three cycles of an instruction alone that makes no transfer and does not halt: it writes its destinations and nothing else,
each with the value that its latch forwards from `W` (40_pipeline.md R110, R132; 70_reset_and_hazards.md R279). -/
theorem InExecuteAlone.retiresWriting {i : Instr} {s u v : State} (h : InExecuteAlone i s)
    (hu : exec i { s with W := { s.W with valid := false } } = .next u) (hn : transferTarget i s.E s.flags = none)
    (hv : memoryAccess i ({ passToM u with stallPipeline := false } : State).tick = .next v) (hne : i ≠ .halt) :
    ∃ t : State, Host.Core.run core 3 s = .next t ∧ RetiredWriting ((dstFields i.opcode).map s.E.field) s t ∧
      (∀ r x, forwardFromW v.M r = some (.hit x) → t.readReg r = x) ∧
      (∀ f ∈ dstFields i.opcode, t.readBusy (s.E.field f) = false) ∧ t.flags = u.flags ∧ t.dmem = v.dmem := by
  obtain ⟨w, t, hregs, hbusy, hW, hrun, htregs, htbusy, hflags, hdmem, hpc, hhalted, hretired⟩ := h.retires hu hn hv hne
  have fr := exec_frame hu
  obtain ⟨hrecM, hvalidM⟩ := memoryAccess_record hv
  have hrec : s.E.SameRecord w.W := hW ▸ fr.record.trans hrecM
  have hWv : w.W.valid = true := by rw [hW, hvalidM]; exact fr.valid.trans h.valid
  have hWi : w.W.instr = some i := hrec.instr.trans h.holds
  have hother : ∀ r, r ∉ (dstFields i.opcode).map s.E.field →
      (commit i w).readReg r = w.readReg r ∧ (commit i w).readBusy r = w.readBusy r := by
    refine fun r hr => commit_other hWv hWi (Bool.eq_false_iff.2 fun hw => hr ?_)
    obtain ⟨-, f, hf, hfr⟩ := (Latch.writes_iff (Latch.opcode_of_instr hWi) r).1 hw
    exact List.mem_map.2 ⟨f, hf, (hrec.field f).symm.trans hfr⟩
  refine ⟨t, hrun, ⟨fun r hr => ?_, fun r hr => ?_, hpc, hhalted, hretired⟩, fun r x hx => ?_, fun f hf => ?_, hflags, hdmem⟩
  · rw [State.readReg_congr htregs, (hother r hr).1, State.readReg_congr hregs]
  · rw [State.readBusy_congr htbusy, (hother r hr).2, State.readBusy_congr hbusy]
  · rw [State.readReg_congr htregs, commit_readReg hWv hWi, hW, hx, Option.getD_some, Forwarded.valueOr_hit]
  · rw [State.readBusy_congr htbusy, ← hrec.field f]
    exact commit_clears hWi hf

/-- An instruction of 41_alu.md: no data access, no transfer, no end of the run (R160). -/
structure StaysInBackEnd (i : Instr) : Prop where
  notLoad : isLoad i.opcode = false
  notStore : isStore i.opcode = false
  noTransfer : ∀ l f, transferTarget i l f = none
  notHalt : i ≠ .halt

theorem staysInBackEnd_of_isFlagOp {i : Instr} (h : isFlagOp i.opcode = true) : StaysInBackEnd i := by
  cases i <;> simp [isFlagOp, Instr.opcode] at h <;> exact ⟨rfl, rfl, fun _ _ => rfl, nofun⟩

theorem StaysInBackEnd.noDataAccess {i : Instr} (hi : StaysInBackEnd i) : NoDataAccess i :=
  Machine.noDataAccess hi.notLoad hi.notStore

section Alone

variable {i : Instr} {s u : State}

/-- Alone in the pipeline, an instruction without an access leaves the data memory as it was. -/
theorem InExecuteAlone.retires_noAccess (h : InExecuteAlone i s) (hi : StaysInBackEnd i)
    (hu : exec i { s with W := { s.W with valid := false } } = .next u) :
    ∃ t : State, Host.Core.run core 3 s = .next t ∧ RetiredWriting ((dstFields i.opcode).map s.E.field) s t ∧
      (∀ r x, forwardFromW u.E r = some (.hit x) → t.readReg r = x) ∧
      (∀ f ∈ dstFields i.opcode, t.readBusy (s.E.field f) = false) ∧ t.flags = u.flags ∧ DataUnchanged s t := by
  obtain ⟨t, hrun, hframe, hvalue, hclear, hflags, hdmem⟩ :=
    h.retiresWriting hu (hi.noTransfer _ _) (hi.noDataAccess _) hi.notHalt
  have hsame : t.dmem = s.dmem := hdmem.trans (exec_frame hu).dmem
  exact ⟨t, hrun, hframe, hvalue, hclear, hflags, fun a => by rw [State.memRead, hsame, State.memRead]⟩

theorem InExecuteAlone.retires_nothing (h : InExecuteAlone i s) (hi : StaysInBackEnd i) (hd : dstFields i.opcode = [])
    (hu : exec i { s with W := { s.W with valid := false } } = .next u) :
    ∃ t : State, Host.Core.run core 3 s = .next t ∧ RetiredWriting [] s t ∧ t.flags = u.flags ∧ DataUnchanged s t := by
  obtain ⟨t, hrun, hframe, -, -, hflags, hdata⟩ := h.retires_noAccess hi hu
  rw [hd] at hframe
  exact ⟨t, hrun, hframe, hflags, hdata⟩

theorem InExecuteAlone.retires_result (h : InExecuteAlone i s) (hi : StaysInBackEnd i)
    (hd : dstFields i.opcode = [.rd]) (hu : exec i { s with W := { s.W with valid := false } } = .next u) :
    ∃ t : State, Host.Core.run core 3 s = .next t ∧ RegisterWritten i.toRecord.rd u.E.resultBuffer t ∧
      RetiredWriting [i.toRecord.rd] s t ∧ t.flags = u.flags ∧ DataUnchanged s t := by
  obtain ⟨t, hrun, hframe, hvalue, hclear, hflags, hdata⟩ := h.retires_noAccess hi hu
  have hmem : Field.rd ∈ dstFields i.opcode := hd ▸ List.mem_singleton_self _
  have hrd : s.E.rd = i.toRecord.rd := Latch.rd_of_instr h.holds (dstFields_subset _ hmem)
  have fr := exec_frame hu
  have hforward := forwardFromW_rd (fr.valid.trans h.valid)
    (Latch.opcode_of_instr (fr.record.instr.trans h.holds)) hmem
  rw [hd] at hframe
  rw [← hrd]
  exact ⟨t, hrun, ⟨hvalue _ _ (fr.record.rd ▸ hforward), hclear _ hmem⟩, hframe, hflags, hdata⟩

end Alone

/-! ### The two kinds of flag-writing instructions -/

/-- A flag-writing instruction with destination `rd`, from what its Execute computes of `E`. -/
theorem writesResultAndFlags {i : Instr} (value : Latch → Word) (hflag : isFlagOp i.opcode = true)
    (hd : dstFields i.opcode = [.rd]) (hexec : ∀ s, exec i s = .next (afterFlagResult (value s.E) s)) :
    WritesResultAndFlags i i.toRecord.rd fun s => value s.E := by
  have hi := staysInBackEnd_of_isFlagOp hflag
  refine ⟨hi.noDataAccess, forwards_result hd hi.notLoad, hexec, fun s h => ?_⟩
  obtain ⟨t, hrun, hwritten, hframe, hflags, hdata⟩ := h.retires_result hi hd (hexec _)
  exact ⟨t, hrun, hwritten, hframe, hflags ▸ flagsDescribe_flagsOf _, hdata⟩

/-- A flag-writing instruction without a destination, from what its Execute computes of `E`. -/
theorem writesFlagsOnly {i : Instr} (value : Latch → Word) (hflag : isFlagOp i.opcode = true)
    (hd : dstFields i.opcode = []) (hexec : ∀ s, exec i s = .next (afterFlags (value s.E) s)) :
    WritesFlagsOnly i fun s => value s.E := by
  have hi := staysInBackEnd_of_isFlagOp hflag
  refine ⟨hi.noDataAccess, forwards_nothing hd, hexec, fun s h => ?_⟩
  obtain ⟨t, hrun, hframe, hflags, hdata⟩ := h.retires_nothing hi hd (hexec _)
  exact ⟨t, hrun, hframe, hflags ▸ flagsDescribe_flagsOf _, hdata⟩

/-- Settles O11: each of the six computes its value of the operands in `E` (MUL's low word is the product of words). -/
theorem registerArithmeticAndLogic : Obligations.RegisterArithmeticAndLogic := fun rd rs1 rs2 =>
  ⟨⟨listedAs (.add rd rs1 rs2), writesResultAndFlags (fun e => e.rs1Value + e.rs2Value) rfl rfl fun _ => rfl⟩,
    ⟨listedAs (.sub rd rs1 rs2), writesResultAndFlags (fun e => e.rs1Value - e.rs2Value) rfl rfl fun _ => rfl⟩,
    ⟨listedAs (.mul rd rs1 rs2), writesResultAndFlags
      (fun e => BitVec.ofNat 32 (e.rs1Value.toNat * e.rs2Value.toNat)) rfl rfl fun _ => rfl⟩,
    ⟨listedAs (.and rd rs1 rs2), writesResultAndFlags (fun e => e.rs1Value &&& e.rs2Value) rfl rfl fun _ => rfl⟩,
    ⟨listedAs (.or rd rs1 rs2), writesResultAndFlags (fun e => e.rs1Value ||| e.rs2Value) rfl rfl fun _ => rfl⟩,
    ⟨listedAs (.xor rd rs1 rs2), writesResultAndFlags (fun e => e.rs1Value ^^^ e.rs2Value) rfl rfl fun _ => rfl⟩⟩

/-- Settles O12: as O11, with the immediate for the second operand. -/
theorem immediateArithmetic : Obligations.ImmediateArithmetic := fun rd rs1 imm =>
  ⟨⟨listedAs (.addl rd rs1 imm), writesResultAndFlags (fun e => e.rs1Value + imm) rfl rfl fun _ => rfl⟩,
    ⟨listedAs (.subl rd rs1 imm), writesResultAndFlags (fun e => e.rs1Value - imm) rfl rfl fun _ => rfl⟩⟩

/-- Settles O13: both compare by a difference of words, and neither has a destination. -/
theorem comparesWriteFlagsOnly : Obligations.ComparesWriteFlagsOnly :=
  ⟨fun rs1 rs2 => ⟨listedAs (.cmp rs1 rs2),
      writesFlagsOnly (fun e => e.rs1Value - e.rs2Value) rfl rfl fun _ => rfl⟩,
    fun rs1 imm => ⟨listedAs (.cml rs1 imm), writesFlagsOnly (fun e => e.rs1Value - imm) rfl rfl fun _ => rfl⟩⟩

/-- Settles O14: MOVC is a result without flags, NOP neither. -/
theorem moveConstantAndNop : Obligations.MoveConstantAndNop := by
  constructor
  · intro rd imm
    have hi : StaysInBackEnd (.movc rd imm) := ⟨rfl, rfl, fun _ _ => rfl, nofun⟩
    exact ⟨listedAs _, hi.noDataAccess, forwards_result rfl rfl, fun _ => rfl, fun s h => h.retires_result hi rfl rfl⟩
  · have hi : StaysInBackEnd .nop := ⟨rfl, rfl, fun _ _ => rfl, nofun⟩
    exact ⟨listedAs _, hi.noDataAccess, forwards_nothing rfl, countedOnly rfl nofun, fun _ => rfl,
      fun s h => h.retires_nothing (u := { s with W := { s.W with valid := false } }) hi rfl rfl⟩

end Sys2Proof.Machine

/-! SUPPORT. The four memory instructions: what each forwards, its three cycles alone in the pipeline or its fault in the
second, and the statements about them that follow (42_loadstore.md sections 1 and 2). -/

namespace Sys2Proof

/-- A register field of a record by its name, as `Latch.field` is of a latch (30_encoding.md R70). -/
def Record.field (r : Record) : Field → RegIndex
  | .rd => r.rd
  | .rs1 => r.rs1
  | .rs2 => r.rs2

end Sys2Proof

namespace Sys2Proof.Machine

/-! ### The register fields of a known instruction -/

/-- A used register field of a latch is the one its instruction was written with. -/
theorem Latch.field_of_instr {l : Latch} {i : Instr} (hi : l.instr = some i) {f : Field}
    (hf : f ∈ i.opcode.format.fields) : l.field f = i.toRecord.field f := by
  obtain ⟨-, hinstr, -⟩ := Latch.instr_eq_some.1 hi
  rw [hinstr, Opcode.toRecord_instr]
  cases f <;> simp [Latch.field, Record.field, Record.mask, Format.usedRecord, hf]

/-! ### What the four forward -/

/-- From `M` a load blocks its `rd`, because Memory has not read the word yet (40_pipeline.md R131, R132). -/
theorem forwards_load (rd rs1 : RegIndex) (imm : Word) :
    Forwards (.load rd rs1 imm) (fun _ r => if r = rd then some .block else none) (resultFor rd) where
  inM l r hv hi := by
    have hrd : l.rd = rd := Latch.field_of_instr hi (f := .rd) List.mem_cons_self
    simp [forwardFromM, hv, Latch.opcode_of_instr hi, Instr.opcode, destRd, isLoad, hrd, eq_comm (a := r)]
  inW l r hv hi := by
    have hrd : l.rd = rd := Latch.field_of_instr hi (f := .rd) List.mem_cons_self
    simp [forwardFromW, hv, Latch.opcode_of_instr hi, Instr.opcode, destRd, resultFor, hrd, eq_comm (a := r)]

/-- LOADP's incremented base is ready in both latches, and its `rd` is tested first (40_pipeline.md R111, R131, R132). -/
theorem forwards_loadp (rd rs1 : RegIndex) (imm : Word) :
    Forwards (.loadp rd rs1 imm)
      (fun l r => if r = rd then some .block else if r = rs1 then some (.hit l.rs1Value) else none)
      (fun l r => if r = rd then some (.hit l.resultBuffer) else if r = rs1 then some (.hit l.rs1Value) else none) where
  inM l r hv hi := by
    have hrd : l.rd = rd := Latch.field_of_instr hi (f := .rd) List.mem_cons_self
    have hrs1 : l.rs1 = rs1 := Latch.field_of_instr hi (f := .rs1) (List.mem_cons_of_mem _ List.mem_cons_self)
    simp [forwardFromM, hv, Latch.opcode_of_instr hi, Instr.opcode, destRd, isLoad, hrd, hrs1, eq_comm (a := r)]
  inW l r hv hi := by
    have hrd : l.rd = rd := Latch.field_of_instr hi (f := .rd) List.mem_cons_self
    have hrs1 : l.rs1 = rs1 := Latch.field_of_instr hi (f := .rs1) (List.mem_cons_of_mem _ List.mem_cons_self)
    simp [forwardFromW, hv, Latch.opcode_of_instr hi, Instr.opcode, destRd, hrd, hrs1, eq_comm (a := r)]

theorem forwards_storep (rs1 rs2 : RegIndex) (imm : Word) :
    Forwards (.storep rs1 rs2 imm) (fun l r => if r = rs2 then some (.hit l.rs2Value) else none)
      (fun l r => if r = rs2 then some (.hit l.rs2Value) else none) := by
  refine .of_fromM (fun l r hv hi => ?_) fun l r => by simp
  have hrs2 : l.rs2 = rs2 := Latch.field_of_instr hi (f := .rs2) (List.mem_cons_of_mem _ List.mem_cons_self)
  simp [forwardFromM, hv, Latch.opcode_of_instr hi, Instr.opcode, destRd, isLoad, hrs2, eq_comm (a := r)]

/-! ### The access -/

theorem dataAddressOk_iff {a : Word} : dataAddressOk a = true ↔ 0 ≤ a.toInt ∧ a.toInt < Config.dmemSize := by
  simp [dataAddressOk]

/-- Every cell number below `DMEM_SIZE` is a legal data address (40_pipeline.md R117). -/
theorem dataAddressOk_of_toNat_lt {a : Word} (h : a.toNat < Config.dmemSize) : dataAddressOk a = true := by
  have hsize : Config.dmemSize = 4096 := rfl
  rw [dataAddressOk_iff, BitVec.toInt_eq_toNat_of_lt (by omega)]
  omega

theorem memoryAccess_next_of_ok {i : Instr} {s : State} (hok : dataAddressOk s.M.memoryAddress = true) :
    ∃ t, memoryAccess i s = .next t := by
  rcases memoryAccess_cases (i := i) (s := s) rfl with ⟨-, -, h⟩ | ⟨-, -, h⟩ | ⟨-, -, h⟩ | ⟨-, hbad, -⟩
  · exact ⟨_, h⟩
  · exact ⟨_, h⟩
  · exact ⟨_, h⟩
  · simp [hok] at hbad

/-- A memory instruction writes no flag, makes no transfer and does not end the run. -/
theorem straight_of_loadOrStore {i : Instr} (h : isLoad i.opcode = true ∨ isStore i.opcode = true) :
    isFlagOp i.opcode = false ∧ (∀ l f, transferTarget i l f = none) ∧ i ≠ .halt := by
  cases i <;> simp [isLoad, isStore, Instr.opcode] at h <;> exact ⟨rfl, fun _ _ => rfl, nofun⟩

/-! ### The three cycles of a memory instruction alone -/

section Alone

variable {i : Instr} {s u : State}

/-- Alone in the pipeline, a memory instruction whose address passes the check: `v` is the state after the access, and each
destination ends with the value that the latch of `v` forwards for it (40_pipeline.md R110, R115). -/
theorem InExecuteAlone.retires_access (h : InExecuteAlone i s) (hls : isLoad i.opcode = true ∨ isStore i.opcode = true)
    (hu : exec i { s with W := { s.W with valid := false } } = .next u)
    (hok : dataAddressOk u.E.memoryAddress = true) :
    ∃ v t : State, memoryAccess i ({ passToM u with stallPipeline := false } : State).tick = .next v ∧
      Host.Core.run core 3 s = .next t ∧ RetiredWriting ((dstFields i.opcode).map s.E.field) s t ∧
      (∀ f ∈ dstFields i.opcode, ∀ x, forwardFromW v.M (s.E.field f) = some (.hit x) →
        RegisterWritten (s.E.field f) x t) ∧ t.flags = s.flags ∧ t.dmem = v.dmem := by
  obtain ⟨hnoflag, hnotransfer, hnothalt⟩ := straight_of_loadOrStore hls
  obtain ⟨v, hv⟩ := memoryAccess_next_of_ok (i := i) (s := ({ passToM u with stallPipeline := false } : State).tick) hok
  obtain ⟨t, hrun, hframe, hvalue, hclear, hflags, hdmem⟩ := h.retiresWriting hu (hnotransfer _ _) hv hnothalt
  refine ⟨v, t, hv, hrun, hframe, fun f hf x hx => ⟨hvalue _ x hx, hclear f hf⟩, hflags.trans ?_, hdmem⟩
  rcases exec_flags hu with ⟨hflag, -⟩ | ⟨-, hsame⟩
  · simp [hnoflag] at hflag
  · exact hsame

/-- A load: its latch forwards the word of the cell, and no cell changes (42_loadstore.md R191, R193). -/
theorem InExecuteAlone.retires_load (h : InExecuteAlone i s) (hl : isLoad i.opcode = true)
    (hu : exec i { s with W := { s.W with valid := false } } = .next u)
    (hok : dataAddressOk u.E.memoryAddress = true) :
    ∃ t : State, Host.Core.run core 3 s = .next t ∧ RetiredWriting ((dstFields i.opcode).map s.E.field) s t ∧
      (∀ f ∈ dstFields i.opcode, ∀ x,
        forwardFromW { u.E with resultBuffer := s.memRead u.E.memoryAddress } (s.E.field f) = some (.hit x) →
        RegisterWritten (s.E.field f) x t) ∧ t.flags = s.flags ∧ DataUnchanged s t := by
  obtain ⟨v, t, hv, hrun, hframe, hwritten, hflags, hdmem⟩ := h.retires_access (.inl hl) hu hok
  have fr := exec_frame hu
  cases memoryAccess_of_isLoad hv hl
  refine ⟨t, hrun, hframe, fun f hf x hx => hwritten f hf x ?_, hflags, State.memRead_congr (hdmem.trans fr.dmem)⟩
  rw [← hx]
  simp [State.memRead, fr.dmem]

/-- A store: its one cell takes the latch's `rs1_value` (42_loadstore.md R192, R194; 40_pipeline.md R116). -/
theorem InExecuteAlone.retires_store (h : InExecuteAlone i s) (hs : isStore i.opcode = true) (hw : Memory.wf s.dmem = true)
    (hu : exec i { s with W := { s.W with valid := false } } = .next u)
    (hok : dataAddressOk u.E.memoryAddress = true) :
    ∃ t : State, Host.Core.run core 3 s = .next t ∧ RetiredWriting ((dstFields i.opcode).map s.E.field) s t ∧
      (∀ f ∈ dstFields i.opcode, ∀ x, forwardFromW u.E (s.E.field f) = some (.hit x) →
        RegisterWritten (s.E.field f) x t) ∧ t.flags = s.flags ∧ DataStored u.E.memoryAddress u.E.rs1Value s t := by
  obtain ⟨v, t, hv, hrun, hframe, hwritten, hflags, hdmem⟩ := h.retires_access (.inr hs) hu hok
  have fr := exec_frame hu
  cases memoryAccess_of_isStore hv hs
  have hread : ∀ a, t.memRead a = (s.memWrite u.E.memoryAddress u.E.rs1Value).memRead a :=
    State.memRead_congr (by rw [hdmem]; simp [State.memWrite, fr.dmem])
  exact ⟨t, hrun, hframe, hwritten, hflags, (hread _).trans (State.memRead_memWrite_same hw _ _),
    fun b hb => (hread b).trans (s.memRead_memWrite_other _ hb)⟩

/-- Alone in the pipeline, a memory instruction whose address fails the check ends the run in its Memory cycle
(40_pipeline.md R117; 60_exceptions.md R244). -/
theorem InExecuteAlone.faults (h : InExecuteAlone i s) (hls : isLoad i.opcode = true ∨ isStore i.opcode = true)
    (hu : exec i { s with W := { s.W with valid := false } } = .next u)
    (hbad : ¬(0 ≤ u.E.memoryAddress.toInt ∧ u.E.memoryAddress.toInt < Config.dmemSize)) :
    Host.Core.run core 2 s = .fault (.invalidMemoryAddress s.E.pc u.E.memoryAddress) := by
  have fr := exec_frame hu
  obtain ⟨-, hnotransfer, -⟩ := straight_of_loadOrStore hls
  have hst := step_execute_only h.frontEmpty h.writebackEmpty h.memoryEmpty h.valid h.holds hu (hnotransfer _ _)
  have hfault := dataAddressOutOfRangeFaults ({ passToM u with stallPipeline := false } : State).tick _ i
    (fr.faulted.trans h.notFaulted) (fr.halted.trans h.running)
    (writebackStage_empty (congrArg Latch.valid fr.W)) (fr.halted.trans h.running)
    (fr.valid.trans h.valid) (fr.record.instr.trans h.holds) hls hbad
  rw [run_succ_next hst, run_succ_fault hfault]
  exact congrArg (fun pc => Host.Outcome.fault (Fault.invalidMemoryAddress pc u.E.memoryAddress)) fr.record.pc

end Alone

/-- Settles O15: the word of the cell is the result that `W` forwards for `rd`. -/
theorem loadReadsTheAddressedCell : Obligations.LoadReadsTheAddressedCell := by
  refine fun rd rs1 imm => ⟨listedAs _, forwards_load rd rs1 imm, fun _ => rfl, fun s h =>
    ⟨fun hok => ?_, fun hbad => h.faults (.inl rfl) rfl hbad⟩⟩
  have hop := Latch.opcode_of_instr h.holds
  have hrd : s.E.rd = rd := Latch.field_of_instr h.holds (f := .rd) List.mem_cons_self
  obtain ⟨t, hrun, hframe, hwritten, hflags, hdata⟩ := h.retires_load rfl rfl (dataAddressOk_iff.2 hok)
  have hloaded := hwritten .rd List.mem_cons_self _ (forwardFromW_rd h.valid hop List.mem_cons_self)
  exact ⟨t, hrun, hrd ▸ hloaded, hrd ▸ hframe, hflags, hdata⟩

/-- Settles O16: STORE has no destination. -/
theorem storeWritesTheAddressedCell : Obligations.StoreWritesTheAddressedCell := by
  refine fun rs1 rs2 imm => ⟨listedAs _, forwards_nothing rfl, fun _ => rfl, fun s h hw =>
    ⟨fun hok => ?_, fun hbad => h.faults (.inr rfl) rfl hbad⟩⟩
  obtain ⟨t, hrun, hframe, -, hflags, hdata⟩ := h.retires_store rfl hw rfl (dataAddressOk_iff.2 hok)
  exact ⟨t, hrun, hdata, hframe, hflags⟩

/-- Settles O17: as O15, and `W` forwards the incremented base for `rs1` where `rd` does not come first. -/
theorem loadPostIncrementWritesBothRegisters : Obligations.LoadPostIncrementWritesBothRegisters := by
  refine fun rd rs1 imm => ⟨listedAs _, forwards_loadp rd rs1 imm, fun _ => rfl, fun s h =>
    ⟨fun hok => ?_, fun hbad => h.faults (.inl rfl) rfl hbad⟩⟩
  have hop := Latch.opcode_of_instr h.holds
  have hmem : Field.rs1 ∈ dstFields .loadp := by decide
  have hrd : s.E.rd = rd := Latch.field_of_instr h.holds (f := .rd) List.mem_cons_self
  have hrs1 : s.E.rs1 = rs1 := Latch.field_of_instr h.holds (dstFields_subset _ hmem)
  obtain ⟨t, hrun, hframe, hwritten, hflags, hdata⟩ := h.retires_load rfl rfl (dataAddressOk_iff.2 hok)
  have hloaded := hwritten .rd List.mem_cons_self _ (forwardFromW_rd h.valid hop List.mem_cons_self)
  have hbase := fun hne => hwritten .rs1 hmem _ (forwardFromW_rs1 h.valid hop hmem hne)
  exact ⟨t, hrun, hrd ▸ hloaded, fun hne => hrs1 ▸ hbase (hrs1 ▸ hrd ▸ hne), hrd ▸ hrs1 ▸ hframe, hflags, hdata⟩

/-- Settles O18: as O16, and `W` forwards the incremented base for `rs2`; the stored value is `rs1`'s, read before. -/
theorem storePostIncrementWritesCellAndBase : Obligations.StorePostIncrementWritesCellAndBase := by
  refine fun rs1 rs2 imm => ⟨listedAs _, forwards_storep rs1 rs2 imm, fun _ => rfl, fun s h hw =>
    ⟨fun hok => ?_, fun hbad => h.faults (.inr rfl) rfl hbad⟩⟩
  have hop := Latch.opcode_of_instr h.holds
  have hmem : Field.rs2 ∈ dstFields .storep := List.mem_cons_self
  have hrs2 : s.E.rs2 = rs2 := Latch.field_of_instr h.holds (dstFields_subset _ hmem)
  obtain ⟨t, hrun, hframe, hwritten, hflags, hdata⟩ := h.retires_store rfl hw rfl (dataAddressOk_iff.2 hok)
  have hbase := hwritten .rs2 hmem _ (forwardFromW_rs2 h.valid hop hmem)
  exact ⟨t, hrun, hdata, hrs2 ▸ hbase, hrs2 ▸ hframe, hflags⟩

end Sys2Proof.Machine

/-! SUPPORT. A run of STOREP in the sequential reference, and the statement about it (42_loadstore.md R195). -/

namespace Sys2Proof.Machine

/-! ### One STOREP in the sequential reference -/

section Storep

variable {l : Latch} {rv rb : RegIndex} {imm : Word}

/-- What Execute makes of a STOREP: its address, and the base after the increment (42_loadstore.md R194). -/
theorem Latch.executed_storep (hi : l.instr = some (.storep rv rb imm)) :
    l.executed = { l with
      memoryAddress := effectiveAddress l.rs2Value imm, rs2Value := postIncremented l.rs2Value } :=
  executed_of_exec (s := { State.reset with E := l }) hi rfl

/-- What Memory and Writeback make of it: the cell holds `rs1`'s value, the base register the latch's `rs2_value`
(42_loadstore.md R194). -/
theorem Latch.finished_storep (hv : l.valid = true) (hi : l.instr = some (.storep rv rb imm))
    (a : Vector Word Config.nregs × List DataCell) :
    l.finished a = (a.1.setIfInBounds l.rs2.toNat l.rs2Value, cellWrite a.2 l.memoryAddress.toNat l.rs1Value) := by
  have hop := Latch.opcode_of_instr hi
  simp [Latch.finished, Latch.accessed, Latch.stored, Latch.committed, hv, hi, hop, Instr.opcode, isLoad, isStore, commit]

/-- What a STOREP does to the architectural state: its cell and its base, and nothing else but `pc` and the count
(42_loadstore.md R194). -/
theorem Arch.retire_storep (a : Arch) (hv : l.valid = true) (hi : l.instr = some (.storep rv rb imm)) :
    a.retire l = { a with
      regs := a.regs.setIfInBounds l.rs2.toNat (postIncremented l.rs2Value)
      dmem := cellWrite a.dmem (effectiveAddress l.rs2Value imm).toNat l.rs1Value
      pc := nextPc l.pc
      completed := a.completed + 1 } := by
  have hflags : l.flagsAfter a.flags = a.flags :=
    flagsAfter_of_exec (s := { State.reset with E := l, flags := a.flags }) hv hi rfl
  have htransfer : l.transfer a.flags = none := by simp [Latch.transfer, State.transfer, hv, hi, transferTarget]
  obtain ⟨hrec, hvalid⟩ := l.executed_keeps
  have hfinished := Latch.finished_storep (hvalid.trans hv) (hrec.instr.trans hi) (a.regs, a.dmem)
  have hexecuted := Latch.executed_storep hi
  rw [hexecuted] at hfinished
  simp [Arch.retire, hexecuted, hfinished, hflags, htransfer, Latch.isHalt, Latch.opcode_of_instr hi, Instr.opcode]

end Storep

/-- One STOREP of the sequential reference, as an equation of the architectural state (42_loadstore.md R194). -/
theorem seqStep_storep_arch {s : State} {rv rb : RegIndex} {imm : Word} (hrun : s.halted = false)
    (hw : (Instr.storep rv rb imm).wellFormed = true) (hread : s.codeRead s.pc = some (Instr.storep rv rb imm).toRecord)
    (hok : dataAddressOk (s.readReg rb + imm) = true) :
    ∃ t, seqStep s = .next t ∧ t.arch = { s.arch with
      regs := (s.writeReg rb (postIncremented (s.readReg rb))).regs
      dmem := (s.memWrite (s.readReg rb + imm) (s.readReg rv)).dmem
      pc := nextPc s.pc
      completed := s.completed + 1 } := by
  have hc := checkDecode_fetchedLatch (Instr.instr_toRecord (.storep rv rb imm)) hw true s.pc
  have hi := instr_fetchedLatch (Instr.instr_toRecord (.storep rv rb imm)) hw true s.pc
  generalize hl : s.issuedAlone .storep (fetchedLatch true s.pc (some (Instr.storep rv rb imm).toRecord)) = l
  have hli : l.instr = some (.storep rv rb imm) := hl ▸ hi
  have haddr : l.executed.memoryAddress = s.readReg rb + imm := by
    rw [Latch.executed_storep hli, ← hl]
    rfl
  obtain ⟨t, ht, harch⟩ := seqStep_retires (l := l) hrun (hread ▸ hc) (hread ▸ hl) fun _ _ _ _ => haddr ▸ hok
  refine ⟨t, ht, ?_⟩
  rw [harch, s.arch.retire_storep (hl ▸ rfl) hli, ← hl]
  rfl

/-- The same said of the registers and the cells: the cell at `R[rb] + imm` holds the word of `rv`, the base `rb` is
incremented, and nothing else has changed but `pc` and the count (42_loadstore.md R194). -/
structure StoredAndIncremented (rv rb : RegIndex) (imm : Word) (s t : State) : Prop where
  running : t.halted = false
  pc : t.pc = s.pc + 4#32
  code : t.code = s.code
  base : t.readReg rb = s.readReg rb + 4#32
  regs : RegsUnchangedExcept [rb] s t
  data : DataStored (s.readReg rb + imm) (s.readReg rv) s t
  memoryCanonical : Memory.wf t.dmem = true
  flags : t.flags = s.flags
  completed : t.completed = s.completed + 1

theorem seqStep_storep {s : State} {rv rb : RegIndex} {imm : Word} (hrv : rv.toNat < Config.nregs)
    (hrb : rb.toNat < Config.nregs) (hrun : s.halted = false) (hwf : Memory.wf s.dmem = true)
    (hread : s.codeRead s.pc = some (Instr.storep rv rb imm).toRecord)
    (hok : dataAddressOk (s.readReg rb + imm) = true) :
    ∃ t, seqStep s = .next t ∧ StoredAndIncremented rv rb imm s t := by
  have hw : (Instr.storep rv rb imm).wellFormed = true := by simp [Instr.wellFormed, RegIndex.inRange, hrv, hrb]
  obtain ⟨t, ht, harch⟩ := seqStep_storep_arch hrun hw hread hok
  have hreg : ∀ r, t.readReg r = if r = rb ∧ rb.toNat < Config.nregs then s.readReg rb + 4#32 else s.readReg r := fun r =>
    (State.readReg_congr (congrArg Arch.regs harch) r).trans (s.readReg_writeReg rb r _)
  have hdmem : t.dmem = (s.memWrite (s.readReg rb + imm) (s.readReg rv)).dmem := congrArg Arch.dmem harch
  exact ⟨t, ht,
    { running := (congrArg Arch.halted harch).trans hrun
      pc := congrArg Arch.pc harch
      code := congrArg Arch.code harch
      base := by rw [hreg, if_pos ⟨rfl, hrb⟩]
      regs := fun r hr => by rw [hreg, if_neg fun h => hr (List.mem_singleton.2 h.1)]
      data := ⟨(State.memRead_congr hdmem _).trans (State.memRead_memWrite_same hwf _ _),
        fun b hb => (State.memRead_congr hdmem b).trans (s.memRead_memWrite_other _ hb)⟩
      memoryCanonical := hdmem ▸ State.memWrite_wf hwf _ _
      flags := congrArg Arch.flags harch
      completed := congrArg Arch.completed harch }⟩

/-! ### A run of them -/

/-- Place `n` of the run that begins one step on is place `n + 1`. -/
theorem add_four_add (a : Word) (n : Nat) : a + 4#32 + BitVec.ofNat 32 (4 * n) = a + BitVec.ofNat 32 (4 * (n + 1)) := by
  rw [BitVec.add_assoc, ← BitVec.ofNat_add, Nat.mul_succ, Nat.add_comm]

/-- No later cell of a run that ends within the address space is its first one. -/
theorem ne_add_four_mul (a : Word) {n : Nat} (hn : 4 * (n + 1) < 2 ^ 32) : a ≠ a + BitVec.ofNat 32 (4 * (n + 1)) := by
  bv_omega

/-- Settles O49, by induction on `k`: the first STOREP writes the cell at the base, the others write the cells above it. -/
theorem postIncrementRunStepsThroughEveryFourthCell : Obligations.PostIncrementRunStepsThroughEveryFourthCell := by
  intro s k rv rb hne hrv hrb hrun hwf hcode hfit
  have hsize : Config.dmemSize = 4096 := rfl
  induction k generalizing s with
  | zero => exact ⟨s, rfl, by simp, nofun, fun _ _ => rfl, fun _ _ => rfl, rfl, rfl⟩
  | succ k ih =>
    have hread := hcode 0 (by omega)
    simp only [Nat.mul_zero, BitVec.add_zero] at hread
    obtain ⟨u, hu, h⟩ := seqStep_storep hrv hrb hrun hwf hread
      (dataAddressOk_of_toNat_lt (by rw [BitVec.add_zero]; omega))
    obtain ⟨hstored, hkept⟩ := h.data
    have hcode' : ∀ n, n < k → u.codeRead (u.pc + BitVec.ofNat 32 (4 * n)) = some (Instr.storep rv rb 0#32).toRecord :=
      fun n hn => by rw [State.codeRead_congr h.code, h.pc, add_four_add, hcode (n + 1) (by omega)]
    obtain ⟨t, ht, hbase, hcells, hother, hregs, hflags, hcount⟩ := ih u h.running h.memoryCanonical hcode'
      (by rw [h.base]; bv_omega)
    simp only [h.base, add_four_add, h.regs rv (by simpa using hne), BitVec.add_zero]
      at hbase hcells hother hstored hkept
    refine ⟨t, by rw [seqRun, hu, andThen_next, ht], hbase, fun n hn => ?_, fun a ha => ?_,
      fun r hr => (hregs r hr).trans (h.regs r hr), hflags.trans h.flags, by rw [hcount, h.completed]; omega⟩
    · cases n with
      | zero =>
        have hfirst := hother (s.readReg rb) fun n hn => ne_add_four_mul _ (by omega)
        simpa using hfirst.trans hstored
      | succ n => exact hcells n (by omega)
    · have ha0 : a ≠ s.readReg rb := by simpa using ha 0 (by omega)
      rw [hother a fun n hn => ha (n + 1) (by omega), hkept a ha0]

end Sys2Proof.Machine

/-! SUPPORT. Control transfers and HALT alone in the pipeline: the two cycles that bring the target to Decode, the third behind
it, and the statements about branches, JUMP, JALR, HALT and bad targets that follow (43_control.md). -/

namespace Sys2Proof.Machine

/-! ### The two cycles of a transfer alone -/

/-- The Execute cycle of a transfer alone: it passes to `M`, and Fetch consumes the redirect (40_pipeline.md R122, R145). -/
theorem InExecuteAlone.step_transfer {i : Instr} {target : Word} {s u : State} (h : InExecuteAlone i s)
    (hu : exec i { s with W := { s.W with valid := false } } = .next u)
    (htgt : transferTarget i s.E s.flags = some target) :
    step s = .next ({ passToM u with stallPipeline := false, fetchFromNextCycle := false } : State).tick := by
  have tr := exec_transfer hu
  simp only [htgt] at tr
  obtain ⟨-, hred, hD, -⟩ := tr
  rw [step_of_stages h.notFaulted h.running (writebackStage_empty h.writebackEmpty) h.running
    (memoryStage_empty h.memoryEmpty) (s3 := passToM u) (by simp [executeStage, h.valid, h.holds, hu])
    (decodeStage_empty (by simp [hD])), fetchStage, if_pos (by simp [hred])]

/-- With fetch on and nothing but an instruction without an access in `M`, that one moves to `W` and Fetch hands over the slot
at `pc` (40_pipeline.md R115, R145). -/
theorem step_passes_and_fetches {i : Instr} {s : State} (hf : s.faulted = none) (hrun : s.halted = false)
    (hW : s.W.valid = false) (hM : s.M.valid = true) (hi : s.M.instr = some i) (hl : isLoad i.opcode = false)
    (hs : isStore i.opcode = false) (hE : s.E.valid = false) (hD : s.D.valid = false) (hF : s.F.valid = true)
    (hr : s.fetchFromNextCycle = false) :
    step s = .next (handOff (fillF { passToW s with stallPipeline := false })).tick := by
  rw [step_of_stages hf hrun (writebackStage_empty hW) hrun (memoryStage_of_noAccess hM hi hl hs)
    (executeStage_idle (s := passToW s) hE rfl) (decodeStage_empty (s := passToW s) hD),
    fetchStage_handOff (v := { passToW s with stallPipeline := false }) hr hF rfl]

/-- The state `t` two cycles after a transfer to `target` was alone in Execute of `s`: Fetch has handed over what the code
memory holds at `target`, and the transfer `i` waits in `W`, in the latch `e` that Execute made (40_pipeline.md R154). -/
structure TransferAtWriteback (i : Instr) (e : Latch) (target : Word) (s t : State) : Prop where
  D : t.D = fetchedLatch true target (s.codeRead target)
  pc : t.pc = nextPc target
  W : t.W = e
  writebackValid : t.W.valid = true
  writebackHolds : t.W.instr = some i
  executeEmpty : t.E.valid = false
  memoryEmpty : t.M.valid = false
  regs : t.regs = s.regs
  busy : t.busy = s.busy
  flags : t.flags = s.flags
  dmem : t.dmem = s.dmem
  code : t.code = s.code
  clock : t.clock = s.clock + 2
  completed : t.completed = s.completed
  running : t.halted = false
  notFaulted : t.faulted = none

theorem InExecuteAlone.transfers {i : Instr} {target : Word} {s u : State} (h : InExecuteAlone i s)
    (hu : exec i { s with W := { s.W with valid := false } } = .next u)
    (htgt : transferTarget i s.E s.flags = some target) :
    ∃ t : State, Host.Core.run core 2 s = .next t ∧ TransferAtWriteback i u.E target s t := by
  have fr := exec_frame hu
  have tr := exec_transfer hu
  simp only [htgt] at tr
  obtain ⟨hpc, -, hD, hF⟩ := tr
  obtain ⟨hload, hstore, hflagOp⟩ := kind_of_transferTarget htgt
  have hflags : u.flags = s.flags := by
    rcases exec_flags hu with ⟨hflag, -⟩ | ⟨-, hsame⟩
    · simp [hflagOp] at hflag
    · exact hsame
  have hfirst := h.step_transfer hu htgt
  have hsecond := step_passes_and_fetches
    (s := ({ passToM u with stallPipeline := false, fetchFromNextCycle := false } : State).tick)
    (fr.faulted.trans h.notFaulted) (fr.halted.trans h.running) (congrArg Latch.valid fr.W) (fr.valid.trans h.valid)
    (fr.record.instr.trans h.holds) hload hstore rfl (congrArg Latch.valid hD) (congrArg Latch.valid hF) rfl
  refine ⟨_, (run_succ_next hfirst 1).trans (run_succ_next hsecond 0), ?_⟩
  have hread : ∀ a : State, a.code = u.code → a.codeRead target = s.codeRead target := fun a ha =>
    State.codeRead_congr (ha.trans fr.code) target
  constructor <;> simp [hpc, hF, hread, hflags, fr.regs, fr.busy, fr.dmem, fr.code, fr.clock, fr.completed,
    fr.halted, fr.faulted, fr.valid, fr.record.instr, h.valid, h.holds, h.running, h.notFaulted]

theorem TransferAtWriteback.targetFetched {i : Instr} {e : Latch} {target : Word} {s t : State}
    (h : TransferAtWriteback i e target s t) : TargetFetched i target s t where
  targetInDecode := by rw [h.D]; simp
  targetRecord r hr := by rw [h.D, hr]; exact ⟨rfl, rfl, rfl, rfl, rfl⟩
  nextPc := h.pc
  transferInWriteback := ⟨h.writebackValid, h.writebackHolds⟩
  noneBetween := ⟨h.executeEmpty, h.memoryEmpty⟩
  flags := h.flags
  data := State.memRead_congr h.dmem
  regs r _ := State.readReg_congr h.regs r
  busy r _ := State.readBusy_congr h.busy r
  clock := h.clock
  code := h.code

/-- Two cycles bring the target of a transfer alone to Decode (43_control.md R210). -/
theorem InExecuteAlone.fetches_target {i : Instr} {target : Word} {s : State} (h : InExecuteAlone i s)
    (htgt : transferTarget i s.E s.flags = some target) :
    ∃ t : State, Host.Core.run core 2 s = .next t ∧ TargetFetched i target s t := by
  obtain ⟨u, hu⟩ := exec_next i { s with W := { s.W with valid := false } }
  obtain ⟨t, hrun, ht⟩ := h.transfers hu htgt
  exact ⟨t, hrun, ht.targetFetched⟩

/-! ### Branches and JUMP -/

/-- A branch has no destination, accesses no data and is no HALT. -/
theorem kind_of_isBranch {i : Instr} (h : isBranch i.opcode = true) :
    dstFields i.opcode = [] ∧ isLoad i.opcode = false ∧ isStore i.opcode = false ∧ i ≠ .halt := by
  cases i <;> simp [isBranch, Instr.opcode] at h <;> exact ⟨rfl, rfl, rfl, nofun⟩

/-- A branch, from the condition under which it has a target and under which Execute redirects. -/
theorem branches {i : Instr} {imm : Word} {taken : Flags → Bool} (hb : isBranch i.opcode = true)
    (htgt : ∀ l f, transferTarget i l f = if taken f then some (l.pc + imm) else none)
    (hexec : ∀ s, exec i s = .next (s.branchIf (taken s.flags) imm)) : Branches i imm taken := by
  obtain ⟨hd, hload, hstore, hne⟩ := kind_of_isBranch hb
  have hno := noDataAccess hload hstore
  refine ⟨hno, forwards_nothing hd, countedOnly hd hne, fun s ht => ?_, fun s ht => ?_, fun s h ht => ?_,
    fun s h ht => ?_⟩
  · rw [hexec, ht, State.branchIf_true]
    rfl
  · rw [hexec, ht, State.branchIf_false]
  · exact h.fetches_target (by rw [htgt, ht, if_pos rfl])
  · obtain ⟨t, hrun, hframe, -, -, hflags, hdmem⟩ :=
      h.retiresWriting (hexec _) (by rw [htgt, ht]; rfl) (hno _) hne
    rw [hd] at hframe
    exact ⟨t, hrun, hframe, by simpa using hflags, State.memRead_congr (by simpa using hdmem)⟩

theorem ite_eq_ite_not {α : Type} (b : Bool) (x y : α) : (if b then y else x) = if !b then x else y := by
  cases b <;> rfl

/-- Settles O19: each reads its flag, or the negation of it, both for the target and in Execute. -/
theorem branchesTestTheirFlag : Obligations.BranchesTestTheirFlag := fun imm =>
  ⟨⟨listedAs (.bz imm), branches rfl (fun _ _ => rfl) fun _ => rfl⟩,
    ⟨listedAs (.bnz imm), branches rfl (fun _ _ => ite_eq_ite_not _ _ _) fun _ => rfl⟩,
    ⟨listedAs (.bp imm), branches rfl (fun _ _ => rfl) fun _ => rfl⟩,
    ⟨listedAs (.bnp imm), branches rfl (fun _ _ => ite_eq_ite_not _ _ _) fun _ => rfl⟩,
    ⟨listedAs (.bn imm), branches rfl (fun _ _ => rfl) fun _ => rfl⟩,
    ⟨listedAs (.bnn imm), branches rfl (fun _ _ => ite_eq_ite_not _ _ _) fun _ => rfl⟩⟩

/-- Settles O20: JUMP has no destination, and its target does not depend on the flags. -/
theorem jumpGoesToBasePlusImmediate : Obligations.JumpGoesToBasePlusImmediate := fun rs1 imm =>
  ⟨listedAs (.jump rs1 imm), noDataAccess rfl rfl, forwards_nothing rfl, countedOnly rfl nofun, fun _ => rfl,
    fun _ h => h.fetches_target rfl⟩

/-! ### The cycle behind the transfer -/

/-- When no register is busy but those that `W` writes, and `E` and `M` are empty, the instruction in `D` issues in the cycle
that writes `W` back, as it would alone from the state `a` that Writeback leaves (40_pipeline.md R101, R110). -/
theorem step_issues_behind_writeback {t a : State} {op : Opcode} (hf : t.faulted = none) (hrun : t.halted = false)
    (h1 : writebackStage t = .next a) (hh1 : a.halted = false) (hD : t.D.valid = true) (hE : t.E.valid = false)
    (hM : t.M.valid = false) (hbusy : ∀ r, t.readBusy r = true → t.W.writes r = true)
    (hc : checkDecode t.D = .ok op) : ∃ u, step t = .next u ∧ IssuedAlone op a u := by
  have w := writebackStage_frame h1
  have hfa : a.faulted = none := w.faulted.trans hf
  have hnone : ∀ r, a.readBusy r = false := fun r => by
    by_contra hb
    obtain ⟨hr, hnW⟩ := writebackStage_busy h1 (Bool.eq_true_of_not_eq_false hb)
    simp [hbusy r hr] at hnW
  have hsame : step t = step a := by
    rw [step_eq_laterStages hf hrun h1 hh1, step_eq_laterStages hfa hh1 (writebackStage_empty w.wEmpty) hh1]
  rw [hsame]
  exact step_issues_alone hfa hh1 (w.D ▸ hD) (w.E ▸ hE) (w.M ▸ hM) w.wEmpty hnone (w.D ▸ hc)

/-- A latch whose instruction has `rd` as its one destination writes no other register (40_pipeline.md R139). -/
theorem Latch.not_writes_of_ne_rd {l : Latch} {i : Instr} {r : RegIndex} (hi : l.instr = some i)
    (hd : dstFields i.opcode = [.rd]) (hne : r ≠ l.rd) : l.writes r = false := by
  rw [Bool.eq_false_iff, ne_eq, Latch.writes_iff (Latch.opcode_of_instr hi), hd]
  rintro ⟨-, f, hf, rfl⟩
  cases List.mem_singleton.1 hf
  exact hne rfl

/-- A register that the issued instruction does not write is not busy behind it (40_pipeline.md R138). -/
theorem IssuedAlone.notBusy {op : Opcode} {t u : State} {r : RegIndex} (h : IssuedAlone op t u)
    (hop : u.E.opcode = some op) (hr : u.E.writes r = false) : u.readBusy r = false := by
  rw [Bool.eq_false_iff, ne_eq, h.busy]
  intro hdst
  rw [(Latch.writes_iff hop r).2 ⟨h.valid, hdst⟩] at hr
  cases hr

/-- Settles O21: Writeback leaves the link that Execute put into the latch, and the target's instruction, which finds no busy
register but `rd`, issues behind it. -/
theorem jumpAndLinkWritesTheReturnAddress : Obligations.JumpAndLinkWritesTheReturnAddress := by
  refine fun rd rs1 imm => ⟨listedAs _, noDataAccess rfl rfl, forwards_result rfl rfl, fun _ => rfl, fun s h => ?_⟩
  obtain ⟨t, hrun, ht⟩ := h.transfers rfl rfl
  refine ⟨t, hrun, ht.targetFetched, fun r j hread hj hw => ?_⟩
  have hrd : t.W.rd = rd := Latch.field_of_instr ht.writebackHolds (f := .rd) List.mem_cons_self
  have hlink : t.W.resultBuffer = s.E.pc + 4#32 := by rw [ht.W]; rfl
  have hwrites : t.W.writes = s.E.writes := by rw [ht.W]; rfl
  have hbusy : ∀ x, t.readBusy x = true → t.W.writes x = true := fun x hx =>
    hwrites ▸ h.onlyOwnBusy x (State.readBusy_congr ht.busy x ▸ hx)
  have hD : t.D = fetchedLatch true (s.E.rs1Value + imm) (some r) := ht.D.trans (by rw [hread])
  obtain ⟨a, ha, hother, -, hwritten, -, -, hcompleted, -, hhalted⟩ :=
    writebackWritesExactlyTheDestinations t _ ht.writebackValid ht.writebackHolds
  have w := writebackStage_frame ha
  obtain ⟨u, hu, hissued⟩ := step_issues_behind_writeback ht.notFaulted ht.running ha
    (by simpa [ht.running] using hhalted) (hD ▸ rfl) ht.executeEmpty ht.memoryEmpty hbusy
    (hD ▸ checkDecode_fetchedLatch hj hw _ _)
  have hE : u.E.instr = some j := by rw [hissued.record.instr, w.D, hD, instr_fetchedLatch hj hw]
  refine ⟨u, hu, ?_, fun x hx => ?_, hissued.notBusy (Latch.opcode_of_instr hE), hissued.valid, hE,
    by rw [hissued.completed, hcompleted, ht.completed], hissued.flags.trans (w.flags.trans ht.flags),
    State.memRead_congr (hissued.dmem.trans (w.dmem.trans ht.dmem))⟩
  · rw [State.readReg_congr hissued.regs, ← hrd, hwritten List.mem_cons_self, hlink]
  · have hnot := Latch.not_writes_of_ne_rd ht.writebackHolds rfl (hrd ▸ mt List.mem_singleton.2 hx)
    rw [State.readReg_congr hissued.regs, (hother x hnot).1, State.readReg_congr ht.regs]

/-! ### HALT -/

/-- Three cycles of a HALT alone: nothing but the counters, the control state and the latches has changed
(43_control.md R222; 40_pipeline.md R103, R113). -/
theorem InExecuteAlone.halts {s : State} (h : InExecuteAlone .halt s) :
    ∃ t : State, Host.Core.run core 3 s = .next t ∧ t.halted = true ∧ RetiredInThree s t ∧ t.regs = s.regs ∧
      t.busy = s.busy ∧ t.flags = s.flags ∧ t.dmem = s.dmem ∧ t.pc = s.pc := by
  have hfirst := step_execute_only h.frontEmpty h.writebackEmpty h.memoryEmpty h.valid h.holds rfl rfl
  generalize hs1 : State.tick _ = s1 at hfirst
  have hF1 : FrontEmpty s1 := by
    subst hs1
    exact ⟨h.fetchOff, h.decodeEmpty, h.noRedirect, h.running, h.notFaulted⟩
  have hsecond := step_memory_only (i := .halt) (u := s1) hF1 (by subst hs1; rfl) (by subst hs1; exact h.valid)
    (by subst hs1; exact h.holds) rfl hF1 (by subst hs1; rfl)
  generalize hs2 : State.tick _ = s2 at hsecond
  have hthird := haltingCycleEndsAfterWriteback s2 (by subst hs2; exact hF1.notFaulted)
    (by subst hs2; exact hF1.running) (by subst hs2; subst hs1; exact h.valid) (by subst hs2; subst hs1; exact h.holds)
  refine ⟨_, (run_succ_next hfirst 2).trans ((run_succ_next hsecond 1).trans (run_succ_next hthird 0)), rfl, ?_⟩
  subst hs2
  subst hs1
  exact ⟨⟨by simp, by simp, by simp, by simp [h.notFaulted]⟩, by simp, by simp, by simp, by simp, by simp⟩

/-- Settles O22: HALT has no destination, and the record of a HALT fills `F` with a latch that holds it. -/
theorem haltEndsTheRun : Obligations.HaltEndsTheRun := by
  refine ⟨listedAs .halt, noDataAccess rfl rfl, forwards_nothing rfl, fun _ => rfl, fun _ h => h.halts, ?_⟩
  intro s r hr hF hread hhalt
  constructor
  · intro hst
    have hfetched : (fetchedLatch true s.pc (some r)).instr = some .halt := instr_fetchedLatch hhalt rfl true s.pc
    have hop := Latch.opcode_of_instr hfetched
    rw [fetchStage_handOff hr hF hst]
    simp [hF, hread, hfetched, hop, Instr.opcode]
  · intro hst
    simp [fetchStage, hr, hF, hst]

/-! ### Bad targets -/

/-- A marker BADFETCH that Fetch put into `D` ends the run with its address (40_pipeline.md R142; 60_exceptions.md R242). -/
theorem decodeStage_badFetch {s : State} {pc : Word} (hD : s.D = fetchedLatch true pc none) :
    decodeStage s = .fault (.invalidFetchAddress pc) := by
  simp [decodeStage, checkDecode, hD, fetchedLatch, raise]

/-- Settles O23: Fetch reads the target as BADFETCH; behind the transfer, which is no HALT, Memory and Execute are idle, and
Decode faults. -/
theorem badTargetFaultsWhenEvaluated : Obligations.BadTargetFaultsWhenEvaluated := by
  intro s i target h htgt hbad
  obtain ⟨u, hu⟩ := exec_next i { s with W := { s.W with valid := false } }
  obtain ⟨t, hrun, ht⟩ := h.transfers hu htgt
  have hD : t.D = fetchedLatch true target none := by rw [ht.D, State.codeRead_eq_none.2 hbad]
  refine ⟨⟨t, hrun, by rw [hD]; rfl, by rw [hD]; rfl, by rw [hD]; rfl⟩, ?_⟩
  have hne : i ≠ .halt := by
    rintro rfl
    cases htgt
  obtain ⟨a, ha, -, -, -, -, -, -, -, hhalted⟩ :=
    writebackWritesExactlyTheDestinations t i ht.writebackValid ht.writebackHolds
  have haRun : a.halted = false := by simpa [ht.running, hne] using hhalted
  have w := writebackStage_frame ha
  have hfault : step t = .fault (.invalidFetchAddress target) := by
    rw [step_eq_laterStages ht.notFaulted ht.running ha haRun, laterStages,
      memoryStage_idle (w.M ▸ ht.memoryEmpty) w.wEmpty, andThen_next,
      executeStage_idle (w.E ▸ ht.executeEmpty) (w.M ▸ ht.memoryEmpty), andThen_next,
      decodeStage_badFetch (w.D.trans hD), andThen_fault]
  exact (run_add 1 hrun).trans (run_succ_fault hfault 0)

end Sys2Proof.Machine

/-! SUPPORT. How a run ends: what Decode reports, the causes of a faulting step, what HALT leaves to do, and the run loop as
one that resumes where an earlier call has ended (60_exceptions.md R240 to R247, R258; 70_reset_and_hazards.md R273). -/

namespace Sys2Proof.Machine

/-! ### What Decode reports -/

/-- The three reports of Decode, each with its cause (60_exceptions.md R241, R242, R243). -/
theorem checkDecode_error_cases {l : Latch} {f : Fault} (h : checkDecode l = .error f) :
    (l.op = .badFetch ∧ f = .invalidFetchAddress l.pc) ∨
    (∃ n, l.op = .number n ∧ Opcode.ofNumber n = none ∧ f = .illegalOpcode l.pc n) ∨
    (∃ op g, l.opcode = some op ∧ badField op l = some g ∧ f = .invalidRegisterIndex l.pc g (l.field g)) := by
  unfold checkDecode at h
  split at h
  · next hop =>
    cases h
    exact .inl ⟨hop, rfl⟩
  · next n hop =>
    split at h
    · next hn =>
      cases h
      exact .inr (.inl ⟨n, hop, hn, rfl⟩)
    · next op hn =>
      split at h
      · next g hb =>
        cases h
        exact .inr (.inr ⟨op, g, by simp [Latch.opcode, hop, hn], hb, rfl⟩)
      · cases h

theorem checkDecode_of_badFetch {l : Latch} (h : l.op = .badFetch) :
    checkDecode l = .error (.invalidFetchAddress l.pc) := by
  simp [checkDecode, h]

theorem checkDecode_of_unlisted {l : Latch} {n : OpNumber} (h : l.op = .number n) (hn : Opcode.ofNumber n = none) :
    checkDecode l = .error (.illegalOpcode l.pc n) := by
  simp [checkDecode, h, hn]

/-- The reported field is the first used one that names no register (40_pipeline.md R142; 60_exceptions.md R243). -/
theorem badField_eq_some_iff {op : Opcode} {l : Latch} {f : Field} :
    badField op l = some f ↔ ¬(l.field f).toNat < Config.nregs ∧ ∃ earlier later,
      op.format.fields = earlier ++ f :: later ∧ ∀ g ∈ earlier, (l.field g).toNat < Config.nregs := by
  simp [badField, List.find?_eq_some_iff_append, RegIndex.inRange]

theorem decodeStage_of_error {s : State} {f : Fault} (hD : s.D.valid = true) (h : checkDecode s.D = .error f) :
    decodeStage s = .fault f := by
  simp [decodeStage, hD, h, raise]

/-- What passes the checks issues or stalls (40_pipeline.md R137). -/
theorem decodeStage_next_of_ok {s : State} {op : Opcode} (h : checkDecode s.D = .ok op) :
    ∃ t, decodeStage s = .next t := by
  rcases decodeStage_cases (s := s) rfl with ⟨-, hr⟩ | ⟨f, -, he, -⟩ | ⟨_, -, -, -, hr⟩ | ⟨_, -, -, -, hr⟩
  · exact ⟨_, hr⟩
  · cases h.symm.trans he
  · exact ⟨_, hr⟩
  · exact ⟨_, hr⟩

/-- A cycle that reaches Decode ends as Decode does: Fetch always answers (40_pipeline.md R101). -/
theorem ReachesDecode.step_eq {s u : State} (h : ReachesDecode s u) :
    step s = andThen (decodeStage u) fun v => .next (fetchStage v).tick := by
  obtain ⟨hf, hrun, s1, s2, h1, hh1, h2, h3⟩ := h
  rw [step_eq_laterStages hf hrun h1 hh1, laterStages, h2, andThen_next, h3, andThen_next]

theorem ReachesDecode.step_fault {s u : State} {f : Fault} (h : ReachesDecode s u) (hD : u.D.valid = true)
    (hc : checkDecode u.D = .error f) : step s = .fault f := by
  rw [h.step_eq, decodeStage_of_error hD hc, andThen_fault]

/-- Settles O30: each clause is one answer of `CheckDecode`, and the step ends as Decode does. -/
theorem decodeChecksInOrder : Obligations.DecodeChecksInOrder := by
  intro s u hu hD
  refine ⟨fun hop => ?badFetch, fun n hop hn => ?unlisted, fun n op earlier f later hop hn hsplit hall hbad => ?field,
    fun n op hop hn hall => ?passes⟩
  case badFetch => exact hu.step_fault hD (checkDecode_of_badFetch hop)
  case unlisted => exact hu.step_fault hD (checkDecode_of_unlisted hop (Opcode.ofNumber_eq_none hn))
  case field =>
    have hb : badField op u.D = some f := badField_eq_some_iff.2 ⟨hbad, earlier, later, hsplit, hall⟩
    exact hu.step_fault hD (checkDecode_of_badField (Opcode.number_of_ofNumber hn ▸ hop) hb)
  case passes =>
    have hc : checkDecode u.D = .ok op := checkDecode_ok_iff.2 ⟨by simp [Latch.opcode, hop, hn], hall⟩
    obtain ⟨v, hv⟩ := decodeStage_next_of_ok hc
    exact ⟨_, by rw [hu.step_eq, hv, andThen_next]⟩

/-! ### The causes of a faulting step -/

theorem step_eq_cycle {s : State} (hf : s.faulted = none) (hrun : s.halted = false) : step s = cycle s := by
  simp [step, runCycle, hf, hrun]

/-- A halted machine performs no cycle (60_exceptions.md R258; log 4). -/
theorem step_of_halted {s : State} (hf : s.faulted = none) (hh : s.halted = true) : step s = .next s := by
  simp [step, runCycle, hf, hh]

/-- A cycle faults in Memory, or in Decode when it reaches it: Writeback, Execute and Fetch do not fault
(60_exceptions.md R240). -/
theorem step_fault_cases {s : State} {f : Fault} (h : step s = .fault f) (hf : s.faulted = none) :
    (∃ s1, writebackStage s = .next s1 ∧ memoryStage s1 = .fault f) ∨
    (∃ u, ReachesDecode s u ∧ decodeStage u = .fault f) := by
  cases hrun : s.halted with
  | true =>
    rw [step_of_halted hf hrun] at h
    cases h
  | false =>
    rw [step_eq_cycle hf hrun, cycle] at h
    rcases andThen_eq_fault.1 h with h1 | ⟨s1, h1, h⟩
    · rcases writebackStage_cases h1 with ⟨-, hr⟩ | ⟨_, -, -, hr⟩ | ⟨-, -, hr⟩ <;> cases hr
    split at h
    · cases h
    next hh1 =>
    rcases andThen_eq_fault.1 h with h2 | ⟨s2, h2, h⟩
    · exact .inl ⟨s1, h1, h2⟩
    rcases andThen_eq_fault.1 h with h3 | ⟨u, h3, h⟩
    · rcases executeStage_cases h3 with ⟨-, hr⟩ | ⟨_, _, -, -, -, hr⟩ | ⟨-, -, hr⟩ <;> cases hr
    rcases andThen_eq_fault.1 h with h4 | ⟨_, -, h⟩
    · exact .inr ⟨u, ⟨hf, hrun, s1, s2, h1, by simpa using hh1, h2, h3⟩, h4⟩
    · cases h

/-- A fault of Memory is that of a load or store whose address names no cell (40_pipeline.md R117). -/
theorem memoryStage_fault {s : State} {f : Fault} (h : memoryStage s = .fault f) :
    ∃ i, s.M.valid = true ∧ s.M.instr = some i ∧ (isLoad i.opcode = true ∨ isStore i.opcode = true) ∧
      dataAddressOk s.M.memoryAddress = false ∧ f = .invalidMemoryAddress s.M.pc s.M.memoryAddress := by
  rcases memoryStage_cases h with ⟨-, hr⟩ | ⟨_, _, -, -, -, hr⟩ | ⟨i, hv, hi, hls, hbad, hr⟩ | ⟨-, -, hr⟩
  · cases hr
  · cases hr
  · cases hr
    exact ⟨i, hv, hi, hls, hbad, rfl⟩
  · cases hr

/-- A fault of Decode is the report of its checks (40_pipeline.md R142). -/
theorem decodeStage_fault {s : State} {f : Fault} (h : decodeStage s = .fault f) :
    s.D.valid = true ∧ checkDecode s.D = .error f := by
  rcases decodeStage_cases h with ⟨-, hr⟩ | ⟨_, hv, hc, hr⟩ | ⟨_, -, -, -, hr⟩ | ⟨_, -, -, -, hr⟩
  · cases hr
  · cases hr
    exact ⟨hv, hc⟩
  · cases hr
  · cases hr

/-- Settles O32: Memory sees the `M` of the step's start, and a `D` that Decode refuses has not been flushed. -/
theorem everyFaultHasItsCause : Obligations.EveryFaultHasItsCause := by
  intro s f h hf
  rcases step_fault_cases h hf with ⟨s1, h1, h2⟩ | ⟨u, hu, hd⟩
  · obtain ⟨i, hv, hi, hls, hbad, rfl⟩ := memoryStage_fault h2
    rw [(writebackStage_frame h1).M] at hv hi hbad ⊢
    exact ⟨hv, rfl, rfl, by simpa [dataAddressOk] using hbad, i.opcode, Latch.opcode_of_instr hi, hls⟩
  · obtain ⟨hv, hc⟩ := decodeStage_fault hd
    obtain ⟨-, -, hD, -⟩ := hu.effect.front_of_decodeValid hv
    rw [hD] at hv hc
    rcases checkDecode_error_cases hc with ⟨hop, rfl⟩ | ⟨n, hop, hn, rfl⟩ | ⟨op, g, hop, hb, rfl⟩
    · exact ⟨hv, rfl, hop⟩
    · refine ⟨hv, rfl, hop, fun hlisted => ?_⟩
      obtain ⟨op, hsome⟩ := Opcode.exists_ofNumber_of_bounds hlisted
      cases hn.symm.trans hsome
    · obtain ⟨hbad, -⟩ := badField_eq_some_iff.1 hb
      exact ⟨hv, rfl, rfl, not_lt.1 hbad, op, hop, List.mem_of_find?_eq_some hb⟩

/-! ### The run loop -/

/-- Only run control writes the fault mark: a step that answers a next state leaves none (log 5). -/
theorem step_faulted {s t : State} (h : step s = .next t) : t.faulted = none := by
  obtain ⟨hf, -⟩ := step_cases h
  rcases step_reaches h with ⟨-, rfl⟩ | ⟨-, s1, h1, -, rfl⟩ | ⟨u, v, hu, hd, rfl⟩
  · exact hf
  · exact (writebackStage_frame h1).faulted.trans hf
  · exact (fetchStage_frame v).faulted.trans ((decodeStage_frame hd).faulted.trans hu.effect.faulted)

theorem runCore_eq_runLoop {s : State} (hf : s.faulted = none) (n : Nat) : runCore s n = runLoop n 0 s := by
  simp [runCore, hf]

/-- Whatever is left of its budget, the loop ends at a halted state (60_exceptions.md R258). -/
theorem runLoop_of_halted {s : State} (hh : s.halted = true) (fuel n : Nat) :
    runLoop fuel n s = (.ended n s.completed true, s) := by
  cases fuel <;> simp [runLoop, hh]

theorem runLoop_succ_next {s u : State} (hrun : s.halted = false) (h : cycle s = .next u) (fuel n : Nat) :
    runLoop (fuel + 1) n s = runLoop fuel (n + 1) u := by
  simp [runLoop, hrun, h]

theorem runLoop_succ_fault {s : State} {f : Fault} (hrun : s.halted = false) (h : cycle s = .fault f) (fuel n : Nat) :
    runLoop (fuel + 1) n s = (.faulted f n, { s with faulted := some f }) := by
  simp [runLoop, hrun, h]

theorem runLoop_succ_refused {s : State} {r : Refusal} (hrun : s.halted = false) (h : cycle s = .refused r)
    (fuel n : Nat) : runLoop (fuel + 1) n s = (.refused r n, s) := by
  simp [runLoop, hrun, h]

/-- Settles O44: both run controls test `halted` before the cycle. -/
theorem haltedCorePerformsNoCycle : Obligations.HaltedCorePerformsNoCycle := by
  intro s n hh hf
  exact ⟨step_of_halted hf hh, (runCore_eq_runLoop hf n).trans (runLoop_of_halted hh n 0)⟩

/-- The outcome of a run that follows `c` cycles of an earlier one. -/
def RunOutcome.afterCycles (c : Nat) : RunOutcome → RunOutcome
  | .ended n k h => .ended (c + n) k h
  | .faulted f n => .faulted f (c + n)
  | .refused r n => .refused r (c + n)

/-- The loop only counts its cycles: a count that starts `c` higher ends `c` higher. -/
theorem runLoop_add_count (fuel c n : Nat) (s : State) :
    runLoop fuel (c + n) s = ((runLoop fuel n s).1.afterCycles c, (runLoop fuel n s).2) := by
  induction fuel generalizing n s with
  | zero => rfl
  | succ fuel ih =>
    cases hrun : s.halted with
    | true => rw [runLoop_of_halted hrun, runLoop_of_halted hrun]; rfl
    | false =>
      cases h : cycle s with
      | next u => rw [runLoop_succ_next hrun h, runLoop_succ_next hrun h, Nat.add_assoc, ih]
      | fault f => rw [runLoop_succ_fault hrun h, runLoop_succ_fault hrun h]; rfl
      | refused r => rw [runLoop_succ_refused hrun h, runLoop_succ_refused hrun h]; rfl

/-- A loop that ended without a fault leaves no mark, and with more budget it goes on from where it ended
(60_exceptions.md R246). -/
theorem runLoop_resumes {m a c k : Nat} {b : Bool} {s t : State} (hf : s.faulted = none)
    (h : runLoop m a s = (.ended c k b, t)) :
    t.faulted = none ∧ ∀ n, runLoop (m + n) a s = runLoop n c t := by
  induction m generalizing a s with
  | zero =>
    cases h
    exact ⟨hf, fun n => by rw [Nat.zero_add]⟩
  | succ m ih =>
    cases hrun : s.halted with
    | true =>
      rw [runLoop_of_halted hrun] at h
      cases h
      exact ⟨hf, fun n => by rw [runLoop_of_halted hrun, runLoop_of_halted hrun]⟩
    | false =>
      cases hc : cycle s with
      | next u =>
        have hu : u.faulted = none := step_faulted ((step_eq_cycle hf hrun).trans hc)
        obtain ⟨ht, hresume⟩ := ih hu ((runLoop_succ_next hrun hc m a).symm.trans h)
        exact ⟨ht, fun n => by rw [Nat.succ_add, runLoop_succ_next hrun hc, hresume]⟩
      | fault f => cases (runLoop_succ_fault hrun hc m a).symm.trans h
      | refused r => cases (runLoop_succ_refused hrun hc m a).symm.trans h

/-- A budget split over two calls: the second call's outcome and state, with the first call's cycles added
(60_exceptions.md R246; 70_reset_and_hazards.md R273). -/
theorem runCore_add {m c k : Nat} {b : Bool} {s t : State} (hf : s.faulted = none)
    (h : runCore s m = (.ended c k b, t)) (n : Nat) :
    runCore s (m + n) = ((runCore t n).1.afterCycles c, (runCore t n).2) := by
  rw [runCore_eq_runLoop hf] at h
  obtain ⟨ht, hresume⟩ := runLoop_resumes hf h
  rw [runCore_eq_runLoop hf, hresume, runCore_eq_runLoop ht, ← runLoop_add_count, Nat.add_zero]

/-- Settles O46, from the outcome and the state of a split budget. -/
theorem budgetedRunsCompose : Obligations.BudgetedRunsCompose := by
  intro s t m n c k b hf h
  rw [runCore_add hf h n]
  exact ⟨rfl, fun _ _ _ h' => by rw [h']; rfl, fun _ _ h' => by rw [h']; rfl⟩

end Sys2Proof.Machine

/-! SUPPORT. Reset, the run loop as repeated steps, and the straight-line program that flows through the pipeline one stage a
cycle (70_reset_and_hazards.md R270, R271, R273, R280). -/

namespace Sys2Proof.Machine

/-! ### Reset -/

theorem State.reset_readReg (r : RegIndex) : State.reset.readReg r = 0#32 := by
  simp only [State.readReg, State.reset, Vector.getElem?_replicate]
  split <;> rfl

theorem State.reset_readBusy (r : RegIndex) : State.reset.readBusy r = false := by
  simp only [State.readBusy, State.reset, Vector.getElem?_replicate]
  split <;> rfl

theorem programFits_iff {n : Nat} : programFits n = true ↔ 4000 + 4 * n ≤ 2 ^ 32 := decide_eq_true_iff

/-- `init` constructs a core exactly for the programs within the size bound of R271. -/
theorem init_eq_ok_iff {program : List Record} {s : State} :
    init (.ok program) = .ok s ↔ 4000 + 4 * program.length ≤ 2 ^ 32 ∧ s = { State.reset with code := program } := by
  rw [← programFits_iff]
  cases hfit : programFits program.length <;> simp [init, hfit, eq_comm]

/-- Settles O6: within the size bound `init` answers the reset state with the program in it. -/
theorem initEstablishesTheResetState : Obligations.InitEstablishesTheResetState := by
  refine ⟨fun program hfits => ⟨_, init_eq_ok_iff.2 ⟨hfits, rfl⟩, State.reset_readReg, State.reset_readBusy, rfl, rfl, rfl,
    rfl, rfl, rfl, rfl, fun _ => rfl, rfl, rfl, fun l hl => ?_, rfl, rfl⟩, fun _ => rfl⟩
  simpa [State.reset, Latch.empty] using hl

/-- Settles O50: the reset state is the one with the empty program. -/
theorem initMeetsTheInvariant : Obligations.InitMeetsTheInvariant := ⟨reset_inv [], fun _ _ => init_inv⟩

/-! ### The run loop as repeated steps -/

/-- Steps of a halted machine leave the state (60_exceptions.md R258; log 4). -/
theorem run_of_halted {s : State} (hf : s.faulted = none) (hh : s.halted = true) (n : Nat) :
    Host.Core.run core n s = .next s := by
  induction n with
  | zero => rfl
  | succ n ih => rw [run_succ_next (step_of_halted hf hh), ih]

/-- A loop with `fuel` cycles left after `a` that ends in `t` without a fault: it performs `m` cycles, fewer than its fuel only
when it halts (70_reset_and_hazards.md R273). -/
theorem runLoop_ended {fuel a c k : Nat} {b : Bool} {s t : State} (hf : s.faulted = none)
    (h : runLoop fuel a s = (.ended c k b, t)) :
    Host.Core.run core fuel s = .next t ∧ k = t.completed ∧ b = t.halted ∧
      ∃ m, c = a + m ∧ m ≤ fuel ∧ t.clock = s.clock + m ∧ (b = false → m = fuel) := by
  induction fuel generalizing a s with
  | zero =>
    cases h
    exact ⟨rfl, rfl, rfl, 0, rfl, le_rfl, rfl, fun _ => rfl⟩
  | succ fuel ih =>
    cases hrun : s.halted with
    | true =>
      rw [runLoop_of_halted hrun] at h
      cases h
      exact ⟨run_of_halted hf hrun _, rfl, hrun.symm, 0, rfl, Nat.zero_le _, rfl, nofun⟩
    | false =>
      cases hc : cycle s with
      | next u =>
        have hstep : step s = .next u := (step_eq_cycle hf hrun).trans hc
        obtain ⟨hclock, -⟩ := countersAndHaltedFollowWriteback s u hstep hrun
        obtain ⟨hr, hk, hb, m, hcm, hle, ht, hall⟩ :=
          ih (step_faulted hstep) ((runLoop_succ_next hrun hc fuel a).symm.trans h)
        exact ⟨(run_succ_next hstep fuel).trans hr, hk, hb, m + 1, by omega, by omega, by omega,
          fun hfalse => congrArg (· + 1) (hall hfalse)⟩
      | fault f => cases (runLoop_succ_fault hrun hc fuel a).symm.trans h
      | refused r => cases (runLoop_succ_refused hrun hc fuel a).symm.trans h

/-- Settles O45, from the loop that has performed no cycle yet. -/
theorem runIsRepeatedSteps : Obligations.RunIsRepeatedSteps := by
  intro s t n c k b hf h
  obtain ⟨hr, hk, hb, m, hcm, hle, hclock, hall⟩ := runLoop_ended hf ((runCore_eq_runLoop hf n).symm.trans h)
  obtain rfl : c = m := hcm.trans (Nat.zero_add m)
  exact ⟨hr, hk, hb, hle, hclock, hall⟩

/-- The other way round: the loop performs the steps that reach a running state (70_reset_and_hazards.md R273). -/
theorem runLoop_of_run {m a : Nat} {s t : State} (hf : s.faulted = none) (h : Host.Core.run core m s = .next t)
    (hrun : t.halted = false) (n : Nat) : runLoop (m + n) a s = runLoop n (a + m) t := by
  induction m generalizing a s with
  | zero =>
    cases h
    rw [Nat.zero_add, Nat.add_zero]
  | succ m ih =>
    cases hs : s.halted with
    | true =>
      cases (run_of_halted hf hs _).symm.trans h
      cases hs.symm.trans hrun
    | false =>
      obtain ⟨u, hstep, hr⟩ := run_succ_eq_next.1 h
      have hc : cycle s = .next u := (step_eq_cycle hf hs).symm.trans hstep
      rw [Nat.succ_add, runLoop_succ_next hs hc, ih (step_faulted hstep) hr, Nat.add_right_comm, Nat.add_assoc]

/-! ### Steps that neither fault nor stall -/

theorem checkDecode_of_instr {l : Latch} {i : Instr} (h : l.instr = some i) : checkDecode l = .ok i.opcode :=
  checkDecode_ok_iff.2 ⟨Latch.opcode_of_instr h, fun _ => Latch.field_lt h⟩

/-- No step faults with a legal `D` and no access in `M` (60_exceptions.md R240). -/
theorem step_ne_fault {s : State} (hf : s.faulted = none) (hD : s.D.legal)
    (hM : ∀ i, s.M.valid = true → s.M.instr = some i → isLoad i.opcode = false ∧ isStore i.opcode = false) (f : Fault) :
    step s ≠ .fault f := by
  intro h
  rcases step_fault_cases h hf with ⟨s1, h1, h2⟩ | ⟨u, hu, hd⟩
  · obtain ⟨i, hv, hi, hls, -⟩ := memoryStage_fault h2
    rw [(writebackStage_frame h1).M] at hv hi
    simp [hM i hv hi] at hls
  · obtain ⟨hv, hc⟩ := decodeStage_fault hd
    obtain ⟨-, -, hDu, -⟩ := hu.effect.front_of_decodeValid hv
    rw [hDu] at hv hc
    obtain ⟨i, hi⟩ := Option.isSome_iff_exists.1 (hD hv)
    cases (checkDecode_of_instr hi).symm.trans hc

/-- A Decode that does not stall empties `D` and hands what it held to `E` (40_pipeline.md R138, R141). -/
theorem decodeStage_passes {u v : State} (hd : decodeStage u = .next v) (hE : u.E.valid = false)
    (hst : v.stallPipeline = false) : v.D.valid = false ∧ u.D.PassedTo v.E := by
  rcases decodeStage_latches hd with ⟨hu, hv, hEv, -⟩ | ⟨hu, -, hv, hEv, hrec, -⟩ | ⟨-, -, -, -, hstalled⟩
  · exact ⟨hv, by rw [hEv, hE, hu], fun h => by cases hu.symm.trans h⟩
  · exact ⟨hv, hEv.trans hu.symm, fun _ => hrec⟩
  · cases hst.symm.trans hstalled

/-! ### The program of R280 -/

/-- `i` goes through the pipeline at one stage a cycle: it accesses no memory and transfers no control. -/
structure PassesStraight (i : Instr) : Prop where
  wellFormed : i.wellFormed = true
  notLoad : isLoad i.opcode = false
  notStore : isStore i.opcode = false
  noTransfer : ∀ l f, transferTarget i l f = none

theorem transferTarget_eq_none {i : Instr} (hb : isBranch i.opcode = false) (hj : i.opcode ≠ .jump)
    (hl : i.opcode ≠ .jalr) (l : Latch) (f : Flags) : transferTarget i l f = none := by
  cases i <;> simp_all [isBranch, Instr.opcode, transferTarget]

theorem passesStraight_halt : PassesStraight .halt := ⟨rfl, rfl, rfl, fun _ _ => rfl⟩

/-- A straight-line program that fits into the code memory and has its one HALT at the end (70_reset_and_hazards.md R280). -/
structure StraightLine (program : List Instr) : Prop where
  nonempty : 0 < program.length
  fits : Config.codeBase + Config.insnWidth * program.length ≤ 2 ^ 32
  straight : ∀ i ∈ program, PassesStraight i
  haltsLast : ∀ n, program[n]? = some .halt ↔ n + 1 = program.length

theorem straightLine_append_halt {body : List Instr} (hfits : 4000 + 4 * (body.length + 1) ≤ 2 ^ 32)
    (hbody : ∀ i ∈ body, PassesStraight i ∧ i ≠ .halt) : StraightLine (body ++ [.halt]) where
  nonempty := by simp
  fits := by simpa [Config.codeBase, Config.insnWidth] using hfits
  straight := fun i hi => by
    rcases List.mem_append.1 hi with hi | hi
    · exact (hbody i hi).1
    · exact List.mem_singleton.1 hi ▸ passesStraight_halt
  haltsLast := fun n => by
    rcases Nat.lt_trichotomy n body.length with hlt | rfl | hgt
    · have hne : body[n]? ≠ some .halt := fun h => (hbody _ (List.mem_of_getElem? h)).2 rfl
      simp [List.getElem?_append_left hlt, hne, hlt.ne]
    · simp
    · have hnone : (body ++ [Instr.halt])[n]? = none := List.getElem?_eq_none (by simpa using hgt)
      simp [hnone, hgt.ne']

/-! ### The program in the pipeline -/

/-- The stream of instructions that passes Writeback, one a cycle: four empty cycles while the pipeline fills, then the
program. After `c` cycles entry `c` is in `W`, and the next ones in `M`, `E` and `D`. -/
def stream (program : List Instr) (n : Nat) : Option Instr := if n < 4 then none else program[n - 4]?

@[simp] theorem stream_add_four (program : List Instr) (n : Nat) : stream program (n + 4) = program[n]? := by
  simp [stream]

theorem mem_of_stream {program : List Instr} {n : Nat} {i : Instr} (h : stream program n = some i) : i ∈ program := by
  unfold stream at h
  split at h
  · cases h
  · exact List.mem_of_getElem? h

/-- One HALT passes Writeback, in the cycle after `length + 3` others. -/
theorem StraightLine.stream_eq_halt_iff {program : List Instr} (hp : StraightLine program) {n : Nat} :
    stream program n = some .halt ↔ n = program.length + 3 := by
  have hpos := hp.nonempty
  unfold stream
  split
  · simp only [reduceCtorEq, false_iff]
    omega
  · rw [hp.haltsLast]
    omega

/-- The latch holds this instruction, or nothing. -/
structure Latch.Carries (l : Latch) (o : Option Instr) : Prop where
  valid : l.valid = o.isSome
  instr : ∀ i, o = some i → l.instr = some i

theorem Latch.carries_none {l : Latch} (h : l.valid = false) : l.Carries none := ⟨h, nofun⟩

theorem Latch.Carries.of_instr {l : Latch} {o : Option Instr} {i : Instr} (h : l.Carries o) (hv : l.valid = true)
    (hi : l.instr = some i) : o = some i := by
  obtain ⟨j, hj⟩ := Option.isSome_iff_exists.1 (h.valid.symm.trans hv)
  rw [hj, ← h.instr j hj, hi]

theorem Latch.Carries.legal {l : Latch} {o : Option Instr} (h : l.Carries o) : l.legal := by
  intro hv
  obtain ⟨i, hi⟩ := Option.isSome_iff_exists.1 (h.valid.symm.trans hv)
  rw [h.instr i hi, Option.isSome_some]

theorem Latch.Carries.passedTo {l m : Latch} {o : Option Instr} (h : l.Carries o) (hp : l.PassedTo m) : m.Carries o where
  valid := hp.valid.trans h.valid
  instr := fun i hi => by
    have hv : l.valid = true := by rw [h.valid, hi, Option.isSome_some]
    rw [(hp.record hv).instr, h.instr i hi]

/-- The pipeline `c` cycles after reset, with a straight-line program in the code memory. -/
structure Flowing (program : List Instr) (c : Nat) (s : State) : Prop where
  inv : s.Inv
  notFaulted : s.faulted = none
  running : s.halted = false
  code : s.code = program.map Instr.toRecord
  completed : s.completed = c - 4
  writeback : s.W.Carries (stream program c)
  memory : s.M.Carries (stream program (c + 1))
  execute : s.E.Carries (stream program (c + 2))
  decode : s.D.Carries (stream program (c + 3))
  fetchOn : s.F.valid = decide (c < program.length)
  pc : c < program.length → s.pc.toNat = Config.codeBase + Config.insnWidth * c

theorem flowing_reset {program : List Instr} (hp : StraightLine program) :
    Flowing program 0 { State.reset with code := program.map Instr.toRecord } where
  inv := reset_inv _
  notFaulted := rfl
  running := rfl
  code := rfl
  completed := rfl
  writeback := Latch.carries_none rfl
  memory := Latch.carries_none rfl
  execute := Latch.carries_none rfl
  decode := Latch.carries_none rfl
  fetchOn := (decide_eq_true hp.nonempty).symm
  pc := fun _ => rfl

section Flow

variable {program : List Instr} {c : Nat} {s u v : State}

/-- Whatever a latch carries passes straight. -/
theorem StraightLine.passesStraight (hp : StraightLine program) {l : Latch} {n : Nat} {i : Instr}
    (h : l.Carries (stream program n)) (hv : l.valid = true) (hi : l.instr = some i) : PassesStraight i :=
  hp.straight i (mem_of_stream (h.of_instr hv hi))

theorem Flowing.step_next (hp : StraightLine program) (h : Flowing program c s) : ∃ t, step s = .next t := by
  have hM : ∀ i, s.M.valid = true → s.M.instr = some i → isLoad i.opcode = false ∧ isStore i.opcode = false :=
    fun i hv hi => ⟨(hp.passesStraight h.memory hv hi).notLoad, (hp.passesStraight h.memory hv hi).notStore⟩
  cases hs : step s with
  | next t => exact ⟨t, rfl⟩
  | fault f => exact absurd hs (step_ne_fault h.notFaulted h.decode.legal hM f)
  | refused r => exact absurd hs (h.inv.step_ne_refused r)

/-- Before its last instruction is in `W` the program does not halt. -/
theorem Flowing.not_holdsHalt (hp : StraightLine program) (h : Flowing program c s) (hc : c < program.length + 3) :
    ¬ s.W.holdsHalt := by
  rintro ⟨hv, hop⟩
  obtain ⟨i, hi⟩ := Option.isSome_iff_exists.1 (h.inv.writebackLegal hv)
  obtain rfl : i = .halt := opcode_eq_halt.1 (Option.some.inj ((Latch.opcode_of_instr hi).symm.trans hop))
  exact hc.ne (hp.stream_eq_halt_iff.1 (h.writeback.of_instr hv hi))

theorem Flowing.transfer (hp : StraightLine program) (h : Flowing program c s) : s.transfer = none := by
  cases hx : s.transfer with
  | none => rfl
  | some x =>
    obtain ⟨i, hv, hi, ht⟩ := State.transfer_eq_some hx
    cases ((hp.passesStraight h.execute hv hi).noTransfer _ _).symm.trans ht

theorem Flowing.not_loadUse (hp : StraightLine program) (h : Flowing program c s) : ¬ LoadUse s := by
  rintro ⟨-, hv, ⟨op, hop, hl⟩, -⟩
  obtain ⟨i, hi⟩ := Option.isSome_iff_exists.1 (h.inv.executeLegal hv)
  obtain rfl : i.opcode = op := Option.some.inj ((Latch.opcode_of_instr hi).symm.trans hop)
  cases (hp.passesStraight h.execute hv hi).notLoad.symm.trans hl

/-- One instruction is completed in each cycle once the pipeline has filled. -/
theorem Flowing.completed_after (h : Flowing program c s) (hc : c < program.length + 3) :
    s.completed + s.W.valid.toNat = c + 1 - 4 := by
  rw [h.completed, h.writeback.valid]
  unfold stream
  split
  · simp only [Option.isSome_none, Bool.toNat_false]
    omega
  · have hlt : c - 4 < program.length := by omega
    simp only [List.getElem?_eq_getElem hlt, Option.isSome_some, Bool.toNat_true]
    omega

/-- What Fetch does with the program in a cycle that does not stall: it hands over instruction `c`, or has none left. -/
theorem Flowing.fetches (hp : StraightLine program) (h : Flowing program c s) (hcode : v.code = s.code)
    (hpc : v.pc = s.pc) (hF : v.F = s.F) (hr : v.fetchFromNextCycle = false) (hst : v.stallPipeline = false)
    (hD : v.D.valid = false) :
    (fetchStage v).D.Carries program[c]? ∧ (fetchStage v).F.valid = decide (c + 1 < program.length) ∧
      (c + 1 < program.length → (fetchStage v).pc.toNat = Config.codeBase + Config.insnWidth * (c + 1)) := by
  have hon : v.F.valid = decide (c < program.length) := hF ▸ h.fetchOn
  by_cases hlt : c < program.length
  case neg =>
    have hoff : v.F.valid = false := by simpa [hlt] using hon
    rw [fetchStage_off hoff hr, List.getElem?_eq_none (not_lt.1 hlt)]
    exact ⟨Latch.carries_none hD, hoff.trans (decide_eq_false (by omega)).symm, fun h' => absurd h' (by omega)⟩
  have hFv : v.F.valid = true := by simpa [hlt] using hon
  have hat : v.pc.toNat = Config.codeBase + Config.insnWidth * c := hpc ▸ h.pc hlt
  have hprog : v.code = program.map Instr.toRecord := hcode.trans h.code
  have hread : v.codeRead v.pc = some program[c].toRecord := by
    rw [State.codeRead_slot (by simpa [hprog] using hlt) hat]
    simp [hprog]
  have hinstr : (fetchedLatch true v.pc (some program[c].toRecord)).instr = some program[c] :=
    instr_fetchedLatch (Instr.instr_toRecord _) (hp.straight _ (List.getElem_mem hlt)).wellFormed true v.pc
  rw [fetchStage_handOff hr hFv hst]
  simp only [handOff_D, handOff_F, handOff_pc, fillF_F, fillF_pc, hread, hFv, fetchedLatch_valid, Bool.true_and,
    List.getElem?_eq_getElem hlt]
  refine ⟨⟨fetchedLatch_valid .., fun i hi => hinstr.trans hi⟩, ?_, fun hlt' => ?_⟩
  · have hlast : program[c] = .halt ↔ c + 1 = program.length := by simpa [hlt] using hp.haltsLast c
    simp only [Latch.opcode_of_instr hinstr, Option.some.injEq, opcode_eq_halt, hlast, ← decide_not]
    exact decide_eq_decide.2 (by omega)
  · have hfits := hp.fits
    simp only [Config.codeBase, Config.insnWidth] at hat hfits ⊢
    rw [nextPc, Config.insnWidth, BitVec.toNat_add, hat]
    simp only [BitVec.toNat_ofNat]
    omega

/-- One cycle moves the program one stage on (70_reset_and_hazards.md R280). -/
theorem Flowing.advances (hp : StraightLine program) (h : Flowing program c s) (hc : c < program.length + 3) :
    ∃ t, step s = .next t ∧ Flowing program (c + 1) t := by
  obtain ⟨t, hs⟩ := h.step_next hp
  refine ⟨t, hs, ?_⟩
  have hinv := everyStepKeepsTheInvariant s t h.inv hs
  have hnf := step_faulted hs
  obtain ⟨-, hcompleted, hhalted⟩ := countersAndHaltedFollowWriteback s t hs h.running
  have hrun : t.halted = false := Bool.eq_false_iff.2 fun hh => h.not_holdsHalt hp hc (hhalted.1 hh)
  rcases step_reaches hs with ⟨hh, -⟩ | ⟨-, s1, -, hh1, rfl⟩ | ⟨u, v, hu, hd, rfl⟩
  · cases h.running.symm.trans hh
  · cases hrun.symm.trans hh1
  have hb := hu.effect
  have d := decodeStage_frame hd
  have f := fetchStage_frame v
  obtain ⟨hpc, hff, hD, hF⟩ := hb.straight (h.transfer hp)
  have hst : v.stallPipeline = false :=
    Bool.eq_false_iff.2 fun hst => h.not_loadUse hp ((stalled_iff_loadUse h.inv hu hd).1 hst)
  obtain ⟨hvD, hpass⟩ := decodeStage_passes hd hb.eEmpty hst
  obtain ⟨hfD, hfF, hfpc⟩ := h.fetches hp (d.code.trans hb.code) (d.pc.trans hpc) (d.F.trans hF)
    (d.fetchFromNextCycle.trans (hff.trans h.inv.noPendingRedirect)) hst hvD
  exact
    { inv := hinv
      notFaulted := hnf
      running := hrun
      code := (codeMemoryNeverChanges s _ hs).1.trans h.code
      completed := hcompleted.trans (h.completed_after hc)
      writeback := by
        rw [State.tick_W, f.W, d.W]
        exact h.memory.passedTo hb.toW
      memory := by
        rw [State.tick_M, f.M, d.M]
        exact h.execute.passedTo hb.toM
      execute := by
        rw [State.tick_E, f.E]
        exact h.decode.passedTo (hD ▸ hpass)
      decode := by
        rw [Nat.add_right_comm, stream_add_four]
        exact hfD
      fetchOn := hfF
      pc := hfpc }

theorem Flowing.runs (hp : StraightLine program) (h : Flowing program 0 s) (hc : c ≤ program.length + 3) :
    ∃ t, Host.Core.run core c s = .next t ∧ Flowing program c t := by
  induction c with
  | zero => exact ⟨s, rfl, h⟩
  | succ c ih =>
    obtain ⟨t, ht, hflow⟩ := ih (by omega)
    obtain ⟨w, hw, hflow'⟩ := hflow.advances hp hc
    exact ⟨w, (run_add 1 ht).trans (run_succ_next hw 0), hflow'⟩

/-- The cycle in which the last instruction, the HALT, is written back (40_pipeline.md R103, R113). -/
theorem Flowing.halts (hp : StraightLine program) (h : Flowing program (program.length + 3) s) :
    ∃ t, cycle s = .next t ∧ t.halted = true ∧ t.completed = program.length := by
  have hlast : stream program (program.length + 3) = some .halt := hp.stream_eq_halt_iff.2 rfl
  have hv : s.W.valid = true := by rw [h.writeback.valid, hlast, Option.isSome_some]
  have hstep := haltingCycleEndsAfterWriteback s h.notFaulted h.running hv (h.writeback.instr _ hlast)
  refine ⟨_, (step_eq_cycle h.notFaulted h.running).symm.trans hstep, rfl, ?_⟩
  have hpos := hp.nonempty
  have hcompleted := h.completed
  change s.completed + 1 = program.length
  omega

end Flow

/-- Settles O53: the program flows through the pipeline for `length + 3` cycles, and the next one halts. -/
theorem straightLineHaltsInLengthPlusFour : Obligations.StraightLineHaltsInLengthPlusFour := by
  intro body s hbody hinit
  obtain ⟨hfits, rfl⟩ := init_eq_ok_iff.1 hinit
  have hp : StraightLine (body ++ [.halt]) := by
    refine straightLine_append_halt (by simpa using hfits) fun i hi => ?_
    obtain ⟨hw, hl, hs, hb, hj, hjalr, hh⟩ := hbody i hi
    exact ⟨⟨hw, hl, hs, transferTarget_eq_none hb hj hjalr⟩, fun he => hh (opcode_eq_halt.2 he)⟩
  have hlen : (body ++ [Instr.halt]).length + 3 = body.length + 4 := by simp
  have h0 := flowing_reset hp
  rw [List.map_append, List.map_singleton] at h0
  obtain ⟨u, hu, hflow⟩ := h0.runs hp le_rfl
  obtain ⟨t, hc, hh, hk⟩ := hflow.halts hp
  refine ⟨t, fun n => ?_, fun n hn => ?_⟩
  · have hbudget : body.length + 5 + n = body.length + 4 + (n + 1) := by omega
    rw [hlen] at hu
    rw [runCore_eq_runLoop rfl, hbudget, runLoop_of_run rfl hu hflow.running, runLoop_succ_next hflow.running hc,
      runLoop_of_halted hh, hk]
    simp
  · obtain ⟨w, hw, hflow'⟩ := h0.runs hp (c := n) (by omega)
    exact ⟨w, hw, hflow'.running⟩

end Sys2Proof.Machine

/-! SUPPORT. The words that the spec writes out, the loading of one word, and the run that ends in a fault
(95_test_vectors.md V30.1 to V30.8; log 7; 60_exceptions.md R247). -/

namespace Sys2Proof

/-- Settles O5: a word with 0 in its unused fields is the encoding of its instruction, and one with other bits there, or with
an illegal opcode, is a packed record. -/
theorem listedWordsDecodeAsWritten : Obligations.ListedWordsDecodeAsWritten :=
  ⟨decode_encode (.add 2#8 0#8 1#8), decode_encode (.subl 1#8 1#8 1#32),
    decode_toPacked ⟨Opcode.movc.number, 1#8, 0xC8#8, 0x63#8, 1#32⟩,
    decode_encode (.store 2#8 3#8 0#32), decode_encode (.loadp 4#8 1#8 0#32), decode_encode (.storep 3#8 1#8 0#32),
    decode_encode (.jalr 7#8 1#8 0#32), decode_encode (.bnz 0xFFFFFFF8#32),
    decode_toPacked ⟨Opcode.halt.number, 0xFF#8, 0xFF#8, 0xFF#8, 0xFFFFFFFF#32⟩,
    decode_toPacked ⟨0x00#8, 0#8, 0#8, 0#8, 0#32⟩, decode_toPacked ⟨0x1A#8, 0#8, 0#8, 0#8, 0#32⟩⟩

theorem decodeTableWord_eq_some_iff {nbits w : Nat} {i : Instr} :
    decodeTableWord nbits w = some i ↔ decode (BitVec.ofNat 64 (w % 2 ^ nbits)) = .ok i := by
  unfold decodeTableWord
  cases decode (BitVec.ofNat 64 (w % 2 ^ nbits)) <;> simp

end Sys2Proof

namespace Sys2Proof.Machine

/-! ### The word put into the code memory and fetched -/

@[simp] theorem State.withRecordAt_regs (s : State) (pc : Word) (r : Record) : (s.withRecordAt pc r).regs = s.regs := by
  unfold State.withRecordAt
  split <;> rfl

@[simp] theorem State.withRecordAt_pc (s : State) (pc : Word) (r : Record) : (s.withRecordAt pc r).pc = s.pc := by
  unfold State.withRecordAt
  split <;> rfl

@[simp] theorem State.withRecordAt_flags (s : State) (pc : Word) (r : Record) : (s.withRecordAt pc r).flags = s.flags := by
  unfold State.withRecordAt
  split <;> rfl

@[simp] theorem State.withRecordAt_dmem (s : State) (pc : Word) (r : Record) : (s.withRecordAt pc r).dmem = s.dmem := by
  unfold State.withRecordAt
  split <;> rfl

/-- Nothing is in flight, so no register is busy (40_pipeline.md R157). -/
theorem State.withFetched_readBusy (s : State) (r : Record) (x : RegIndex) : (s.withFetched r).readBusy x = false :=
  (State.readBusy_congr rfl x).trans (State.reset_readBusy x)

theorem State.withIssued_of_next {s u : State} {r : Record} (h : decodeStage (s.withFetched r) = .next u) :
    s.withIssued r = u := by
  rw [State.withIssued, h]

/-! ### Decode with nothing else in flight -/

/-- With nothing to forward and no register busy, Decode issues what it holds, with the register file's values
(40_pipeline.md R137, R138). -/
theorem decodeStage_issues_alone {t : State} {op : Opcode} (hD : t.D.valid = true) (hM : t.M.valid = false)
    (hW : t.W.valid = false) (hbusy : ∀ x, t.readBusy x = false) (hc : checkDecode t.D = .ok op) :
    ∃ u, decodeStage t = .next u ∧ u.D.valid = false ∧ u.E.valid = true ∧ t.D.SameRecord u.E ∧
      ∀ f ∈ srcFields op, u.E.value f = t.readReg (u.E.field f) := by
  have hready : (t.resolveOperands (srcFields op)).2 = true :=
    (State.resolveOperands_ready_iff (fun r _ => hbusy r) _).2 fun f _ => by
      simp [(State.operand_of_empty hM hW (t.D.field f)).1]
  have hrec := t.resolveOperands_D (srcFields op)
  refine ⟨issue op (t.resolveOperands (srcFields op)).1, by simp [decodeStage, hD, hc, hready], rfl,
    (State.resolveOperands_D_valid t _).trans hD, hrec, fun f hf => ?_⟩
  rw [issue_E, State.resolveOperands_value (rd_not_mem_srcFields op) hready hf, (State.operand_of_empty hM hW _).2,
    hrec.field]

/-- Settles O10: the word's record is fetched into an empty pipeline, and Decode issues it. -/
theorem loadedWordIsTheNextInstructionRun : Obligations.LoadedWordIsTheNextInstructionRun := by
  intro s nbits w i hword hw
  have hi : (Record.ofPacked (BitVec.ofNat 64 (w % 2 ^ nbits))).instr = .ok i := decodeTableWord_eq_some_iff.1 hword
  rw [State.withFetchWord]
  generalize Record.ofPacked (BitVec.ofNat 64 (w % 2 ^ nbits)) = r at hi ⊢
  obtain ⟨u, hd, hDu, hEu, hrec, hvalues⟩ := decodeStage_issues_alone (t := (s.withRecordAt s.pc r).withFetched r)
    (fetchedLatch_valid ..) rfl rfl (State.withFetched_readBusy _ r) (checkDecode_fetchedLatch hi hw true _)
  have d := decodeStage_frame hd
  have hregs : ((s.withRecordAt s.pc r).withFetched r).regs = s.regs := s.withRecordAt_regs s.pc r
  have hsources : ∀ f ∈ srcFields i.opcode, u.E.value f = s.readReg (u.E.field f) := fun f hf =>
    (hvalues f hf).trans (State.readReg_congr hregs _)
  rw [State.withIssued_of_next hd]
  exact ⟨hEu, hrec.instr.trans (instr_fetchedLatch hi hw true _),
    hrec.pc.trans ((fetchedLatch_pc ..).trans (s.withRecordAt_pc s.pc r)), hsources .rs1, hsources .rs2, hDu,
    congrArg Latch.valid d.M, congrArg Latch.valid d.W, d.faulted, d.halted, d.regs.trans hregs,
    d.flags.trans (s.withRecordAt_flags s.pc r), d.dmem.trans (s.withRecordAt_dmem s.pc r)⟩

/-! ### The run that ends in a fault -/

/-- A marked handle answers its fault again (60_exceptions.md R247; log 5). -/
theorem step_of_faulted {s : State} {f : Fault} (hf : s.faulted = some f) : step s = .fault f := by
  simp [step, runCycle, hf, raise]

theorem runCore_of_faulted {s : State} {f : Fault} (hf : s.faulted = some f) (n : Nat) :
    runCore s n = (.faulted f 0, s) := by
  simp [runCore, hf]

/-- A loop that faults after `m` more cycles has performed `m` steps, and only marks the state from which the next one faults
(40_pipeline.md R102; 60_exceptions.md R247). -/
theorem runLoop_faulted {fuel a k : Nat} {f : Fault} {s t : State} (hf : s.faulted = none)
    (h : runLoop fuel a s = (.faulted f k, t)) :
    ∃ m u, k = a + m ∧ Host.Core.run core m s = .next u ∧ u.clock = s.clock + m ∧ step u = .fault f ∧
      t = { u with faulted := some f } := by
  induction fuel generalizing a s with
  | zero => cases h
  | succ fuel ih =>
    cases hrun : s.halted with
    | true => cases (runLoop_of_halted hrun _ a).symm.trans h
    | false =>
      cases hc : cycle s with
      | next v =>
        have hstep : step s = .next v := (step_eq_cycle hf hrun).trans hc
        obtain ⟨hclock, -⟩ := countersAndHaltedFollowWriteback s v hstep hrun
        obtain ⟨m, u, hk, hr, hu, hfault, ht⟩ :=
          ih (step_faulted hstep) ((runLoop_succ_next hrun hc fuel a).symm.trans h)
        exact ⟨m + 1, u, by omega, (run_succ_next hstep m).trans hr, by omega, hfault, ht⟩
      | fault f' =>
        cases (runLoop_succ_fault hrun hc fuel a).symm.trans h
        exact ⟨0, s, rfl, rfl, rfl, (step_eq_cycle hf hrun).trans hc, rfl⟩
      | refused r => cases (runLoop_succ_refused hrun hc fuel a).symm.trans h

/-- Settles O47, from the loop that has performed no cycle yet; `inspect` does not show the mark. -/
theorem faultKeepsTheStateAndRepeats : Obligations.FaultKeepsTheStateAndRepeats := by
  intro s t n k f hf h
  obtain ⟨m, u, hk, hr, hclock, hfault, rfl⟩ := runLoop_faulted hf ((runCore_eq_runLoop hf n).symm.trans h)
  obtain rfl : k = m := hk.trans (Nat.zero_add m)
  exact ⟨⟨u, hr, hclock, hfault, rfl, rfl⟩, runCore_of_faulted rfl, step_of_faulted rfl⟩

end Sys2Proof.Machine
